-- ==== Sys2Proof/Word.lean ====
section
/-! DEFINITION. The words of the repacker: bytes, 6-bit indices, 32-bit lengths, 40-bit command words
(spec 00_scope R8, 30_encoding R62 and R71), and the two kinds of word the opcode table lists. -/

namespace Sys2Proof

/-- One byte (`BYTE_BITS = 8`, R8). -/
abbrev Byte := BitVec 8

/-- A byte string: a sequence of bytes (00_scope §5). -/
abbrev Bytes := List Byte

/-- A 6-bit group, symbol or codebook index (`GROUP_BITS = 6`, R8, R62). -/
abbrev Index := BitVec 6

/-- A 32-bit unsigned length (`HDR_BYTES = 4`, R8, R25). -/
abbrev Length := BitVec 32

/-- A 40-bit command word (`CMD_W = 40`, R8, R71). -/
abbrev CmdWord := BitVec 40

/-- What one row of the opcode table encodes: a 40-bit command word (format `CMD`, R71) or the 6-bit
index of one token of the wire format (format `TOKEN`, R62). -/
inductive Wire where
  | cmd (w : CmdWord)
  | tok (v : Index)
deriving DecidableEq, Repr

/-- The number of bytes of the frame header (R8). -/
abbrev hdrBytes : Nat := 4

/-- `SEP`, the byte the encoder writes between tokens: one ASCII space (R8). -/
def sep : Byte := 0x20#8

end Sys2Proof
end

