-- ==== Sys2Proof/Config.lean ====
section
/-! DEFINITION. The parameters of the step relation (spec 00_scope R9, 40_codebook R92): what one
implementation fixes. Plain data, so that it can ride in the machine's state; no command writes it. -/

namespace Sys2Proof

/-- Which validity check `utf8_ok` stands for (R9, R11): the Unicode Standard's table, which is the
default of R11, or some other total function of the bytes alone, named by a number. -/
inductive Utf8Check where
  | table
  | other (n : Nat)
deriving DecidableEq, Repr

/-- The open parameters `WS8`, `utf8_ok`, `CAP`, `TOKCAP` of R9 and the two codebook tables, which R92
asks a model to pass as a value. A capacity `none` is infinity. -/
structure Config where
  /-- `WS8`: the bytes the tokenizer treats as separators (R9, R10). -/
  ws8 : Bytes
  /-- which `utf8_ok` is used (R9, R11). -/
  utf8 : Utf8Check
  /-- `CAP`: most bytes a frame may hold inside the block (R9). -/
  cap : Option Nat
  /-- `TOKCAP`: most bytes of one incoming token (R9). -/
  tokCap : Option Nat
  /-- `ROM.CORE` (R16, R41). -/
  core : List Bytes
  /-- `ROM.TONE` (R16, R41). -/
  tone : List Bytes
deriving DecidableEq, Repr

/-- A validity check other than the default: R11 assumes nothing of `utf8_ok` but that it is total and
depends on the bytes alone. It has no body, so a proof holds whatever it is (log entry 3). -/
opaque Config.otherUtf8 : Nat → Bytes → Bool

end Sys2Proof
end

