-- ==== Sys2Proof/Machine/Codebook.lean ====
section
/-! DEFINITION. The token codebook (spec 40_codebook): the contents of the two tables, forward and
inverse lookup, and the build-time check. -/

namespace Sys2Proof.Machine

/-- `ROM.CORE`: the 8 cores in order, as UTF-8 bytes (R83). -/
def coreTable : List Bytes :=
  [ [0xE6#8, 0xB1#8, 0xAA#8]
  , [0xE5#8, 0x97#8, 0x9A#8]
  , [0xE5#8, 0x97#8, 0xB7#8]
  , [0xE6#8, 0xB1#8, 0xAA#8, 0xE6#8, 0xB1#8, 0xAA#8]
  , [0xE5#8, 0x97#8, 0x9A#8, 0xE6#8, 0xB1#8, 0xAA#8]
  , [0xE5#8, 0x97#8, 0xB7#8, 0xE6#8, 0xB1#8, 0xAA#8]
  , [0xE6#8, 0xB1#8, 0xAA#8, 0xE5#8, 0x97#8, 0x9A#8]
  , [0x7E#8, 0xE6#8, 0xB1#8, 0xAA#8] ]

/-- `ROM.TONE`: the 8 tones in order, as UTF-8 bytes (R84). -/
def toneTable : List Bytes :=
  [ []
  , [0x2E#8]
  , [0x7E#8]
  , [0xEF#8, 0xBD#8, 0x9E#8]
  , [0xE2#8, 0x80#8, 0xA6#8]
  , [0x21#8]
  , [0xEF#8, 0xBC#8, 0x81#8]
  , [0x7E#8, 0x2E#8] ]

/-- `v[5:3]`, the core index of a codebook index (R42, R62). -/
def coreIndex (v : Index) : BitVec 3 := v.extractLsb' 3 3

/-- `v[2:0]`, the tone index of a codebook index (R42, R62). -/
def toneIndex (v : Index) : BitVec 3 := v.extractLsb' 0 3

/-- `cb_fwd(v)`: `CB[v] = CORE[v[5:3]] ++ TONE[v[2:0]]` (R85, R86). -/
def cbFwd (c : Config) (v : Index) : Bytes :=
  c.core.getD (coreIndex v).toNat [] ++ c.tone.getD (toneIndex v).toNat []

/-- The 64 indices in enumeration order (R82). -/
def allIndices : List Index := (List.range 64).map (BitVec.ofNat 6)

/-- `cb_rev(t)`: the index whose token is exactly `t`, if there is one (R87). -/
def cbRev (c : Config) (t : Bytes) : Option Index :=
  allIndices.find? (fun v => cbFwd c v == t)

/-- The build-time check of `cb_init`: no two different indices have equal tokens (R81). -/
def tokensDistinct (c : Config) : Bool :=
  allIndices.all fun v => allIndices.all fun w => v == w || cbFwd c v != cbFwd c w

end Sys2Proof.Machine
end

