-- ==== Sys2Proof/Machine/Utf8.lean ====
section
/-! DEFINITION. `utf8_ok` (spec 00_scope R11): the table of well-formed UTF-8 byte sequences and the
check that a byte string is a concatenation of sequences of that table. -/

namespace Sys2Proof.Machine

/-- An inclusive range of byte values. -/
structure ByteRange where
  lo : Nat
  hi : Nat
deriving DecidableEq, Repr

/-- Is the byte in the range? -/
def inRange (r : ByteRange) (b : Byte) : Bool := decide (r.lo ≤ b.toNat) && decide (b.toNat ≤ r.hi)

/-- The nine rows of R11's table, each the ranges of its first, second, third and fourth byte. -/
def utf8Rows : List (List ByteRange) :=
  [ [⟨0x00, 0x7F⟩]
  , [⟨0xC2, 0xDF⟩, ⟨0x80, 0xBF⟩]
  , [⟨0xE0, 0xE0⟩, ⟨0xA0, 0xBF⟩, ⟨0x80, 0xBF⟩]
  , [⟨0xE1, 0xEC⟩, ⟨0x80, 0xBF⟩, ⟨0x80, 0xBF⟩]
  , [⟨0xED, 0xED⟩, ⟨0x80, 0x9F⟩, ⟨0x80, 0xBF⟩]
  , [⟨0xEE, 0xEF⟩, ⟨0x80, 0xBF⟩, ⟨0x80, 0xBF⟩]
  , [⟨0xF0, 0xF0⟩, ⟨0x90, 0xBF⟩, ⟨0x80, 0xBF⟩, ⟨0x80, 0xBF⟩]
  , [⟨0xF1, 0xF3⟩, ⟨0x80, 0xBF⟩, ⟨0x80, 0xBF⟩, ⟨0x80, 0xBF⟩]
  , [⟨0xF4, 0xF4⟩, ⟨0x80, 0x8F⟩, ⟨0x80, 0xBF⟩, ⟨0x80, 0xBF⟩] ]

/-- Take one sequence matching the row off the front of a byte string: the rest, if it matches. -/
def stripRow : List ByteRange → Bytes → Option Bytes
  | [], s => some s
  | _ :: _, [] => none
  | r :: rs, b :: s => if inRange r b then stripRow rs s else none

/-- Take one well-formed sequence off the front of a byte string. -/
def stripSequence (s : Bytes) : Option Bytes := utf8Rows.findSome? (fun row => stripRow row s)

/-- Is the byte string a concatenation of well-formed sequences, looking at most `fuel` of them? -/
def utf8Within : Nat → Bytes → Bool
  | _, [] => true
  | 0, _ :: _ => false
  | fuel + 1, b :: s =>
    match stripSequence (b :: s) with
    | some rest => utf8Within fuel rest
    | none => false

/-- The default `utf8_ok` of R11. Each sequence has at least one byte, so `|s|` of them suffice. -/
def utf8Table (s : Bytes) : Bool := utf8Within s.length s

/-- `utf8_ok` of a configuration (R9, R11). -/
def utf8Ok (c : Config) (s : Bytes) : Bool :=
  match c.utf8 with
  | .table => utf8Table s
  | .other n => Config.otherUtf8 n s

end Sys2Proof.Machine
end

