-- ==== Sys2Proof/Machine/Standard.lean ====
section
/-! DEFINITION. The configuration the spec fixes as default (spec 00_scope R9, R10; 40_codebook R83 to
R85): the one the machine holds after reset. -/

namespace Sys2Proof.Machine

/-- The default `WS8`: TAB, LF, VT, FF, CR, SPACE (R9, R10). -/
def standardWs8 : Bytes := [0x09#8, 0x0A#8, 0x0B#8, 0x0C#8, 0x0D#8, 0x20#8]

/-- Every open parameter at its default (R9), the codebook at its intended instance (R85, R92). -/
def standardConfig : Config :=
  { ws8 := standardWs8
    utf8 := .table
    cap := none
    tokCap := none
    core := coreTable
    tone := toneTable }

/-- `n <= CAP` where `none` is infinity (R9). -/
def fits (n : Nat) (cap : Option Nat) : Bool :=
  match cap with
  | none => true
  | some c => decide (n ≤ c)

end Sys2Proof.Machine
end

