-- ==== Sys2Proof/Syntax.lean ====
section
/-! DEFINITION. The instructions: one constructor per row of the opcode table, the nine host commands
(spec 30_encoding R74) and the 64 tokens of the wire format (40_codebook R85), each token named by its
index. The operand types carry the field widths of R72. -/

namespace Sys2Proof

/-- One row of the opcode table. -/
inductive Instr where
  /-- `NOP`: no effect (R128). -/
  | nop
  /-- `CLR`: clear, release a result, acknowledge an error, abort a call (R129). -/
  | clr
  /-- `ENCB L`: encode begin, `L` the payload length in bytes (R105). -/
  | encb (L : Length)
  /-- `ENCP b`: encode put, `b` the next payload byte (R106). -/
  | encp (b : Byte)
  /-- `ENCE`: encode end (R107). -/
  | ence
  /-- `DECB`: decode begin (R115). -/
  | decb
  /-- `DECP b`: decode put, `b` the next byte of the token text (R116). -/
  | decp (b : Byte)
  /-- `DECE`: decode end (R117). -/
  | dece
  /-- `CBRD v`: read codebook entry `v` into `LKP` (R88). -/
  | cbrd (v : Index)
  /-- token 0: `汪`, bytes E6 B1 AA (R85). -/
  | tok0
  /-- token 1: `汪.`, bytes E6 B1 AA 2E (R85). -/
  | tok1
  /-- token 2: `汪~`, bytes E6 B1 AA 7E (R85). -/
  | tok2
  /-- token 3: `汪～`, bytes E6 B1 AA EF BD 9E (R85). -/
  | tok3
  /-- token 4: `汪…`, bytes E6 B1 AA E2 80 A6 (R85). -/
  | tok4
  /-- token 5: `汪!`, bytes E6 B1 AA 21 (R85). -/
  | tok5
  /-- token 6: `汪！`, bytes E6 B1 AA EF BC 81 (R85). -/
  | tok6
  /-- token 7: `汪~.`, bytes E6 B1 AA 7E 2E (R85). -/
  | tok7
  /-- token 8: `嗚`, bytes E5 97 9A (R85). -/
  | tok8
  /-- token 9: `嗚.`, bytes E5 97 9A 2E (R85). -/
  | tok9
  /-- token 10: `嗚~`, bytes E5 97 9A 7E (R85). -/
  | tok10
  /-- token 11: `嗚～`, bytes E5 97 9A EF BD 9E (R85). -/
  | tok11
  /-- token 12: `嗚…`, bytes E5 97 9A E2 80 A6 (R85). -/
  | tok12
  /-- token 13: `嗚!`, bytes E5 97 9A 21 (R85). -/
  | tok13
  /-- token 14: `嗚！`, bytes E5 97 9A EF BC 81 (R85). -/
  | tok14
  /-- token 15: `嗚~.`, bytes E5 97 9A 7E 2E (R85). -/
  | tok15
  /-- token 16: `嗷`, bytes E5 97 B7 (R85). -/
  | tok16
  /-- token 17: `嗷.`, bytes E5 97 B7 2E (R85). -/
  | tok17
  /-- token 18: `嗷~`, bytes E5 97 B7 7E (R85). -/
  | tok18
  /-- token 19: `嗷～`, bytes E5 97 B7 EF BD 9E (R85). -/
  | tok19
  /-- token 20: `嗷…`, bytes E5 97 B7 E2 80 A6 (R85). -/
  | tok20
  /-- token 21: `嗷!`, bytes E5 97 B7 21 (R85). -/
  | tok21
  /-- token 22: `嗷！`, bytes E5 97 B7 EF BC 81 (R85). -/
  | tok22
  /-- token 23: `嗷~.`, bytes E5 97 B7 7E 2E (R85). -/
  | tok23
  /-- token 24: `汪汪`, bytes E6 B1 AA E6 B1 AA (R85). -/
  | tok24
  /-- token 25: `汪汪.`, bytes E6 B1 AA E6 B1 AA 2E (R85). -/
  | tok25
  /-- token 26: `汪汪~`, bytes E6 B1 AA E6 B1 AA 7E (R85). -/
  | tok26
  /-- token 27: `汪汪～`, bytes E6 B1 AA E6 B1 AA EF BD 9E (R85). -/
  | tok27
  /-- token 28: `汪汪…`, bytes E6 B1 AA E6 B1 AA E2 80 A6 (R85). -/
  | tok28
  /-- token 29: `汪汪!`, bytes E6 B1 AA E6 B1 AA 21 (R85). -/
  | tok29
  /-- token 30: `汪汪！`, bytes E6 B1 AA E6 B1 AA EF BC 81 (R85). -/
  | tok30
  /-- token 31: `汪汪~.`, bytes E6 B1 AA E6 B1 AA 7E 2E (R85). -/
  | tok31
  /-- token 32: `嗚汪`, bytes E5 97 9A E6 B1 AA (R85). -/
  | tok32
  /-- token 33: `嗚汪.`, bytes E5 97 9A E6 B1 AA 2E (R85). -/
  | tok33
  /-- token 34: `嗚汪~`, bytes E5 97 9A E6 B1 AA 7E (R85). -/
  | tok34
  /-- token 35: `嗚汪～`, bytes E5 97 9A E6 B1 AA EF BD 9E (R85). -/
  | tok35
  /-- token 36: `嗚汪…`, bytes E5 97 9A E6 B1 AA E2 80 A6 (R85). -/
  | tok36
  /-- token 37: `嗚汪!`, bytes E5 97 9A E6 B1 AA 21 (R85). -/
  | tok37
  /-- token 38: `嗚汪！`, bytes E5 97 9A E6 B1 AA EF BC 81 (R85). -/
  | tok38
  /-- token 39: `嗚汪~.`, bytes E5 97 9A E6 B1 AA 7E 2E (R85). -/
  | tok39
  /-- token 40: `嗷汪`, bytes E5 97 B7 E6 B1 AA (R85). -/
  | tok40
  /-- token 41: `嗷汪.`, bytes E5 97 B7 E6 B1 AA 2E (R85). -/
  | tok41
  /-- token 42: `嗷汪~`, bytes E5 97 B7 E6 B1 AA 7E (R85). -/
  | tok42
  /-- token 43: `嗷汪～`, bytes E5 97 B7 E6 B1 AA EF BD 9E (R85). -/
  | tok43
  /-- token 44: `嗷汪…`, bytes E5 97 B7 E6 B1 AA E2 80 A6 (R85). -/
  | tok44
  /-- token 45: `嗷汪!`, bytes E5 97 B7 E6 B1 AA 21 (R85). -/
  | tok45
  /-- token 46: `嗷汪！`, bytes E5 97 B7 E6 B1 AA EF BC 81 (R85). -/
  | tok46
  /-- token 47: `嗷汪~.`, bytes E5 97 B7 E6 B1 AA 7E 2E (R85). -/
  | tok47
  /-- token 48: `汪嗚`, bytes E6 B1 AA E5 97 9A (R85). -/
  | tok48
  /-- token 49: `汪嗚.`, bytes E6 B1 AA E5 97 9A 2E (R85). -/
  | tok49
  /-- token 50: `汪嗚~`, bytes E6 B1 AA E5 97 9A 7E (R85). -/
  | tok50
  /-- token 51: `汪嗚～`, bytes E6 B1 AA E5 97 9A EF BD 9E (R85). -/
  | tok51
  /-- token 52: `汪嗚…`, bytes E6 B1 AA E5 97 9A E2 80 A6 (R85). -/
  | tok52
  /-- token 53: `汪嗚!`, bytes E6 B1 AA E5 97 9A 21 (R85). -/
  | tok53
  /-- token 54: `汪嗚！`, bytes E6 B1 AA E5 97 9A EF BC 81 (R85). -/
  | tok54
  /-- token 55: `汪嗚~.`, bytes E6 B1 AA E5 97 9A 7E 2E (R85). -/
  | tok55
  /-- token 56: `~汪`, bytes 7E E6 B1 AA (R85). -/
  | tok56
  /-- token 57: `~汪.`, bytes 7E E6 B1 AA 2E (R85). -/
  | tok57
  /-- token 58: `~汪~`, bytes 7E E6 B1 AA 7E (R85). -/
  | tok58
  /-- token 59: `~汪～`, bytes 7E E6 B1 AA EF BD 9E (R85). -/
  | tok59
  /-- token 60: `~汪…`, bytes 7E E6 B1 AA E2 80 A6 (R85). -/
  | tok60
  /-- token 61: `~汪!`, bytes 7E E6 B1 AA 21 (R85). -/
  | tok61
  /-- token 62: `~汪！`, bytes 7E E6 B1 AA EF BC 81 (R85). -/
  | tok62
  /-- token 63: `~汪~.`, bytes 7E E6 B1 AA 7E 2E (R85). -/
  | tok63
deriving DecidableEq, Repr

end Sys2Proof
end

