-- ==== Sys2Proof/WellFormed.lean ====
section
/-! DEFINITION. The static checks: a command word against the opcode map (spec 30_encoding R72, R74,
R75) and a configuration against the constraints of 00_scope R9 and 20_memory R41. The operands of
`Instr` carry the field widths of R72 in their types, so every term of `Instr` is well formed. -/

namespace Sys2Proof

/-- One row of the opcode map: a word `w` is this command when `w & mask = match` (R74). -/
structure CmdRow where
  mnemonic : String
  pattern : CmdWord
  mask : CmdWord
deriving DecidableEq, Repr

/-- The opcode map of R74, row by row. -/
def cmdRows : List CmdRow :=
  [ ⟨"NOP", 0x0000000000#40, 0xFFFFFFFFFF#40⟩
  , ⟨"CLR", 0x0100000000#40, 0xFFFFFFFFFF#40⟩
  , ⟨"ENCB", 0x1000000000#40, 0xFF00000000#40⟩
  , ⟨"ENCP", 0x1100000000#40, 0xFFFFFFFF00#40⟩
  , ⟨"ENCE", 0x1200000000#40, 0xFFFFFFFFFF#40⟩
  , ⟨"DECB", 0x2000000000#40, 0xFFFFFFFFFF#40⟩
  , ⟨"DECP", 0x2100000000#40, 0xFFFFFFFF00#40⟩
  , ⟨"DECE", 0x2200000000#40, 0xFFFFFFFFFF#40⟩
  , ⟨"CBRD", 0x3000000000#40, 0xFFFFFFFFC0#40⟩ ]

/-- Does the word match the row (R74)? -/
def CmdRow.fitsWord (r : CmdRow) (w : CmdWord) : Bool := (w &&& r.mask) == r.pattern

/-- A command word that matches some row; every other word is reserved (R75). -/
def cmdWellFormed (w : CmdWord) : Bool := cmdRows.any (fun r => r.fitsWord w)

/-- A wire word that is not reserved: a token index always is one (R62: "all 64 values are legal"). -/
def Wire.wellFormed : Wire → Bool
  | .cmd w => cmdWellFormed w
  | .tok _ => true

/-- Every member of `WS8` is below 0x80, and 0x20 is a member (R9). -/
def Config.ws8Ok (c : Config) : Bool := c.ws8.all (fun b => decide (b.toNat < 0x80)) && c.ws8.contains sep

/-- No member of `WS8` occurs in any codebook token (R9). -/
def Config.ws8Apart (c : Config) : Bool :=
  Machine.allIndices.all fun v => (Machine.cbFwd c v).all fun b => !c.ws8.contains b

/-- `CAP >= 4` and `TOKCAP >= 10` where they are finite (R9). -/
def Config.capsOk (c : Config) : Bool :=
  (match c.cap with | none => true | some n => decide (4 ≤ n)) &&
  (match c.tokCap with | none => true | some n => decide (10 ≤ n))

/-- Eight cores of 3 to 6 bytes and eight tones of 0 to 3 bytes (R41). -/
def Config.tablesOk (c : Config) : Bool :=
  c.core.length == 8 && c.tone.length == 8 &&
  c.core.all (fun t => decide (3 ≤ t.length) && decide (t.length ≤ 6)) &&
  c.tone.all (fun t => decide (t.length ≤ 3))

/-- The constraints of R9 and R41 on the parameters. Whether the 64 tokens are distinct is not one of
them: `cb_init` checks that at reset (R81). -/
def Config.admissible (c : Config) : Bool := c.ws8Ok && c.ws8Apart && c.capsOk && c.tablesOk

end Sys2Proof
end

