-- ==== Sys2Proof/Decode.lean ====
section
/-! DEFINITION. Decoding and encoding (spec 30_encoding R62, R71 to R75): from a wire word to the
instruction it stands for, or to the name of what is reserved about it, and back. -/

namespace Sys2Proof

/-- Why a command word is reserved (R75). The dispatch treats both alike (44_control R130, test 2). -/
inductive DecodeError where
  /-- an `op` other than the nine listed -/
  | reservedOp (op : Byte)
  /-- a listed `op` with a reserved `arg` bit set -/
  | reservedArg (op : Byte)
deriving DecidableEq, Repr

/-- `op` of `NOP` (R74). -/
def opNop : Byte := 0x00#8

/-- `op` of `CLR` (R74). -/
def opClr : Byte := 0x01#8

/-- `op` of `ENCB` (R74). -/
def opEncb : Byte := 0x10#8

/-- `op` of `ENCP` (R74). -/
def opEncp : Byte := 0x11#8

/-- `op` of `ENCE` (R74). -/
def opEnce : Byte := 0x12#8

/-- `op` of `DECB` (R74). -/
def opDecb : Byte := 0x20#8

/-- `op` of `DECP` (R74). -/
def opDecp : Byte := 0x21#8

/-- `op` of `DECE` (R74). -/
def opDece : Byte := 0x22#8

/-- `op` of `CBRD` (R74). -/
def opCbrd : Byte := 0x30#8

/-- `op`, bits 39:32 of a command word (R71). -/
def cmdOp (w : CmdWord) : Byte := w.extractLsb' 32 8

/-- `arg`, bits 31:0 of a command word (R71). -/
def cmdArg (w : CmdWord) : BitVec 32 := w.extractLsb' 0 32

/-- A command word from its two fields (R71, R79: `op << 32 | operand`). -/
def cmdOf (op : Byte) (arg : BitVec 32) : CmdWord := (op.setWidth 40 <<< 32) ||| arg.setWidth 40

/-- Accept the instruction if the reserved bits of `arg` are all 0 (R72, R75). -/
def whenClear (clear : Bool) (op : Byte) (i : Instr) : Except DecodeError Instr :=
  if clear then .ok i else .error (.reservedArg op)

/-- The tokens of core 0, in tone order (R82). -/
def tokenRow0 : List Instr := [.tok0, .tok1, .tok2, .tok3, .tok4, .tok5, .tok6, .tok7]

/-- The tokens of core 1, in tone order (R82). -/
def tokenRow1 : List Instr := [.tok8, .tok9, .tok10, .tok11, .tok12, .tok13, .tok14, .tok15]

/-- The tokens of core 2, in tone order (R82). -/
def tokenRow2 : List Instr := [.tok16, .tok17, .tok18, .tok19, .tok20, .tok21, .tok22, .tok23]

/-- The tokens of core 3, in tone order (R82). -/
def tokenRow3 : List Instr := [.tok24, .tok25, .tok26, .tok27, .tok28, .tok29, .tok30, .tok31]

/-- The tokens of core 4, in tone order (R82). -/
def tokenRow4 : List Instr := [.tok32, .tok33, .tok34, .tok35, .tok36, .tok37, .tok38, .tok39]

/-- The tokens of core 5, in tone order (R82). -/
def tokenRow5 : List Instr := [.tok40, .tok41, .tok42, .tok43, .tok44, .tok45, .tok46, .tok47]

/-- The tokens of core 6, in tone order (R82). -/
def tokenRow6 : List Instr := [.tok48, .tok49, .tok50, .tok51, .tok52, .tok53, .tok54, .tok55]

/-- The tokens of core 7, in tone order (R82). -/
def tokenRow7 : List Instr := [.tok56, .tok57, .tok58, .tok59, .tok60, .tok61, .tok62, .tok63]

/-- The 64 token instructions in index order (R82, R85). -/
def tokenInstrs : List Instr :=
  tokenRow0 ++ tokenRow1 ++ tokenRow2 ++ tokenRow3 ++ tokenRow4 ++ tokenRow5 ++ tokenRow6 ++ tokenRow7

/-- The token instruction of an index (R62: every 6-bit value is a token). -/
def tokenInstr (v : Index) : Instr := tokenInstrs.getD v.toNat .tok0

/-- The command of a 40-bit word, or what is reserved about it (R72, R74, R75). -/
def decodeCmd (w : CmdWord) : Except DecodeError Instr :=
  let op := cmdOp w
  let arg := cmdArg w
  if op = opNop then whenClear (arg == 0#32) op .nop
  else if op = opClr then whenClear (arg == 0#32) op .clr
  else if op = opEncb then .ok (.encb arg)
  else if op = opEncp then whenClear (arg.extractLsb' 8 24 == 0#24) op (.encp (arg.extractLsb' 0 8))
  else if op = opEnce then whenClear (arg == 0#32) op .ence
  else if op = opDecb then whenClear (arg == 0#32) op .decb
  else if op = opDecp then whenClear (arg.extractLsb' 8 24 == 0#24) op (.decp (arg.extractLsb' 0 8))
  else if op = opDece then whenClear (arg == 0#32) op .dece
  else if op = opCbrd then whenClear (arg.extractLsb' 6 26 == 0#26) op (.cbrd (arg.extractLsb' 0 6))
  else .error (.reservedOp op)

/-- The instruction of a wire word, or what is reserved about it. -/
def decode : Wire → Except DecodeError Instr
  | .cmd w => decodeCmd w
  | .tok v => .ok (tokenInstr v)

/-- The wire word of an instruction (R62, R72, R74, R85). -/
def encode : Instr → Wire
  | .nop => .cmd (cmdOf opNop 0#32)
  | .clr => .cmd (cmdOf opClr 0#32)
  | .encb L => .cmd (cmdOf opEncb L)
  | .encp b => .cmd (cmdOf opEncp (b.setWidth 32))
  | .ence => .cmd (cmdOf opEnce 0#32)
  | .decb => .cmd (cmdOf opDecb 0#32)
  | .decp b => .cmd (cmdOf opDecp (b.setWidth 32))
  | .dece => .cmd (cmdOf opDece 0#32)
  | .cbrd v => .cmd (cmdOf opCbrd (v.setWidth 32))
  | .tok0 => .tok 0#6
  | .tok1 => .tok 1#6
  | .tok2 => .tok 2#6
  | .tok3 => .tok 3#6
  | .tok4 => .tok 4#6
  | .tok5 => .tok 5#6
  | .tok6 => .tok 6#6
  | .tok7 => .tok 7#6
  | .tok8 => .tok 8#6
  | .tok9 => .tok 9#6
  | .tok10 => .tok 10#6
  | .tok11 => .tok 11#6
  | .tok12 => .tok 12#6
  | .tok13 => .tok 13#6
  | .tok14 => .tok 14#6
  | .tok15 => .tok 15#6
  | .tok16 => .tok 16#6
  | .tok17 => .tok 17#6
  | .tok18 => .tok 18#6
  | .tok19 => .tok 19#6
  | .tok20 => .tok 20#6
  | .tok21 => .tok 21#6
  | .tok22 => .tok 22#6
  | .tok23 => .tok 23#6
  | .tok24 => .tok 24#6
  | .tok25 => .tok 25#6
  | .tok26 => .tok 26#6
  | .tok27 => .tok 27#6
  | .tok28 => .tok 28#6
  | .tok29 => .tok 29#6
  | .tok30 => .tok 30#6
  | .tok31 => .tok 31#6
  | .tok32 => .tok 32#6
  | .tok33 => .tok 33#6
  | .tok34 => .tok 34#6
  | .tok35 => .tok 35#6
  | .tok36 => .tok 36#6
  | .tok37 => .tok 37#6
  | .tok38 => .tok 38#6
  | .tok39 => .tok 39#6
  | .tok40 => .tok 40#6
  | .tok41 => .tok 41#6
  | .tok42 => .tok 42#6
  | .tok43 => .tok 43#6
  | .tok44 => .tok 44#6
  | .tok45 => .tok 45#6
  | .tok46 => .tok 46#6
  | .tok47 => .tok 47#6
  | .tok48 => .tok 48#6
  | .tok49 => .tok 49#6
  | .tok50 => .tok 50#6
  | .tok51 => .tok 51#6
  | .tok52 => .tok 52#6
  | .tok53 => .tok 53#6
  | .tok54 => .tok 54#6
  | .tok55 => .tok 55#6
  | .tok56 => .tok 56#6
  | .tok57 => .tok 57#6
  | .tok58 => .tok 58#6
  | .tok59 => .tok 59#6
  | .tok60 => .tok 60#6
  | .tok61 => .tok 61#6
  | .tok62 => .tok 62#6
  | .tok63 => .tok 63#6

/-- The mnemonic of a host command in the opcode map (R74); a token has none. -/
def commandName : Instr → Option String
  | .nop => some "NOP"
  | .clr => some "CLR"
  | .encb _ => some "ENCB"
  | .encp _ => some "ENCP"
  | .ence => some "ENCE"
  | .decb => some "DECB"
  | .decp _ => some "DECP"
  | .dece => some "DECE"
  | .cbrd _ => some "CBRD"
  | .tok0 => none
  | .tok1 => none
  | .tok2 => none
  | .tok3 => none
  | .tok4 => none
  | .tok5 => none
  | .tok6 => none
  | .tok7 => none
  | .tok8 => none
  | .tok9 => none
  | .tok10 => none
  | .tok11 => none
  | .tok12 => none
  | .tok13 => none
  | .tok14 => none
  | .tok15 => none
  | .tok16 => none
  | .tok17 => none
  | .tok18 => none
  | .tok19 => none
  | .tok20 => none
  | .tok21 => none
  | .tok22 => none
  | .tok23 => none
  | .tok24 => none
  | .tok25 => none
  | .tok26 => none
  | .tok27 => none
  | .tok28 => none
  | .tok29 => none
  | .tok30 => none
  | .tok31 => none
  | .tok32 => none
  | .tok33 => none
  | .tok34 => none
  | .tok35 => none
  | .tok36 => none
  | .tok37 => none
  | .tok38 => none
  | .tok39 => none
  | .tok40 => none
  | .tok41 => none
  | .tok42 => none
  | .tok43 => none
  | .tok44 => none
  | .tok45 => none
  | .tok46 => none
  | .tok47 => none
  | .tok48 => none
  | .tok49 => none
  | .tok50 => none
  | .tok51 => none
  | .tok52 => none
  | .tok53 => none
  | .tok54 => none
  | .tok55 => none
  | .tok56 => none
  | .tok57 => none
  | .tok58 => none
  | .tok59 => none
  | .tok60 => none
  | .tok61 => none
  | .tok62 => none
  | .tok63 => none

/-- The operand of an instruction as the `arg` field carries it (R72); 0 where there is none. -/
def commandArg : Instr → BitVec 32
  | .nop => 0#32
  | .clr => 0#32
  | .encb L => L
  | .encp b => b.setWidth 32
  | .ence => 0#32
  | .decb => 0#32
  | .decp b => b.setWidth 32
  | .dece => 0#32
  | .cbrd v => v.setWidth 32
  | .tok0 => 0#32
  | .tok1 => 0#32
  | .tok2 => 0#32
  | .tok3 => 0#32
  | .tok4 => 0#32
  | .tok5 => 0#32
  | .tok6 => 0#32
  | .tok7 => 0#32
  | .tok8 => 0#32
  | .tok9 => 0#32
  | .tok10 => 0#32
  | .tok11 => 0#32
  | .tok12 => 0#32
  | .tok13 => 0#32
  | .tok14 => 0#32
  | .tok15 => 0#32
  | .tok16 => 0#32
  | .tok17 => 0#32
  | .tok18 => 0#32
  | .tok19 => 0#32
  | .tok20 => 0#32
  | .tok21 => 0#32
  | .tok22 => 0#32
  | .tok23 => 0#32
  | .tok24 => 0#32
  | .tok25 => 0#32
  | .tok26 => 0#32
  | .tok27 => 0#32
  | .tok28 => 0#32
  | .tok29 => 0#32
  | .tok30 => 0#32
  | .tok31 => 0#32
  | .tok32 => 0#32
  | .tok33 => 0#32
  | .tok34 => 0#32
  | .tok35 => 0#32
  | .tok36 => 0#32
  | .tok37 => 0#32
  | .tok38 => 0#32
  | .tok39 => 0#32
  | .tok40 => 0#32
  | .tok41 => 0#32
  | .tok42 => 0#32
  | .tok43 => 0#32
  | .tok44 => 0#32
  | .tok45 => 0#32
  | .tok46 => 0#32
  | .tok47 => 0#32
  | .tok48 => 0#32
  | .tok49 => 0#32
  | .tok50 => 0#32
  | .tok51 => 0#32
  | .tok52 => 0#32
  | .tok53 => 0#32
  | .tok54 => 0#32
  | .tok55 => 0#32
  | .tok56 => 0#32
  | .tok57 => 0#32
  | .tok58 => 0#32
  | .tok59 => 0#32
  | .tok60 => 0#32
  | .tok61 => 0#32
  | .tok62 => 0#32
  | .tok63 => 0#32

/-- The wire word whose bits are `w`, numbered as the opcode table numbers them: a row of at most 8 bits
is a token index (6 bits, the two bits above them 0), a longer row a 40-bit command word. -/
def tableWire (nbits w : Nat) : Option Wire :=
  if nbits ≤ 8 then
    if w < 64 then some (.tok (BitVec.ofNat 6 w)) else none
  else
    if w < 2 ^ 40 then some (.cmd (BitVec.ofNat 40 w)) else none

/-- The instruction the decoder reads from a word of the opcode table. -/
def decodeTableWord (nbits w : Nat) : Option Instr :=
  match tableWire nbits w with
  | none => none
  | some m =>
    match decode m with
    | .ok i => some i
    | .error _ => none

end Sys2Proof
end

