-- ==== Sys2Proof/Machine/State.lean ====
section
/-! DEFINITION. The architectural state of one instance of the block (spec 10_state), the host's moves,
the errors a call can end in, and the state after reset (R40, R155). -/

namespace Sys2Proof.Machine

/-- `PHASE` (R20). Values 5 and 6 are never written, so they have no constructor (93 I13). -/
inductive Phase where
  /-- 0: no call in progress -/
  | idle
  /-- 1: an encode call is open -/
  | enc
  /-- 2: a decode call is open -/
  | dec
  /-- 3: the call ended without error -/
  | done
  /-- 4: the call ended with the error in `ERR` -/
  | err
  /-- 7: the codebook check failed at reset -/
  | fatal
deriving DecidableEq, Repr

/-- `DIR` (R19): the direction of the current or last call. -/
inductive Dir where
  /-- 0: bit-to-token -/
  | encode
  /-- 1: token-to-bit -/
  | decode
deriving DecidableEq, Repr

/-- `ERR` (R22, R135). Codes 10 to 15 are never written, so they have no constructor (93 I13). -/
inductive ErrCode where
  | none
  | invalidInput
  | emptyInput
  | unknownToken
  | truncatedHeader
  | truncatedPayload
  | corruptPayload
  | illegalOp
  | capacityExceeded
  | codebookCollision
deriving DecidableEq, Repr

/-- An error as a command raises it, with the information its entry records (R135, R145). -/
inductive Raise where
  /-- the encoder's payload is not well-formed UTF-8 (R136) -/
  | invalidInput
  /-- no token was accepted and none was rejected (R137) -/
  | emptyInput
  /-- a closed token is no codebook token: its bytes and its position (R138) -/
  | unknownToken (etok : Bytes) (epos : Nat)
  /-- fewer than 4 bytes were decoded (R139) -/
  | truncatedHeader
  /-- the header declares more bytes than are there: declared and present (R140) -/
  | truncatedPayload (expected present : Length)
  /-- the decoded payload is not well-formed UTF-8 (R141) -/
  | corruptPayload
  /-- a reserved word, or a command not legal in the phase (R142) -/
  | illegalOp
  /-- a finite `CAP` or `TOKCAP` would be exceeded (R143) -/
  | capacityExceeded
deriving DecidableEq, Repr

/-- The host's moves that change state (R3): issue a wire word, or assert reset. Reading a register, its
third move, changes nothing (R38, R53). -/
inductive HostMove where
  | issue (w : Wire)
  | reset
deriving DecidableEq, Repr

/-- Why the machine stops. The block never stops: each of its errors is an error entry after which it
goes on (R134, R145), so there is no fault. -/
inductive Fault where
deriving DecidableEq, Repr

/-- What the model gives no meaning to. -/
inductive Refusal where
  /-- raised by the dispatch for an instruction without a meaning: none is left. Safe. -/
  | notModelled (mnemonic : String)
  /-- raised by the pseudo-operation `ENCODE p` for a payload of 2^32 bytes or more, to which the spec
  gives no meaning (R111). Safe. -/
  | payloadOutOfContract
deriving DecidableEq, Repr

/-- One instance of the block. `cfg` and `inbox` are the model's own fields: R15 names the parameters and
the host's next command as what the step relation takes beside the state (log entries 1 and 2). -/
structure State where
  /-- the parameters of R9 and R92, constant -/
  cfg : Config
  /-- the host's moves not yet taken, next first (R3, R15) -/
  inbox : List HostMove
  /-- `CB_OK` (R17) -/
  cbOk : Bool
  /-- `DIR` (R19) -/
  dir : Dir
  /-- `PHASE` (R20) -/
  phase : Phase
  /-- `ERR` (R22) -/
  err : ErrCode
  /-- `ACC` (R23) -/
  acc : BitVec 13
  /-- `NB` (R23) -/
  nb : BitVec 4
  /-- `LEN` (R25) -/
  len : Length
  /-- `CNT` (R26) -/
  cnt : Nat
  /-- `NTOK` (R27) -/
  ntok : Nat
  /-- `PAY` (R28) -/
  pay : Bytes
  /-- `PEND` (R29) -/
  pend : Bytes
  /-- `BUF` (R30) -/
  buf : Bytes
  /-- `TOKBUF` (R31) -/
  tokbuf : Bytes
  /-- `OUT` (R32) -/
  out : Bytes
  /-- `ETOK` (R33) -/
  etok : Bytes
  /-- `EPOS` (R33) -/
  epos : Nat
  /-- `EEXP` (R34) -/
  eexp : Length
  /-- `EHAVE` (R34) -/
  ehave : Length
  /-- `LKP` (R35) -/
  lkp : Bytes
deriving DecidableEq, Repr

/-- The block right after reset with the spec's tables (R40, R155): `CB_OK = 1`, `PHASE = IDLE`, every
other register 0 or empty; the host has made no move. -/
def State.reset : State :=
  { cfg := standardConfig
    inbox := []
    cbOk := true
    dir := .encode
    phase := .idle
    err := .none
    acc := 0#13
    nb := 0#4
    len := 0#32
    cnt := 0
    ntok := 0
    pay := []
    pend := []
    buf := []
    tokbuf := []
    out := []
    etok := []
    epos := 0
    eexp := 0#32
    ehave := 0#32
    lkp := [] }

end Sys2Proof.Machine
end

