-- ==== Sys2Proof/Machine/Flags.lean ====
section
/-! DEFINITION. The status codes and derived flags (spec 10_state R19, R20, R22, R37; 60_exceptions
R135). The block has no arithmetic condition codes (R37). -/

namespace Sys2Proof.Machine

/-- The 3-bit value of `PHASE` (R20). -/
def phaseCode : Phase → BitVec 3
  | .idle => 0#3
  | .enc => 1#3
  | .dec => 2#3
  | .done => 3#3
  | .err => 4#3
  | .fatal => 7#3

/-- The 1-bit value of `DIR` (R19). -/
def dirCode : Dir → BitVec 1
  | .encode => 0#1
  | .decode => 1#1

/-- The 4-bit value of `ERR` (R135). -/
def errCode : ErrCode → BitVec 4
  | .none => 0#4
  | .invalidInput => 1#4
  | .emptyInput => 2#4
  | .unknownToken => 3#4
  | .truncatedHeader => 4#4
  | .truncatedPayload => 5#4
  | .corruptPayload => 6#4
  | .illegalOp => 7#4
  | .capacityExceeded => 8#4
  | .codebookCollision => 9#4

/-- `code(E)`: what error entry writes into `ERR` (R135, R145). -/
def raiseCode : Raise → ErrCode
  | .invalidInput => .invalidInput
  | .emptyInput => .emptyInput
  | .unknownToken _ _ => .unknownToken
  | .truncatedHeader => .truncatedHeader
  | .truncatedPayload _ _ => .truncatedPayload
  | .corruptPayload => .corruptPayload
  | .illegalOp => .illegalOp
  | .capacityExceeded => .capacityExceeded

/-- The value error entry gives `ETOK`: recorded for `UnknownToken` only (R33, R135). -/
def raiseEtok : Raise → Bytes
  | .unknownToken t _ => t
  | .invalidInput => []
  | .emptyInput => []
  | .truncatedHeader => []
  | .truncatedPayload _ _ => []
  | .corruptPayload => []
  | .illegalOp => []
  | .capacityExceeded => []

/-- The value error entry gives `EPOS` (R33, R135). -/
def raiseEpos : Raise → Nat
  | .unknownToken _ n => n
  | .invalidInput => 0
  | .emptyInput => 0
  | .truncatedHeader => 0
  | .truncatedPayload _ _ => 0
  | .corruptPayload => 0
  | .illegalOp => 0
  | .capacityExceeded => 0

/-- The value error entry gives `EEXP`: recorded for `TruncatedPayload` only (R34, R135). -/
def raiseEexp : Raise → Length
  | .truncatedPayload n _ => n
  | .invalidInput => 0#32
  | .emptyInput => 0#32
  | .unknownToken _ _ => 0#32
  | .truncatedHeader => 0#32
  | .corruptPayload => 0#32
  | .illegalOp => 0#32
  | .capacityExceeded => 0#32

/-- The value error entry gives `EHAVE` (R34, R135). -/
def raiseEhave : Raise → Length
  | .truncatedPayload _ h => h
  | .invalidInput => 0#32
  | .emptyInput => 0#32
  | .unknownToken _ _ => 0#32
  | .truncatedHeader => 0#32
  | .corruptPayload => 0#32
  | .illegalOp => 0#32
  | .capacityExceeded => 0#32

/-- The output `done` (R37). -/
def doneFlag (s : State) : Bool := s.phase == .done

/-- The output `error` (R37). -/
def errorFlag (s : State) : Bool := s.phase == .err || s.phase == .fatal

end Sys2Proof.Machine
end

