-- ==== Sys2Proof/Machine/Ops.lean ====
section
/-! DEFINITION. The named operations every command is made of: error entry and `CLR`'s return from it
(spec 60_exceptions R145, R149), reset (70 R154), the dispatch by phase (44_control R130), the byte
spaces (20_memory R41) and the taking of the host's next move. -/

namespace Sys2Proof.Machine

/-- Error entry: everything of the call is cleared, the error and its information are recorded, and
`DIR`, `LKP` and `CB_OK` stay (R145). -/
def errorEntry (e : Raise) (s : State) : State :=
  { s with
    acc := 0#13, nb := 0#4, len := 0#32, cnt := 0, ntok := 0
    pay := [], pend := [], buf := [], tokbuf := [], out := []
    etok := raiseEtok e, epos := raiseEpos e, eexp := raiseEexp e, ehave := raiseEhave e
    err := raiseCode e, phase := .err }

/-- Every register of R19 to R35 at its reset value, `PHASE` at `IDLE`, `CB_OK` untouched (R40, R129): what
`CLR` does, and with it the return from an error (R149). -/
def clear (s : State) : State :=
  { s with
    dir := .encode, phase := .idle, err := .none
    acc := 0#13, nb := 0#4, len := 0#32, cnt := 0, ntok := 0
    pay := [], pend := [], buf := [], tokbuf := [], out := []
    etok := [], epos := 0, eexp := 0#32, ehave := 0#32, lkp := [] }

/-- `cb_init`: check the tables and set `CB_OK`, `PHASE` and `ERR` (R81, R144). -/
def cbInit (s : State) : State :=
  if tokensDistinct s.cfg then { s with cbOk := true, phase := .idle, err := .none }
  else { s with cbOk := false, phase := .fatal, err := .codebookCollision }

/-- Reset: registers to their reset values, then `cb_init` (R154). -/
def resetBlock (s : State) : State := cbInit (clear s)

/-- What a command leaves: the state its rule gives, or error entry in place of the rest of the command,
from the state before it (R145: "no effect of the failing command remains"). -/
def settle (s : State) : Except Raise State → State
  | .ok t => t
  | .error e => errorEntry e s

/-- A command that executes in every phase but `FATAL`, where it is discarded (R130 test 1, R131). -/
def inAnyPhase (body : State → State) (s : State) : State :=
  match s.phase with
  | .fatal => s
  | .idle => body s
  | .enc => body s
  | .dec => body s
  | .done => body s
  | .err => body s

/-- A command that is discarded in `FATAL` and in `ERR`, raises `IllegalOp` where it is not legal, and
otherwise executes (R130 tests 1, 3, 4 and 5, R131). -/
def whenLegal (legal : Bool) (body : State → Except Raise State) (s : State) : State :=
  match s.phase with
  | .fatal => s
  | .err => s
  | .idle => if legal then settle s (body s) else errorEntry .illegalOp s
  | .enc => if legal then settle s (body s) else errorEntry .illegalOp s
  | .dec => if legal then settle s (body s) else errorEntry .illegalOp s
  | .done => if legal then settle s (body s) else errorEntry .illegalOp s

/-- A reserved command word: discarded in `FATAL` and `ERR`, else `IllegalOp` (R75, R130 tests 1 and 2). -/
def reservedWord (s : State) : State := whenLegal false (fun t => .ok t) s

/-- `require c else E` (00_scope §5). -/
def requireElse (c : Bool) (e : Raise) : Except Raise Unit := if c then .ok () else .error e

/-- The byte spaces of R41. -/
inductive Space where
  | buf
  | pay
  | pend
  | tokbuf
  | out
  | etok
deriving DecidableEq, Repr

/-- The contents of a byte space (R41). -/
def spaceBytes (s : State) : Space → Bytes
  | .buf => s.buf
  | .pay => s.pay
  | .pend => s.pend
  | .tokbuf => s.tokbuf
  | .out => s.out
  | .etok => s.etok

/-- One byte of a byte space, if it has an element at that address (R41, R49). -/
def readByte (s : State) (sp : Space) (a : Nat) : Option Byte := (spaceBytes s sp)[a]?

/-- The state as the command sees it: the host's move has been taken from the inbox (R55). -/
def withInbox (moves : List HostMove) (s : State) : State := { s with inbox := moves }

/-- The host move that issues an instruction (R3). -/
def issueOf (i : Instr) : HostMove := .issue (encode i)

end Sys2Proof.Machine
end

