-- ==== Sys2Proof/Machine/Control.lean ====
section
/-! DEFINITION. The control and codebook commands (spec 44_control, 40_codebook R88): `NOP`, `CLR`,
`CBRD`. -/

namespace Sys2Proof.Machine

/-- `NOP`: nothing (R128). -/
def execNop (s : State) : Host.Outcome State Fault Refusal := .next (inAnyPhase (fun t => t) s)

/-- `CLR` (R129). -/
def execClr (s : State) : Host.Outcome State Fault Refusal := .next (inAnyPhase clear s)

/-- `LKP <- cb_fwd(v)` (R88). -/
def lookUp (v : Index) (s : State) : State := { s with lkp := cbFwd s.cfg v }

/-- `CBRD v` (R88). -/
def execCbrd (v : Index) (s : State) : Host.Outcome State Fault Refusal := .next (inAnyPhase (lookUp v) s)

end Sys2Proof.Machine
end

