-- ==== Sys2Proof/Machine/Operands.lean ====
section
/-! DEFINITION. Operand and field forms (spec 20_memory R45, 30_encoding R69; 00_scope §5): the
big-endian header image of a length and its inverse. -/

namespace Sys2Proof.Machine

/-- `L[31:24]` (R69). -/
def lenByte3 (L : Length) : Byte := L.extractLsb' 24 8

/-- `L[23:16]` (R69). -/
def lenByte2 (L : Length) : Byte := L.extractLsb' 16 8

/-- `L[15:8]` (R69). -/
def lenByte1 (L : Length) : Byte := L.extractLsb' 8 8

/-- `L[7:0]` (R69). -/
def lenByte0 (L : Length) : Byte := L.extractLsb' 0 8

/-- `be32_bytes(L)`: the frame's first four bytes, most significant first (R45, R63). -/
def be32Bytes (L : Length) : Bytes := [lenByte3 L, lenByte2 L, lenByte1 L, lenByte0 L]

/-- `be32(b0, b1, b2, b3)`: the length read from the header, `b0` most significant (R45, R69;
`b0*2^24 + b1*2^16 + b2*2^8 + b3`, the four fields not overlapping, 00_scope §5). -/
def be32 (b0 b1 b2 b3 : Byte) : Length :=
  (b0.setWidth 32 <<< 24) ||| (b1.setWidth 32 <<< 16) ||| (b2.setWidth 32 <<< 8) ||| b3.setWidth 32

end Sys2Proof.Machine
end

