-- ==== Sys2Proof/Machine/Regroup.lean ====
section
/-! DEFINITION. The regroup engine (spec 41_regroup): the accumulator `ACC` with its counter `NB`, and
the micro-operations `rg_clr`, `rg_push`, `rg_flush`, `rg_drop`. -/

namespace Sys2Proof.Machine

/-- `ACC` and `NB` (R23, R93). -/
structure Engine where
  acc : BitVec 13
  nb : BitVec 4
deriving DecidableEq, Repr

/-- The engine's registers in the state (R23). -/
def engineOf (s : State) : Engine := ⟨s.acc, s.nb⟩

/-- Write the engine's registers (R23). -/
def setEngine (e : Engine) (s : State) : State := { s with acc := e.acc, nb := e.nb }

/-- `rg_clr`, also what `rg_drop` leaves (R94, R97). -/
def emptyEngine : Engine := ⟨0#13, 0#4⟩

/-- `2^NB - 1` in the accumulator's width (R95). -/
def lowMask (nb : BitVec 4) : BitVec 13 := (1#13 <<< nb.toNat) - 1#13

/-- The shift-in of `rg_push`: `ACC <- (ACC << A) | x`, `NB <- NB + A` (R95). -/
def shiftIn (A : Nat) (x : BitVec A) (e : Engine) : Engine :=
  ⟨(e.acc <<< A) ||| x.setWidth 13, e.nb + BitVec.ofNat 4 A⟩

/-- The loop of `rg_push`: while `NB >= B`, take the `B` oldest buffered bits and keep the rest (R95). `NB`
has 4 bits and `B` is 6 or 8, so two rounds exhaust the loop (`drain_exits`). -/
def drain (B : Nat) : Nat → Engine → List (BitVec B) × Engine
  | 0, e => ([], e)
  | k + 1, e =>
    if B ≤ e.nb.toNat then
      let nb' := e.nb - BitVec.ofNat 4 B
      let rest := drain B k ⟨e.acc &&& lowMask nb', nb'⟩
      ((e.acc >>> nb'.toNat).setWidth B :: rest.1, rest.2)
    else ([], e)

/-- `rg_push(A, B, x)`: the extracted values, oldest first, and the engine after (R95). -/
def rgPush (A B : Nat) (x : BitVec A) (e : Engine) : List (BitVec B) × Engine := drain B 2 (shiftIn A x e)

/-- `rg_flush(B)`: the last partial group, left-justified and padded with zeros, if any bit is left (R96). -/
def rgFlush (B : Nat) (e : Engine) : List (BitVec B) :=
  if e.nb = 0#4 then [] else [(e.acc <<< (B - e.nb.toNat)).setWidth B]

/-- `rg_clr` on the state (R94). -/
def rgClr (s : State) : State := setEngine emptyEngine s

/-- `rg_drop` on the state: the buffered bits are discarded unread (R97, R126). -/
def rgDrop (s : State) : State := setEngine emptyEngine s

end Sys2Proof.Machine
end

