-- ==== Sys2Proof/Machine/Decoder.lean ====
section
/-! DEFINITION. The frame decoder (spec 43_decoder): `dec_sym`, `tk_close`, `hdr_read`, `pay_slice`,
`pay_check`, and the commands `DECB`, `DECP`, `DECE`. -/

namespace Sys2Proof.Machine

/-- Append decoded bytes to `BUF`, one at a time, while `CAP` allows (R113). -/
def appendBuf : Bytes → State → Except Raise State
  | [], s => .ok s
  | y :: ys, s =>
    if fits (s.buf.length + 1) s.cfg.cap then appendBuf ys { s with buf := s.buf ++ [y], cnt := s.cnt + 1 }
    else .error .capacityExceeded

/-- `dec_sym(v)`: push a 6-bit index and append the byte that comes out, if one does (R113). -/
def decSym (v : Index) (s : State) : Except Raise State :=
  let r := rgPush 6 8 v (engineOf s)
  appendBuf r.1 (setEngine r.2 s)

/-- `tk_close()`: look the open token up and take its index in, if one is open (R114). -/
def tkClose (s : State) : Except Raise State :=
  if s.tokbuf = [] then .ok s
  else
    match cbRev s.cfg s.tokbuf with
    | none => .error (.unknownToken s.tokbuf s.ntok)
    | some v => decSym v { s with tokbuf := [], ntok := s.ntok + 1 }

/-- `hdr_read()`: the declared length, written to `LEN` (R118). -/
def hdrRead (s : State) : Except Raise State :=
  match s.buf with
  | b0 :: b1 :: b2 :: b3 :: _ => .ok { s with len := be32 b0 b1 b2 b3 }
  | _ => .error .truncatedHeader

/-- `pay_slice(N)`: exactly `N` bytes after the header; bytes beyond are slack (R119, R127). -/
def paySlice (N : Length) (s : State) : Except Raise Bytes :=
  if N.toNat ≤ s.buf.length - hdrBytes then .ok ((s.buf.drop hdrBytes).take N.toNat)
  else .error (.truncatedPayload N (BitVec.ofNat 32 (s.buf.length - hdrBytes)))

/-- `pay_check(P)` (R120). -/
def payCheck (P : Bytes) (s : State) : Except Raise Unit := requireElse (utf8Ok s.cfg P) .corruptPayload

/-- The body of `DECB` (R94, R115). -/
def decbBody (s : State) : Except Raise State := .ok (rgClr { s with dir := .decode, phase := .dec })

/-- `DECB`, legal in `IDLE` only (R115, R131). -/
def execDecb (s : State) : Host.Outcome State Fault Refusal :=
  .next (whenLegal (s.phase == .idle) decbBody s)

/-- The body of `DECP b` (R116). -/
def decpBody (b : Byte) (s : State) : Except Raise State :=
  if s.cfg.ws8.contains b then tkClose s
  else if fits (s.tokbuf.length + 1) s.cfg.tokCap then .ok { s with tokbuf := s.tokbuf ++ [b] }
  else .error .capacityExceeded

/-- What `DECP b` leaves, legal in `DEC` only (R116, R131). -/
def putByte (b : Byte) (s : State) : State := whenLegal (s.phase == .dec) (decpBody b) s

/-- `DECP b` (R116). -/
def execDecp (b : Byte) (s : State) : Host.Outcome State Fault Refusal := .next (putByte b s)

/-- `DECP` of each byte in turn (R80). -/
def deliver (bs : Bytes) (s : State) : State := bs.foldl (fun t b => putByte b t) s

/-- Commit the payload: `OUT <- P`, `BUF` emptied, `DONE` (R117, R147). -/
def commitPayload (P : Bytes) (s : State) : State := { s with out := P, buf := [], phase := .done }

/-- The frame checks of `DECE`, in order, and the commit (R117 to R120). -/
def finishFrame (s : State) : Except Raise State := do
  let s ← hdrRead s
  let P ← paySlice s.len s
  payCheck P s
  .ok (commitPayload P s)

/-- The body of `DECE` (R117). -/
def deceBody (s : State) : Except Raise State := do
  let s ← tkClose s
  requireElse (decide (0 < s.ntok)) .emptyInput
  finishFrame (rgDrop s)

/-- `DECE`, legal in `DEC` only (R117, R131). -/
def execDece (s : State) : Host.Outcome State Fault Refusal :=
  .next (whenLegal (s.phase == .dec) deceBody s)

end Sys2Proof.Machine
end

