-- ==== Sys2Proof/Machine/Encoder.lean ====
section
/-! DEFINITION. The frame encoder (spec 42_encoder): `emit_token`, `enc_byte`, and the commands `ENCB`,
`ENCP`, `ENCE`. -/

namespace Sys2Proof.Machine

/-- `emit_token(v)`: a separator before every token but the first, then the token (R103). -/
def emitToken (v : Index) (s : State) : State :=
  { s with
    pend := s.pend ++ ((if s.ntok = 0 then [] else [sep]) ++ cbFwd s.cfg v)
    ntok := s.ntok + 1 }

/-- Emit groups in order (R104, R107). -/
def emitAll (gs : List Index) (s : State) : State := gs.foldl (fun t g => emitToken g t) s

/-- `enc_byte(x)`: push a frame byte and emit the groups that come out (R104). -/
def encByte (x : Byte) (s : State) : State :=
  let r := rgPush 8 6 x (engineOf s)
  emitAll r.1 (setEngine r.2 s)

/-- The body of `ENCB L` (R105). -/
def encbBody (L : Length) (s : State) : Except Raise State :=
  if fits (4 + L.toNat) s.cfg.cap then
    let s1 := rgClr { s with dir := .encode, len := L, cnt := 0, ntok := 0 }
    let s2 := encByte (lenByte0 L) (encByte (lenByte1 L) (encByte (lenByte2 L) (encByte (lenByte3 L) s1)))
    .ok { s2 with phase := .enc }
  else .error .capacityExceeded

/-- `ENCB L`, legal in `IDLE` only (R105, R131). -/
def execEncb (L : Length) (s : State) : Host.Outcome State Fault Refusal :=
  .next (whenLegal (s.phase == .idle) (encbBody L) s)

/-- The body of `ENCP b` (R106). -/
def encpBody (b : Byte) (s : State) : Except Raise State :=
  .ok (encByte b { s with pay := s.pay ++ [b], cnt := s.cnt + 1 })

/-- `ENCP b`, legal in `ENC` with `CNT < LEN` only (R106, R131). -/
def execEncp (b : Byte) (s : State) : Host.Outcome State Fault Refusal :=
  .next (whenLegal (s.phase == .enc && decide (s.cnt < s.len.toNat)) (encpBody b) s)

/-- Flush the last partial group (R96, R107). -/
def flushGroup (s : State) : State := emitAll (rgFlush 6 (engineOf s)) (setEngine emptyEngine s)

/-- Commit the token text: `OUT <- PEND`, the call's buffers emptied, `DONE` (R107, R147). -/
def commitText (s : State) : State := { s with out := s.pend, pend := [], pay := [], phase := .done }

/-- The body of `ENCE` (R107). -/
def enceBody (s : State) : Except Raise State :=
  if utf8Ok s.cfg s.pay then .ok (commitText (flushGroup s)) else .error .invalidInput

/-- `ENCE`, legal in `ENC` with `CNT = LEN` only (R107, R131). -/
def execEnce (s : State) : Host.Outcome State Fault Refusal :=
  .next (whenLegal (s.phase == .enc && decide (s.cnt = s.len.toNat)) enceBody s)

end Sys2Proof.Machine
end

