-- ==== Sys2Proof/Machine/Token.lean ====
section
/-! DEFINITION. The 64 tokens of the wire format as instructions (spec 40_codebook R85, 30_encoding
R67): delivering the token to the decoder, byte by byte, with the separator that ends it. -/

namespace Sys2Proof.Machine

/-- The bytes by which the host delivers one token of a token stream: the token's text and one
separator `SEP` after it (R66, R67; log entry 5). -/
def tokenBytes (c : Config) (v : Index) : Bytes := cbFwd c v ++ [sep]

/-- Deliver one token: `DECP` of each of its bytes, then `DECP 0x20` (R80, R116). -/
def deliverToken (v : Index) (s : State) : State := deliver (tokenBytes s.cfg v) s

/-- Token 0 (R85). -/
def execTok0 (s : State) : Host.Outcome State Fault Refusal := .next (deliverToken 0#6 s)

/-- Token 1 (R85). -/
def execTok1 (s : State) : Host.Outcome State Fault Refusal := .next (deliverToken 1#6 s)

/-- Token 2 (R85). -/
def execTok2 (s : State) : Host.Outcome State Fault Refusal := .next (deliverToken 2#6 s)

/-- Token 3 (R85). -/
def execTok3 (s : State) : Host.Outcome State Fault Refusal := .next (deliverToken 3#6 s)

/-- Token 4 (R85). -/
def execTok4 (s : State) : Host.Outcome State Fault Refusal := .next (deliverToken 4#6 s)

/-- Token 5 (R85). -/
def execTok5 (s : State) : Host.Outcome State Fault Refusal := .next (deliverToken 5#6 s)

/-- Token 6 (R85). -/
def execTok6 (s : State) : Host.Outcome State Fault Refusal := .next (deliverToken 6#6 s)

/-- Token 7 (R85). -/
def execTok7 (s : State) : Host.Outcome State Fault Refusal := .next (deliverToken 7#6 s)

/-- Token 8 (R85). -/
def execTok8 (s : State) : Host.Outcome State Fault Refusal := .next (deliverToken 8#6 s)

/-- Token 9 (R85). -/
def execTok9 (s : State) : Host.Outcome State Fault Refusal := .next (deliverToken 9#6 s)

/-- Token 10 (R85). -/
def execTok10 (s : State) : Host.Outcome State Fault Refusal := .next (deliverToken 10#6 s)

/-- Token 11 (R85). -/
def execTok11 (s : State) : Host.Outcome State Fault Refusal := .next (deliverToken 11#6 s)

/-- Token 12 (R85). -/
def execTok12 (s : State) : Host.Outcome State Fault Refusal := .next (deliverToken 12#6 s)

/-- Token 13 (R85). -/
def execTok13 (s : State) : Host.Outcome State Fault Refusal := .next (deliverToken 13#6 s)

/-- Token 14 (R85). -/
def execTok14 (s : State) : Host.Outcome State Fault Refusal := .next (deliverToken 14#6 s)

/-- Token 15 (R85). -/
def execTok15 (s : State) : Host.Outcome State Fault Refusal := .next (deliverToken 15#6 s)

/-- Token 16 (R85). -/
def execTok16 (s : State) : Host.Outcome State Fault Refusal := .next (deliverToken 16#6 s)

/-- Token 17 (R85). -/
def execTok17 (s : State) : Host.Outcome State Fault Refusal := .next (deliverToken 17#6 s)

/-- Token 18 (R85). -/
def execTok18 (s : State) : Host.Outcome State Fault Refusal := .next (deliverToken 18#6 s)

/-- Token 19 (R85). -/
def execTok19 (s : State) : Host.Outcome State Fault Refusal := .next (deliverToken 19#6 s)

/-- Token 20 (R85). -/
def execTok20 (s : State) : Host.Outcome State Fault Refusal := .next (deliverToken 20#6 s)

/-- Token 21 (R85). -/
def execTok21 (s : State) : Host.Outcome State Fault Refusal := .next (deliverToken 21#6 s)

/-- Token 22 (R85). -/
def execTok22 (s : State) : Host.Outcome State Fault Refusal := .next (deliverToken 22#6 s)

/-- Token 23 (R85). -/
def execTok23 (s : State) : Host.Outcome State Fault Refusal := .next (deliverToken 23#6 s)

/-- Token 24 (R85). -/
def execTok24 (s : State) : Host.Outcome State Fault Refusal := .next (deliverToken 24#6 s)

/-- Token 25 (R85). -/
def execTok25 (s : State) : Host.Outcome State Fault Refusal := .next (deliverToken 25#6 s)

/-- Token 26 (R85). -/
def execTok26 (s : State) : Host.Outcome State Fault Refusal := .next (deliverToken 26#6 s)

/-- Token 27 (R85). -/
def execTok27 (s : State) : Host.Outcome State Fault Refusal := .next (deliverToken 27#6 s)

/-- Token 28 (R85). -/
def execTok28 (s : State) : Host.Outcome State Fault Refusal := .next (deliverToken 28#6 s)

/-- Token 29 (R85). -/
def execTok29 (s : State) : Host.Outcome State Fault Refusal := .next (deliverToken 29#6 s)

/-- Token 30 (R85). -/
def execTok30 (s : State) : Host.Outcome State Fault Refusal := .next (deliverToken 30#6 s)

/-- Token 31 (R85). -/
def execTok31 (s : State) : Host.Outcome State Fault Refusal := .next (deliverToken 31#6 s)

/-- Token 32 (R85). -/
def execTok32 (s : State) : Host.Outcome State Fault Refusal := .next (deliverToken 32#6 s)

/-- Token 33 (R85). -/
def execTok33 (s : State) : Host.Outcome State Fault Refusal := .next (deliverToken 33#6 s)

/-- Token 34 (R85). -/
def execTok34 (s : State) : Host.Outcome State Fault Refusal := .next (deliverToken 34#6 s)

/-- Token 35 (R85). -/
def execTok35 (s : State) : Host.Outcome State Fault Refusal := .next (deliverToken 35#6 s)

/-- Token 36 (R85). -/
def execTok36 (s : State) : Host.Outcome State Fault Refusal := .next (deliverToken 36#6 s)

/-- Token 37 (R85). -/
def execTok37 (s : State) : Host.Outcome State Fault Refusal := .next (deliverToken 37#6 s)

/-- Token 38 (R85). -/
def execTok38 (s : State) : Host.Outcome State Fault Refusal := .next (deliverToken 38#6 s)

/-- Token 39 (R85). -/
def execTok39 (s : State) : Host.Outcome State Fault Refusal := .next (deliverToken 39#6 s)

/-- Token 40 (R85). -/
def execTok40 (s : State) : Host.Outcome State Fault Refusal := .next (deliverToken 40#6 s)

/-- Token 41 (R85). -/
def execTok41 (s : State) : Host.Outcome State Fault Refusal := .next (deliverToken 41#6 s)

/-- Token 42 (R85). -/
def execTok42 (s : State) : Host.Outcome State Fault Refusal := .next (deliverToken 42#6 s)

/-- Token 43 (R85). -/
def execTok43 (s : State) : Host.Outcome State Fault Refusal := .next (deliverToken 43#6 s)

/-- Token 44 (R85). -/
def execTok44 (s : State) : Host.Outcome State Fault Refusal := .next (deliverToken 44#6 s)

/-- Token 45 (R85). -/
def execTok45 (s : State) : Host.Outcome State Fault Refusal := .next (deliverToken 45#6 s)

/-- Token 46 (R85). -/
def execTok46 (s : State) : Host.Outcome State Fault Refusal := .next (deliverToken 46#6 s)

/-- Token 47 (R85). -/
def execTok47 (s : State) : Host.Outcome State Fault Refusal := .next (deliverToken 47#6 s)

/-- Token 48 (R85). -/
def execTok48 (s : State) : Host.Outcome State Fault Refusal := .next (deliverToken 48#6 s)

/-- Token 49 (R85). -/
def execTok49 (s : State) : Host.Outcome State Fault Refusal := .next (deliverToken 49#6 s)

/-- Token 50 (R85). -/
def execTok50 (s : State) : Host.Outcome State Fault Refusal := .next (deliverToken 50#6 s)

/-- Token 51 (R85). -/
def execTok51 (s : State) : Host.Outcome State Fault Refusal := .next (deliverToken 51#6 s)

/-- Token 52 (R85). -/
def execTok52 (s : State) : Host.Outcome State Fault Refusal := .next (deliverToken 52#6 s)

/-- Token 53 (R85). -/
def execTok53 (s : State) : Host.Outcome State Fault Refusal := .next (deliverToken 53#6 s)

/-- Token 54 (R85). -/
def execTok54 (s : State) : Host.Outcome State Fault Refusal := .next (deliverToken 54#6 s)

/-- Token 55 (R85). -/
def execTok55 (s : State) : Host.Outcome State Fault Refusal := .next (deliverToken 55#6 s)

/-- Token 56 (R85). -/
def execTok56 (s : State) : Host.Outcome State Fault Refusal := .next (deliverToken 56#6 s)

/-- Token 57 (R85). -/
def execTok57 (s : State) : Host.Outcome State Fault Refusal := .next (deliverToken 57#6 s)

/-- Token 58 (R85). -/
def execTok58 (s : State) : Host.Outcome State Fault Refusal := .next (deliverToken 58#6 s)

/-- Token 59 (R85). -/
def execTok59 (s : State) : Host.Outcome State Fault Refusal := .next (deliverToken 59#6 s)

/-- Token 60 (R85). -/
def execTok60 (s : State) : Host.Outcome State Fault Refusal := .next (deliverToken 60#6 s)

/-- Token 61 (R85). -/
def execTok61 (s : State) : Host.Outcome State Fault Refusal := .next (deliverToken 61#6 s)

/-- Token 62 (R85). -/
def execTok62 (s : State) : Host.Outcome State Fault Refusal := .next (deliverToken 62#6 s)

/-- Token 63 (R85). -/
def execTok63 (s : State) : Host.Outcome State Fault Refusal := .next (deliverToken 63#6 s)

end Sys2Proof.Machine
end

