-- ==== Sys2Proof/Machine/Dispatch.lean ====
section
/-! DEFINITION. One arm per instruction (spec 44_control R130, test 5: "execute the command's rule"). -/

namespace Sys2Proof.Machine

def exec (i : Instr) (s : State) : Host.Outcome State Fault Refusal :=
  match i with
  | .nop => Sys2Proof.Machine.execNop s
  | .clr => Sys2Proof.Machine.execClr s
  | .encb L => Sys2Proof.Machine.execEncb L s
  | .encp b => Sys2Proof.Machine.execEncp b s
  | .ence => Sys2Proof.Machine.execEnce s
  | .decb => Sys2Proof.Machine.execDecb s
  | .decp b => Sys2Proof.Machine.execDecp b s
  | .dece => Sys2Proof.Machine.execDece s
  | .cbrd v => Sys2Proof.Machine.execCbrd v s
  | .tok0 => Sys2Proof.Machine.execTok0 s
  | .tok1 => Sys2Proof.Machine.execTok1 s
  | .tok2 => Sys2Proof.Machine.execTok2 s
  | .tok3 => Sys2Proof.Machine.execTok3 s
  | .tok4 => Sys2Proof.Machine.execTok4 s
  | .tok5 => Sys2Proof.Machine.execTok5 s
  | .tok6 => Sys2Proof.Machine.execTok6 s
  | .tok7 => Sys2Proof.Machine.execTok7 s
  | .tok8 => Sys2Proof.Machine.execTok8 s
  | .tok9 => Sys2Proof.Machine.execTok9 s
  | .tok10 => Sys2Proof.Machine.execTok10 s
  | .tok11 => Sys2Proof.Machine.execTok11 s
  | .tok12 => Sys2Proof.Machine.execTok12 s
  | .tok13 => Sys2Proof.Machine.execTok13 s
  | .tok14 => Sys2Proof.Machine.execTok14 s
  | .tok15 => Sys2Proof.Machine.execTok15 s
  | .tok16 => Sys2Proof.Machine.execTok16 s
  | .tok17 => Sys2Proof.Machine.execTok17 s
  | .tok18 => Sys2Proof.Machine.execTok18 s
  | .tok19 => Sys2Proof.Machine.execTok19 s
  | .tok20 => Sys2Proof.Machine.execTok20 s
  | .tok21 => Sys2Proof.Machine.execTok21 s
  | .tok22 => Sys2Proof.Machine.execTok22 s
  | .tok23 => Sys2Proof.Machine.execTok23 s
  | .tok24 => Sys2Proof.Machine.execTok24 s
  | .tok25 => Sys2Proof.Machine.execTok25 s
  | .tok26 => Sys2Proof.Machine.execTok26 s
  | .tok27 => Sys2Proof.Machine.execTok27 s
  | .tok28 => Sys2Proof.Machine.execTok28 s
  | .tok29 => Sys2Proof.Machine.execTok29 s
  | .tok30 => Sys2Proof.Machine.execTok30 s
  | .tok31 => Sys2Proof.Machine.execTok31 s
  | .tok32 => Sys2Proof.Machine.execTok32 s
  | .tok33 => Sys2Proof.Machine.execTok33 s
  | .tok34 => Sys2Proof.Machine.execTok34 s
  | .tok35 => Sys2Proof.Machine.execTok35 s
  | .tok36 => Sys2Proof.Machine.execTok36 s
  | .tok37 => Sys2Proof.Machine.execTok37 s
  | .tok38 => Sys2Proof.Machine.execTok38 s
  | .tok39 => Sys2Proof.Machine.execTok39 s
  | .tok40 => Sys2Proof.Machine.execTok40 s
  | .tok41 => Sys2Proof.Machine.execTok41 s
  | .tok42 => Sys2Proof.Machine.execTok42 s
  | .tok43 => Sys2Proof.Machine.execTok43 s
  | .tok44 => Sys2Proof.Machine.execTok44 s
  | .tok45 => Sys2Proof.Machine.execTok45 s
  | .tok46 => Sys2Proof.Machine.execTok46 s
  | .tok47 => Sys2Proof.Machine.execTok47 s
  | .tok48 => Sys2Proof.Machine.execTok48 s
  | .tok49 => Sys2Proof.Machine.execTok49 s
  | .tok50 => Sys2Proof.Machine.execTok50 s
  | .tok51 => Sys2Proof.Machine.execTok51 s
  | .tok52 => Sys2Proof.Machine.execTok52 s
  | .tok53 => Sys2Proof.Machine.execTok53 s
  | .tok54 => Sys2Proof.Machine.execTok54 s
  | .tok55 => Sys2Proof.Machine.execTok55 s
  | .tok56 => Sys2Proof.Machine.execTok56 s
  | .tok57 => Sys2Proof.Machine.execTok57 s
  | .tok58 => Sys2Proof.Machine.execTok58 s
  | .tok59 => Sys2Proof.Machine.execTok59 s
  | .tok60 => Sys2Proof.Machine.execTok60 s
  | .tok61 => Sys2Proof.Machine.execTok61 s
  | .tok62 => Sys2Proof.Machine.execTok62 s
  | .tok63 => Sys2Proof.Machine.execTok63 s

end Sys2Proof.Machine
end

