-- ==== Sys2Proof/Machine/Step.lean ====
section
/-! DEFINITION. One step: the block takes the host's next move, to completion (spec 00_scope R3, R4;
20_memory R55; 44_control R130). -/

namespace Sys2Proof.Machine

/-- Take the host's next move: reset; or a wire word, executed if it decodes and treated as reserved if it
does not (R130). With no move the block waits, unchanged (R44). -/
def step (s : State) : Host.Outcome State Fault Refusal :=
  match s.inbox with
  | [] => .next s
  | .reset :: rest => .next (resetBlock (withInbox rest s))
  | .issue w :: rest =>
    match decode w with
    | .ok i => exec i (withInbox rest s)
    | .error _ => .next (reservedWord (withInbox rest s))

/-- The state in which the host issues that word of the opcode table next (log entry 2). -/
def State.withFetchWord (s : State) (nbits w : Nat) : State :=
  match tableWire nbits w with
  | some m => { s with inbox := .issue m :: s.inbox }
  | none => s

end Sys2Proof.Machine
end

