-- ==== Sys2Proof/Machine/Closed.lean ====
section
/-! DEFINITION. The closed forms of whole calls (spec 42_encoder R108, 43_decoder R121) and the bit-string
view of the formats (20_memory R46, 30_encoding R61 to R67, 41_regroup R98 and R100). No command calls
them: they are what statements compare the machine with. -/

namespace Sys2Proof.Machine

/-- `bits_msb(v, n)`: the bits of `v`, most significant first (00_scope §5). -/
def bitsMsb (n : Nat) (v : BitVec n) : List Bool := (List.range n).map (fun i => v.getLsbD (n - 1 - i))

/-- The bit string of a byte string (R46). -/
def byteBits (bs : Bytes) : List Bool := bs.flatMap (bitsMsb 8)

/-- The bit string of a group sequence (R46). -/
def groupBits (gs : List Index) : List Bool := gs.flatMap (bitsMsb 6)

/-- `Q`, the engine's buffered bits, oldest first (R23, R98). -/
def bitQueue (e : Engine) : List Bool :=
  (List.range e.nb.toNat).map (fun i => e.acc.getLsbD (e.nb.toNat - 1 - i))

/-- The number whose bits are the list, most significant first. -/
def valueMsb (bits : List Bool) : Nat := bits.foldl (fun a b => 2 * a + b.toNat) 0

/-- The first `count` consecutive `B`-bit slices of a bit string, as numbers (R100, R108, R121). -/
def slices (B count : Nat) (bits : List Bool) : List (BitVec B) :=
  (List.range count).map (fun j => BitVec.ofNat B (valueMsb ((bits.drop (B * j)).take B)))

/-- Push values in turn (R100). -/
def pushAll (A B : Nat) : List (BitVec A) → Engine → List (BitVec B) × Engine
  | [], e => ([], e)
  | x :: xs, e =>
    let r := rgPush A B x e
    let rest := pushAll A B xs r.2
    (r.1 ++ rest.1, rest.2)

/-- The whole-sequence 8-to-6 pass with its flush (R100). -/
def regroupOut (bs : Bytes) : List Index :=
  (pushAll 8 6 bs emptyEngine).1 ++ rgFlush 6 (pushAll 8 6 bs emptyEngine).2

/-- The whole-sequence 6-to-8 pass, leftover bits dropped (R100). -/
def regroupIn (gs : List Index) : Bytes := (pushAll 6 8 gs emptyEngine).1

/-- The frame of a payload: header, then payload (R63). -/
def frameOf (p : Bytes) : Bytes := be32Bytes (BitVec.ofNat 32 p.length) ++ p

/-- `T = ceil(8*(4+N)/6)` for a payload of `N` bytes (R64, R109). -/
def tokenCount (N : Nat) : Nat := (8 * (4 + N) + 5) / 6

/-- The groups `g[0] .. g[T-1]` of a payload's frame, the last one padded with zeros (R64, R108). -/
def groupsOf (p : Bytes) : List Index :=
  let bits := byteBits (frameOf p)
  let T := tokenCount p.length
  slices 6 T (bits ++ List.replicate (6 * T - bits.length) false)

/-- Token text: the tokens of the groups with one separator between neighbours (R66). -/
def joinTokens (c : Config) (gs : List Index) : Bytes := List.intercalate [sep] (gs.map (cbFwd c))

/-- The text that emitting groups adds after `n` tokens of a call: a separator before every token but the
call's first (R103). -/
def textAfter (c : Config) (n : Nat) (gs : List Index) : Bytes :=
  if n = 0 then joinTokens c gs else gs.flatMap (fun g => sep :: cbFwd c g)

/-- `ENCODE p`, closed form (R108). -/
def encodeClosed (c : Config) (p : Bytes) : Except Raise Bytes :=
  if utf8Ok c p then .ok (joinTokens c (groupsOf p)) else .error .invalidInput

/-- The maximal non-empty runs of non-separator bytes, in order (R67, R121). -/
def tokensOf (c : Config) (text : Bytes) : List Bytes :=
  (text.splitOnP (fun b => c.ws8.contains b)).filter (fun t => !t.isEmpty)

/-- Look tokens up in order, the first having position `k`; stop at the first miss (R121). -/
def lookUpAll (c : Config) : Nat → List Bytes → Except Raise (List Index)
  | _, [] => .ok []
  | k, t :: ts =>
    match cbRev c t with
    | none => .error (.unknownToken t k)
    | some v =>
      match lookUpAll c (k + 1) ts with
      | .error e => .error e
      | .ok vs => .ok (v :: vs)

/-- The whole bytes of a group sequence: `floor(6T/8)` of them, leftover bits dropped (R51, R121). -/
def wholeBytes (vs : List Index) : Bytes := slices 8 (6 * vs.length / 8) (groupBits vs)

/-- The declared length of a decoded buffer of at least 4 bytes (R43, R121). -/
def headerOf (buf : Bytes) : Length := be32 (buf.getD 0 0#8) (buf.getD 1 0#8) (buf.getD 2 0#8) (buf.getD 3 0#8)

/-- The checks `DECODE` makes of the decoded buffer, in order, and the payload (R121). -/
def frameClosed (c : Config) (buf : Bytes) : Except Raise Bytes :=
  if buf.length < hdrBytes then .error .truncatedHeader
  else if buf.length - hdrBytes < (headerOf buf).toNat then
    .error (.truncatedPayload (headerOf buf) (BitVec.ofNat 32 (buf.length - hdrBytes)))
  else if utf8Ok c ((buf.drop hdrBytes).take (headerOf buf).toNat) then
    .ok ((buf.drop hdrBytes).take (headerOf buf).toNat)
  else .error .corruptPayload

/-- What a successful or failing `DECODE` answers beside its phase: the indices and the payload, or the
error (R121). -/
def decodeClosed (c : Config) (text : Bytes) : Except Raise (List Index × Bytes) :=
  if tokensOf c text = [] then .error .emptyInput
  else
    match lookUpAll c 0 (tokensOf c text) with
    | .error e => .error e
    | .ok vs =>
      match frameClosed c (wholeBytes vs) with
      | .error e => .error e
      | .ok P => .ok (vs, P)

end Sys2Proof.Machine
end

