-- ==== Sys2Proof/Machine/Calls.lean ====
section
/-! DEFINITION. The pseudo-operations `ENCODE p` and `DECODE s` (spec 30_encoding R80) as the host issues
them: a queue of commands and the run that takes them all. -/

namespace Sys2Proof.Machine

/-- The commands of `ENCODE p` (R80). -/
def encodeCommands (p : Bytes) : List Instr :=
  .encb (BitVec.ofNat 32 p.length) :: (p.map Instr.encp ++ [.ence])

/-- The commands of `DECODE s` (R80). -/
def decodeCommands (text : Bytes) : List Instr := .decb :: (text.map Instr.decp ++ [.dece])

/-- Run exactly the commands, issued before whatever the host does next. -/
def runCommands (is : List Instr) (s : State) : Host.Outcome State Fault Refusal :=
  Host.Core.run Sys2Proof.core is.length (withInbox (is.map issueOf ++ s.inbox) s)

/-- `ENCODE p` (R80): a payload of 2^32 bytes or more has no expansion and is refused (R111). -/
def encodeCall (p : Bytes) (s : State) : Host.Outcome State Fault Refusal :=
  if p.length < 2 ^ 32 then runCommands (encodeCommands p) s else .refused .payloadOutOfContract

/-- `DECODE s` (R80). -/
def decodeCall (text : Bytes) (s : State) : Host.Outcome State Fault Refusal :=
  runCommands (decodeCommands text) s

end Sys2Proof.Machine
end

