-- ==== Sys2Proof/Machine/HostView.lean ====
section
/-! DEFINITION. What the host can read (spec 10_state R38, R39; 44_control R133): functions of the state,
so that a read has no side effect (20_memory R53). -/

namespace Sys2Proof.Machine

/-- The host-visible registers, in their widths (R38). -/
structure HostView where
  phase : BitVec 3
  dir : BitVec 1
  err : BitVec 4
  cbOk : Bool
  len : Length
  cnt : Nat
  ntok : Nat
  etok : Bytes
  epos : Nat
  eexp : Length
  ehave : Length
  lkp : Bytes
  out : Bytes
  done : Bool
  error : Bool
deriving DecidableEq, Repr

/-- Read every visible register (R37, R38). -/
def hostView (s : State) : HostView :=
  { phase := phaseCode s.phase
    dir := dirCode s.dir
    err := errCode s.err
    cbOk := s.cbOk
    len := s.len
    cnt := s.cnt
    ntok := s.ntok
    etok := s.etok
    epos := s.epos
    eexp := s.eexp
    ehave := s.ehave
    lkp := s.lkp
    out := s.out
    done := doneFlag s
    error := errorFlag s }

/-- The port `out_data`: `OUT[out_addr]`, else 0 (R39). -/
def outData (s : State) (a : Nat) : Byte := s.out.getD a 0#8

/-- The port `etok_data`: `ETOK[etok_addr]`, else 0 (R39). -/
def etokData (s : State) (a : Nat) : Byte := s.etok.getD a 0#8

/-- The port `lkp_len` (R35, R39). -/
def lkpLen (s : State) : BitVec 4 := BitVec.ofNat 4 s.lkp.length

/-- The port `lkp_data`: byte `i` of `LKP` in bits `71-8i` down to `64-8i`, unused bytes 0 (R39). -/
def lkpData (s : State) : BitVec 72 :=
  (List.range 9).foldl (fun d i => d ||| ((s.lkp.getD i 0#8).setWidth 72 <<< (64 - 8 * i))) 0#72

end Sys2Proof.Machine
end

