-- ==== Sys2Proof/Machine/Run.lean ====
section
/-! DEFINITION. A run, its end and its result (spec 00_scope R5, R13): one encode call or one decode call, from
the `ENCB` or `DECB` that the host issues to the first state in which the call is over. -/

namespace Sys2Proof.Machine

/-- The phases a run can end in: `DONE`, `ERR` or `FATAL` (R5). -/
def endPhase : Phase → Bool
  | .idle => false
  | .enc => false
  | .dec => false
  | .done => true
  | .err => true
  | .fatal => true

/-- The phases of a call in progress, `ENC` or `DEC`: a run that stands in one has not ended (R5, R20). -/
def openPhase : Phase → Bool
  | .idle => false
  | .enc => true
  | .dec => true
  | .done => false
  | .err => false
  | .fatal => false

/-- The host's move opens a run: it issues a word of `ENCB`, whose every operand is legal, or the word of
`DECB`, whatever the phase (R5, R74; log entry 14). -/
def opensRun (m : HostMove) : Bool :=
  match m with
  | .reset => false
  | .issue (.tok _) => false
  | .issue (.cmd w) => cmdOp w == opEncb || w == cmdOf opDecb 0#32

/-- How a run stands in a state that it has reached. -/
inductive RunFate where
  /-- the end of the run, and the state it ends in (R5) -/
  | ended (s : State)
  /-- the host has abandoned the call, by `CLR` or by reset, in phase `ENC` or `DEC` (R5, R154) -/
  | abandoned
  /-- the call is still open: the host has made no move that ends it or abandons it -/
  | unfinished
deriving DecidableEq, Repr

/-- How a run stands in the state `s`, when every state before it was one of an open call (R5). -/
def fateAt (s : State) : RunFate :=
  if endPhase s.phase then .ended s else if openPhase s.phase then .unfinished else .abandoned

/-- Follow an opened run for at most that many of the host's moves: it stands where it first ends or is
abandoned. No step is refused (60_exceptions R134), so the last arm is never taken. -/
def followRun : Nat → State → RunFate
  | 0, s => fateAt s
  | k + 1, s =>
    if openPhase s.phase then
      match step s with
      | .next t => followRun k t
      | .fault r => nomatch r
      | .refused _ => .abandoned
    else fateAt s

/-- The run that the host's next move opens, followed through all the moves it has made; `none` where that
move opens no run (R5). -/
def runOf (s : State) : Option RunFate :=
  match s.inbox with
  | [] => none
  | m :: rest =>
    if opensRun m then
      match step s with
      | .next t => some (followRun rest.length t)
      | .fault r => nomatch r
      | .refused _ => some .abandoned
    else none

/-- The result of a run (R5). -/
inductive RunResult where
  /-- the byte sequence `OUT` of phase `DONE` -/
  | output (out : Bytes)
  /-- the error code `ERR` of phase `ERR` with its information registers -/
  | failure (err : ErrCode) (etok : Bytes) (epos : Nat) (eexp ehave : Length)
deriving DecidableEq, Repr

/-- The result that a run ending in the state `s` has: in `DONE` the output, in `ERR` the error report, in any
other phase none (R5). -/
def resultIn (s : State) : Option RunResult :=
  match s.phase with
  | .idle => none
  | .enc => none
  | .dec => none
  | .done => some (.output s.out)
  | .err => some (.failure s.err s.etok s.epos s.eexp s.ehave)
  | .fatal => none

/-- The result of a run: that of its end; a run abandoned or still open has none (R5). -/
def resultOf : RunFate → Option RunResult
  | .ended s => resultIn s
  | .abandoned => none
  | .unfinished => none

/-- The result of the run that the host's next move opens, if it opens one that has a result (R5). -/
def runResult (s : State) : Option RunResult := (runOf s).bind resultOf

end Sys2Proof.Machine
end

