-- ==== Sys2Proof/Safety.lean ====
section
/-! DEFINITION. What holds of every reachable state (spec 10_state R20 to R35, 41_regroup R99), in the terms
the statements use. -/

namespace Sys2Proof

/-- The configuration constraints of R9 and R41. -/
def Config.Admissible (c : Config) : Prop := c.admissible = true

namespace Machine

/-- No error of the protocol or of the codebook, only WW's own results (R134). -/
def noProtocolError (s : State) : Prop :=
  s.err ≠ .illegalOp ∧ s.err ≠ .capacityExceeded ∧ s.err ≠ .codebookCollision

/-- All transient registers but `LKP` at their reset values, as `PHASE = IDLE` has them (R20, R40). -/
structure Quiet (s : State) : Prop where
  dir : s.dir = .encode
  err : s.err = .none
  acc : s.acc = 0#13
  nb : s.nb = 0#4
  len : s.len = 0#32
  cnt : s.cnt = 0
  ntok : s.ntok = 0
  pay : s.pay = []
  pend : s.pend = []
  buf : s.buf = []
  tokbuf : s.tokbuf = []
  out : s.out = []
  etok : s.etok = []
  epos : s.epos = 0
  eexp : s.eexp = 0#32
  ehave : s.ehave = 0#32

/-- The open encode call (R24, R26, R28, R99). -/
structure EncOpen (s : State) : Prop where
  dir : s.dir = .encode
  fitsCap : fits (4 + s.len.toNat) s.cfg.cap = true
  cntLe : s.cnt ≤ s.len.toNat
  payLen : s.pay.length = s.cnt
  nb : s.nb.toNat = 8 * (4 + s.cnt) % 6
  ntok : s.ntok = 8 * (4 + s.cnt) / 6
  buf : s.buf = []
  tokbuf : s.tokbuf = []

/-- The open decode call (R24, R26, R30, R31, R99). -/
structure DecOpen (s : State) : Prop where
  dir : s.dir = .decode
  len : s.len = 0#32
  cnt : s.cnt = s.buf.length
  bufLen : s.buf.length = 6 * s.ntok / 8
  nb : s.nb.toNat = 6 * s.ntok % 8
  fitsCap : fits s.buf.length s.cfg.cap = true
  tokFits : fits s.tokbuf.length s.cfg.tokCap = true
  tokApart : ∀ b ∈ s.tokbuf, s.cfg.ws8.contains b = false
  pay : s.pay = []
  pend : s.pend = []

/-- No call is open: the engine and the call's buffers are empty (R24, R28 to R31). -/
structure Closed (s : State) : Prop where
  acc : s.acc = 0#13
  nb : s.nb = 0#4
  pay : s.pay = []
  pend : s.pend = []
  buf : s.buf = []
  tokbuf : s.tokbuf = []

/-- A finished call's report (R26, R27, R32, R107, R117). -/
structure DoneReport (s : State) : Prop where
  encode : s.dir = .encode → s.cnt = s.len.toNat ∧ s.ntok = tokenCount s.len.toNat
  decode : s.dir = .decode → s.out.length = s.len.toNat ∧ 4 + s.len.toNat ≤ s.cnt ∧ s.cnt = 6 * s.ntok / 8

/-- The registers' invariant: what R17, R20, R22, R24, R26 to R35 and R99 say of every reachable state. -/
structure RegInv (s : State) : Prop where
  cfg : s.cfg.Admissible
  cbOk : s.cbOk = tokensDistinct s.cfg
  fatal : s.phase = .fatal ↔ s.cbOk = false
  errPhase : s.err ≠ .none ↔ s.phase = .err ∨ s.phase = .fatal
  collision : s.err = .codebookCollision ↔ s.phase = .fatal
  accLt : s.acc.toNat < 2 ^ s.nb.toNat
  idle : s.phase = .idle → Quiet s
  enc : s.phase = .enc → EncOpen s
  dec : s.phase = .dec → DecOpen s
  closed : s.phase ≠ .enc → s.phase ≠ .dec → Closed s
  done : s.phase = .done → DoneReport s
  out : s.phase ≠ .done → s.out = []
  etok : s.err ≠ .unknownToken → s.etok = [] ∧ s.epos = 0
  ehave : s.err ≠ .truncatedPayload → s.eexp = 0#32 ∧ s.ehave = 0#32
  lkp : s.lkp.length ≤ 9

/-- The open encode call's text and buffered bits are the bits of the frame so far: the header of `LEN` and
the payload bytes accepted (R46, R66, R98). -/
def EncTrace (s : State) : Prop :=
  ∃ gs : List Index, gs.length = s.ntok ∧ s.pend = joinTokens s.cfg gs ∧
    groupBits gs ++ bitQueue (engineOf s) = byteBits (be32Bytes s.len ++ s.pay)

/-- The open decode call's bytes and buffered bits are the bits of those indices, one for each token
accepted (R46, R98). -/
abbrev DecTraceOf (vs : List Index) (s : State) : Prop :=
  vs.length = s.ntok ∧ groupBits vs = byteBits s.buf ++ bitQueue (engineOf s)

/-- The open decode call's bytes and buffered bits are the bits of as many indices as were accepted. Which
indices those are is a matter of the steps taken: see `TakesIn`. -/
def DecTrace (s : State) : Prop := ∃ vs : List Index, DecTraceOf vs s

/-- The indices that an instruction taken in `DEC` in the state `s` takes in where it raises no error, named
by the codebook tokens whose bytes have arrived: none, or the one of the token that it closes (R114, R116,
R117; for the token rows log entry 5). -/
inductive TakesIn (s : State) : Instr → List Index → Prop where
  | nop : TakesIn s .nop []
  | cbrd (v : Index) : TakesIn s (.cbrd v) []
  /-- a byte of an open token -/
  | byte (b : Byte) : b ∉ s.cfg.ws8 → TakesIn s (.decp b) []
  /-- a separator with no token open -/
  | separator (b : Byte) : b ∈ s.cfg.ws8 → s.tokbuf = [] → TakesIn s (.decp b) []
  /-- a separator that closes the token of index `v` -/
  | close (b : Byte) (v : Index) : b ∈ s.cfg.ws8 → cbFwd s.cfg v = s.tokbuf → TakesIn s (.decp b) [v]
  /-- a delivered token, which ends the open one if there is one -/
  | token (i : Instr) (u v : Index) :
      encode i = .tok u → cbFwd s.cfg v = s.tokbuf ++ cbFwd s.cfg u → TakesIn s i [v]
  /-- the end of the frame with no token open -/
  | finish : s.tokbuf = [] → TakesIn s .dece []
  /-- the end of the frame, which closes the token of index `v` -/
  | finishClose (v : Index) : cbFwd s.cfg v = s.tokbuf → TakesIn s .dece [v]

/-- What a finished encode call shows is the closed form of some payload of `LEN` bytes (R108). -/
def EncResult (s : State) : Prop :=
  ∃ p : Bytes, p.length = s.len.toNat ∧ encodeClosed s.cfg p = .ok s.out

/-- What a finished decode call shows is the payload of the frame that those indices carry, one for each
token accepted (R121). -/
abbrev DecResultOf (vs : List Index) (s : State) : Prop :=
  vs.length = s.ntok ∧ s.cnt = (wholeBytes vs).length ∧ s.len = headerOf (wholeBytes vs) ∧
    frameClosed s.cfg (wholeBytes vs) = .ok s.out

/-- What a finished decode call shows is the payload of a frame that some `NTOK` indices carry (R121). -/
def DecResult (s : State) : Prop := ∃ vs : List Index, DecResultOf vs s

/-- The data invariant: the formats hold at every point of a call (R46, R108, R121). -/
structure DataInv (s : State) : Prop where
  enc : s.phase = .enc → EncTrace s
  dec : s.phase = .dec → DecTrace s
  doneEnc : s.phase = .done → s.dir = .encode → EncResult s
  doneDec : s.phase = .done → s.dir = .decode → DecResult s

/-- The phases a command legal in one phase only may leave: from that phase the listed ones, from `FATAL`
none other, from any other phase `ERR` (R132). -/
def callMay (legal : Phase) (targets : List Phase) (p q : Phase) : Bool :=
  if p = legal then targets.contains q else if p = .fatal then decide (q = .fatal) else decide (q = .err)

/-- After some positive number of steps `s` comes to `t`, and every state between them is one of an open call:
phase `ENC` or `DEC` (R5). -/
def ReachesThroughCall (s t : State) : Prop :=
  ∃ k : Nat, 0 < k ∧ Host.Core.run Sys2Proof.core k s = .next t ∧
    ∀ (j : Nat) (u : State), 0 < j → j < k → Host.Core.run Sys2Proof.core j s = .next u →
      u.phase = .enc ∨ u.phase = .dec

end Machine

end Sys2Proof
end

