-- ==== Sys2Proof/Certificates/Slice0/Obligations.lean ====
section
/-! DEFINITION. The statements for the provers: what the numbered rules of the spec say of this model. -/

open Sys2Proof Sys2Proof.Machine

/-- A wire word decodes to an instruction exactly when it is the encoding of that instruction: every operand of
every command at every value, and all 64 tokens, survive the round trip, and no other word decodes to the
instruction. -/
def Obligations.DecodeEncodeAgree : Prop :=
  ∀ (m : Wire) (i : Instr), decode m = .ok i ↔ encode i = m

/-- Every word matching a row of the opcode map decodes to the command that row names; every word that decodes
matches a row, names that row's command, and carries arg as its operand. -/
def Obligations.OpcodeMapDecidesDecoding : Prop :=
  ∀ w : CmdWord,
    (∀ r ∈ cmdRows, w &&& r.mask = r.pattern →
      ∃ i, decode (.cmd w) = .ok i ∧ commandName i = some r.mnemonic) ∧
    (∀ i, decode (.cmd w) = .ok i →
      commandArg i = w.extractLsb' 0 32 ∧
      ∃ r ∈ cmdRows, w &&& r.mask = r.pattern ∧ commandName i = some r.mnemonic)

/-- When the host issues a 40-bit word that matches no row of the opcode map, the step leaves the error entry
state of IllegalOp, except in phases ERR and FATAL, where the word is taken from the inbox (log entry 2) and
nothing else changes. Only the all-zero word executes as NOP. -/
def Obligations.ReservedWordRaisesIllegalOp : Prop :=
  (∀ (s : State) (w : CmdWord) (rest : List HostMove), s.inbox = .issue (.cmd w) :: rest →
    (∀ r ∈ cmdRows, w &&& r.mask ≠ r.pattern) →
    step s = .next (if s.phase = .err ∨ s.phase = .fatal then withInbox rest s
      else errorEntry .illegalOp (withInbox rest s))) ∧
  (∀ w : CmdWord, decode (.cmd w) = .ok .nop ↔ w = 0#40)

/-- One word of every command and three token indices decode to their instruction, and two reserved words are
refused by name. A sanity statement on fixed words. -/
def Obligations.SampleWordsDecode : Prop :=
  decode (.cmd 0x0000000000#40) = .ok .nop ∧
  decode (.cmd 0x0100000000#40) = .ok .clr ∧
  decode (.cmd 0x1012345678#40) = .ok (.encb 0x12345678#32) ∧
  decode (.cmd 0x1100000041#40) = .ok (.encp 0x41#8) ∧
  decode (.cmd 0x1200000000#40) = .ok .ence ∧
  decode (.cmd 0x2000000000#40) = .ok .decb ∧
  decode (.cmd 0x21000000E6#40) = .ok (.decp 0xE6#8) ∧
  decode (.cmd 0x2200000000#40) = .ok .dece ∧
  decode (.cmd 0x3000000014#40) = .ok (.cbrd 20#6) ∧
  decode (.tok 0b000000#6) = .ok .tok0 ∧
  decode (.tok 0b010100#6) = .ok .tok20 ∧
  decode (.tok 0b111111#6) = .ok .tok63 ∧
  decode (.cmd 0x4000000000#40) = .error (.reservedOp 0x40#8) ∧
  decode (.cmd 0x3000000040#40) = .error (.reservedArg 0x30#8)

/-- When the host's next move issues a wire word that decodes to an instruction, the step is exec of that
instruction at the state with the move taken from the inbox. The inbox is the model's own field (log entry 2). -/
def Obligations.StepRunsTheDecodedInstruction : Prop :=
  ∀ (s : State) (w : Wire) (rest : List HostMove) (i : Instr), s.inbox = .issue w :: rest → decode w = .ok i →
    step s = exec i { s with inbox := rest }

/-- A step with an empty inbox leaves the state as it is. That waiting is a step of its own is the model's choice
(log entry 2). -/
def Obligations.StepWaitsForTheHost : Prop :=
  ∀ s : State, s.inbox = [] → step s = .next s

/-- From any phase, asserting reset leaves every register of R19 to R35 at its reset value, and CB_OK, PHASE and
ERR as the codebook check decides: 1, IDLE, 0 if the 64 tokens are pairwise distinct, else 0, FATAL, 9.
Parameters and the host's later moves, the model's own fields (log entries 1 and 2), are untouched. -/
def Obligations.ResetRunsTheCodebookCheck : Prop :=
  ∀ (s : State) (rest : List HostMove), s.inbox = .reset :: rest →
    ((∀ v w : Index, cbFwd s.cfg v = cbFwd s.cfg w → v = w) →
      step s = .next { State.reset with cfg := s.cfg, inbox := rest }) ∧
    ((∃ v w : Index, v ≠ w ∧ cbFwd s.cfg v = cbFwd s.cfg w) →
      step s = .next { State.reset with
        cfg := s.cfg, inbox := rest, cbOk := false, phase := .fatal, err := .codebookCollision })

/-- The fields of the reset state one by one; the spec's tables pass the codebook check; CLR in any phase but
FATAL, with CB_OK = 1, leaves the same register values. -/
def Obligations.ResetStateIsExactly : Prop :=
  (State.reset.cbOk = true ∧ State.reset.phase = .idle ∧ State.reset.dir = .encode ∧ State.reset.err = .none ∧
    State.reset.acc = 0#13 ∧ State.reset.nb = 0#4 ∧ State.reset.len = 0#32 ∧ State.reset.cnt = 0 ∧
    State.reset.ntok = 0 ∧ State.reset.pay = [] ∧ State.reset.pend = [] ∧ State.reset.buf = [] ∧
    State.reset.tokbuf = [] ∧ State.reset.out = [] ∧ State.reset.etok = [] ∧ State.reset.epos = 0 ∧
    State.reset.eexp = 0#32 ∧ State.reset.ehave = 0#32 ∧ State.reset.lkp = []) ∧
  State.reset.cfg.core = coreTable ∧ State.reset.cfg.tone = toneTable ∧
  tokensDistinct State.reset.cfg = true ∧
  (∀ s : State, s.phase ≠ .fatal → s.cbOk = true →
    exec .clr s = .next { State.reset with cfg := s.cfg, inbox := s.inbox })

/-- In every phase, exec of NOP answers the state itself as the next state. -/
def Obligations.NopChangesNothing : Prop :=
  ∀ s : State, exec .nop s = .next s

/-- In every phase but FATAL, CLR answers the reset values in every register but CB_OK, with the codebook and
parameters untouched: it releases a result, acknowledges an error, aborts a call. In FATAL nothing changes. -/
def Obligations.ClrRestoresResetValues : Prop :=
  (∀ s : State, s.phase ≠ .fatal →
    exec .clr s = .next { State.reset with cfg := s.cfg, inbox := s.inbox, cbOk := s.cbOk }) ∧
  (∀ s : State, s.phase = .fatal → exec .clr s = .next s)

/-- For each of the nine commands and for reserved words, in each of the six phases: execution of the command's
rule, the error entry of IllegalOp, or the state unchanged, as the table has it (a word is issued by way of
the inbox, log entry 2); ENCP executes in ENC only with CNT < LEN and ENCE only with CNT = LEN. -/
def Obligations.LegalityByPhase : Prop :=
  ∀ s : State,
    (exec .nop s = .next s) ∧
    (exec .clr s = .next (if s.phase = .fatal then s else clear s)) ∧
    (∀ v, exec (.cbrd v) s = .next (if s.phase = .fatal then s else lookUp v s)) ∧
    (∀ L, exec (.encb L) s = .next (match s.phase with
      | .idle => settle s (encbBody L s)
      | .enc | .dec | .done => errorEntry .illegalOp s
      | .err | .fatal => s)) ∧
    (∀ b, exec (.encp b) s = .next (match s.phase with
      | .enc => if s.cnt < s.len.toNat then settle s (encpBody b s) else errorEntry .illegalOp s
      | .idle | .dec | .done => errorEntry .illegalOp s
      | .err | .fatal => s)) ∧
    (exec .ence s = .next (match s.phase with
      | .enc => if s.cnt = s.len.toNat then settle s (enceBody s) else errorEntry .illegalOp s
      | .idle | .dec | .done => errorEntry .illegalOp s
      | .err | .fatal => s)) ∧
    (exec .decb s = .next (match s.phase with
      | .idle => settle s (decbBody s)
      | .enc | .dec | .done => errorEntry .illegalOp s
      | .err | .fatal => s)) ∧
    (∀ b, exec (.decp b) s = .next (match s.phase with
      | .dec => settle s (decpBody b s)
      | .idle | .enc | .done => errorEntry .illegalOp s
      | .err | .fatal => s)) ∧
    (exec .dece s = .next (match s.phase with
      | .dec => settle s (deceBody s)
      | .idle | .enc | .done => errorEntry .illegalOp s
      | .err | .fatal => s)) ∧
    (∀ (w : CmdWord) (rest : List HostMove) (e : DecodeError), s.inbox = .issue (.cmd w) :: rest →
      decode (.cmd w) = .error e →
      step s = .next (match s.phase with
        | .idle | .enc | .dec | .done => errorEntry .illegalOp (withInbox rest s)
        | .err | .fatal => withInbox rest s))

/-- For every instruction and state, if exec answers a next state then its phase is one the transition table gives
for that instruction and phase; and every issued wire word leaves FATAL in FATAL. A token counts as DECP of
its bytes (log entry 5). -/
def Obligations.PhaseTransitionsAreTheTable : Prop :=
  (∀ s t : State, exec .nop s = .next t → t.phase = s.phase) ∧
  (∀ (v : Index) (s t : State), exec (.cbrd v) s = .next t → t.phase = s.phase) ∧
  (∀ s t : State, exec .clr s = .next t → t.phase = if s.phase = .fatal then .fatal else .idle) ∧
  (∀ (L : Length) (s t : State), exec (.encb L) s = .next t → callMay .idle [.enc, .err] s.phase t.phase = true) ∧
  (∀ (b : Byte) (s t : State), exec (.encp b) s = .next t → callMay .enc [.enc, .err] s.phase t.phase = true) ∧
  (∀ s t : State, exec .ence s = .next t → callMay .enc [.done, .err] s.phase t.phase = true) ∧
  (∀ s t : State, exec .decb s = .next t → callMay .idle [.dec] s.phase t.phase = true) ∧
  (∀ (b : Byte) (s t : State), exec (.decp b) s = .next t → callMay .dec [.dec, .err] s.phase t.phase = true) ∧
  (∀ s t : State, exec .dece s = .next t → callMay .dec [.done, .err] s.phase t.phase = true) ∧
  (∀ (i : Instr) (v : Index) (s t : State), encode i = .tok v → exec i s = .next t →
    callMay .dec [.dec, .err] s.phase t.phase = true) ∧
  (∀ (s t : State) (w : Wire) (rest : List HostMove), s.inbox = .issue w :: rest → s.phase = .fatal →
    step s = .next t → t.phase = .fatal)

/-- No step ends in a fault or a refusal: each error of the block is an error entry, after which it goes on. -/
def Obligations.BlockNeverStops : Prop :=
  ∀ s : State, ∃ t : State, step s = .next t

/-- The state after raise E(info), field by field, for every error and every state. -/
def Obligations.ErrorEntryRecordsAndClears : Prop :=
  ∀ (e : Raise) (s : State), errorEntry e s =
    { State.reset with
      cfg := s.cfg, inbox := s.inbox, cbOk := s.cbOk, dir := s.dir, lkp := s.lkp
      phase := .err
      err := raiseCode e
      etok := (match e with | .unknownToken t _ => t | _ => [])
      epos := (match e with | .unknownToken _ n => n | _ => 0)
      eexp := (match e with | .truncatedPayload n _ => n | _ => 0#32)
      ehave := (match e with | .truncatedPayload _ h => h | _ => 0#32) }

/-- The four-bit value of ERR for no error, for each of the eight raised errors, and for the codebook collision. -/
def Obligations.ErrorCodesAreTheTable : Prop :=
  errCode .none = 0#4 ∧
  errCode (raiseCode .invalidInput) = 1#4 ∧
  errCode (raiseCode .emptyInput) = 2#4 ∧
  (∀ t n, errCode (raiseCode (.unknownToken t n)) = 3#4) ∧
  errCode (raiseCode .truncatedHeader) = 4#4 ∧
  (∀ n h, errCode (raiseCode (.truncatedPayload n h)) = 5#4) ∧
  errCode (raiseCode .corruptPayload) = 6#4 ∧
  errCode (raiseCode .illegalOp) = 7#4 ∧
  errCode (raiseCode .capacityExceeded) = 8#4 ∧
  errCode .codebookCollision = 9#4

/-- In phase ERR every command but NOP, CLR and CBRD leaves the state unchanged, and so does a reserved word but
for its being taken from the inbox (log entry 2); CLR restores every register to its reset value. Tokens in
ERR: TokenTakesItsIndexIn. -/
def Obligations.FirstErrorIsSticky : Prop :=
  (∀ (i : Instr) (w : CmdWord) (s : State), encode i = .cmd w → s.phase = .err →
    i ≠ .nop → i ≠ .clr → (∀ v, i ≠ .cbrd v) → exec i s = .next s) ∧
  (∀ (s : State) (w : CmdWord) (rest : List HostMove) (e : DecodeError), s.phase = .err →
    s.inbox = .issue (.cmd w) :: rest → decode (.cmd w) = .error e → step s = .next { s with inbox := rest }) ∧
  (∀ s : State, s.phase = .err →
    exec .clr s = .next { State.reset with cfg := s.cfg, inbox := s.inbox, cbOk := s.cbOk })

/-- With two equal tokens reset leaves CB_OK = 0, PHASE = FATAL, ERR = 9, and does so again each time; in FATAL
every command word the host issues is taken from the inbox (log entry 2) without any other change; the spec's
tables pass the check. -/
def Obligations.FatalDiscardsEveryWord : Prop :=
  (∀ (s : State) (v w : Index), v ≠ w → cbFwd s.cfg v = cbFwd s.cfg w →
    (resetBlock s).cbOk = false ∧ (resetBlock s).phase = .fatal ∧ (resetBlock s).err = .codebookCollision ∧
      (resetBlock (resetBlock s)).phase = .fatal) ∧
  (∀ (i : Instr) (w : CmdWord) (s : State), encode i = .cmd w → s.phase = .fatal → exec i s = .next s) ∧
  (∀ (s : State) (w : CmdWord) (rest : List HostMove), s.phase = .fatal → s.inbox = .issue (.cmd w) :: rest →
    step s = .next { s with inbox := rest }) ∧
  (∀ v w : Index, cbFwd standardConfig v = cbFwd standardConfig w → v = w)

/-- In every phase but FATAL, CBRD v writes LKP with CORE[v[5:3]] ++ TONE[v[2:0]] and leaves every other register,
so an open call is not disturbed; in FATAL it is discarded. -/
def Obligations.CbrdReadsOneEntry : Prop :=
  (∀ (v : Index) (s : State), s.phase ≠ .fatal →
    exec (.cbrd v) s = .next { s with
      lkp := s.cfg.core.getD (v.extractLsb' 3 3).toNat [] ++ s.cfg.tone.getD (v.extractLsb' 0 3).toNat [] }) ∧
  (∀ (v : Index) (s : State), s.phase = .fatal → exec (.cbrd v) s = .next s)

/-- With pairwise distinct tokens, cb_rev t is a hit on v exactly when the token of v is t, byte for byte; it
misses exactly when no token is t, so a prefix or extension of a token that is no token itself is a miss (how
the model reads the spec's sentence on prefixes, log entry 13); cb_rev of cb_fwd v is v; strings shorter than
3 or longer than 9 bytes miss; and the five examples of the rule. -/
def Obligations.InverseLookupIsExact : Prop :=
  ∀ c : Config, tokensDistinct c = true →
    (∀ (t : Bytes) (v : Index), cbRev c t = some v ↔ cbFwd c v = t) ∧
    (∀ t : Bytes, cbRev c t = none ↔ ∀ v : Index, cbFwd c v ≠ t) ∧
    (∀ v : Index, cbRev c (cbFwd c v) = some v) ∧
    (c.Admissible → ∀ t : Bytes, t.length < 3 ∨ 9 < t.length → cbRev c t = none) ∧
    (c.core = coreTable → c.tone = toneTable →
      cbRev c [0xE6#8, 0xB1#8, 0xAA#8, 0xE6#8, 0xB1#8, 0xAA#8] = some 24#6 ∧
      cbRev c [0xE6#8, 0xB1#8, 0xAA#8, 0xEF#8, 0xBD#8, 0x9E#8] = some 3#6 ∧
      cbRev c [0xE6#8, 0xB1#8, 0xAA#8, 0x7E#8] = some 2#6 ∧
      cbRev c [0xE5#8, 0x97#8, 0xB7#8, 0xE2#8, 0x80#8, 0xA6#8] = some 20#6 ∧
      cbRev c [0x6E#8, 0x6F#8, 0x74#8, 0x61#8, 0x74#8, 0x6F#8, 0x6B#8, 0x65#8, 0x6E#8] = none)

/-- cb_init sets CB_OK = 1, PHASE = IDLE, ERR = 0 if different indices have different tokens, else CB_OK = 0,
PHASE = FATAL, ERR = 9, and writes no other register. -/
def Obligations.CodebookCheckMeansDistinct : Prop :=
  ∀ s : State,
    ((∀ v w : Index, cbFwd s.cfg v = cbFwd s.cfg w → v = w) →
      cbInit s = { s with cbOk := true, phase := .idle, err := .none }) ∧
    ((∃ v w : Index, v ≠ w ∧ cbFwd s.cfg v = cbFwd s.cfg w) →
      cbInit s = { s with cbOk := false, phase := .fatal, err := .codebookCollision })

/-- With the contents of the tables the 64 strings are pairwise distinct, no token holds a byte below 0x21 or the
byte 0x7F, none holds a default separator, and every length is 3 to 9. -/
def Obligations.StandardCodebookProperties : Prop :=
  (∀ v w : Index, cbFwd standardConfig v = cbFwd standardConfig w → v = w) ∧
  (∀ (v : Index) (b : Byte), b ∈ cbFwd standardConfig v →
    0x21 ≤ b.toNat ∧ b ≠ 0x7F#8 ∧ b ∉ standardConfig.ws8) ∧
  (∀ v : Index, 3 ≤ (cbFwd standardConfig v).length ∧ (cbFwd standardConfig v).length ≤ 9) ∧
  standardConfig.Admissible

/-- With the default validity check, a byte string is accepted exactly when it is a concatenation of zero or more
sequences each matching one row of the table, byte by byte. -/
def Obligations.Utf8CheckIsTheTable : Prop :=
  ∀ c : Config, c.utf8 = .table → ∀ s : Bytes,
    utf8Ok c s = true ↔ ∃ parts : List Bytes, s = parts.flatten ∧
      ∀ q ∈ parts, ∃ row ∈ utf8Rows, List.Forall₂ (fun (r : ByteRange) (b : Byte) => r.lo ≤ b.toNat ∧ b.toNat ≤ r.hi) row q

/-- From a canonical engine with NB < B: rg_push outputs the numbers whose bits, MSB first, are the queue followed
by the pushed bits, cut at B, fewer than B bits staying, canonical again; rg_flush(6) outputs the queue padded
with zeros, or nothing if it is empty, and the flush as ENCE performs it emits that output and leaves the
queue empty, ACC = 0 and NB = 0; rg_drop empties the queue. -/
def Obligations.EngineIsABitQueue : Prop :=
  (∀ (e : Engine) (x : Byte), e.acc.toNat < 2 ^ e.nb.toNat → e.nb.toNat < 6 →
    groupBits (rgPush 8 6 x e).1 ++ bitQueue (rgPush 8 6 x e).2 = bitQueue e ++ bitsMsb 8 x ∧
    (rgPush 8 6 x e).2.nb.toNat < 6 ∧
    (rgPush 8 6 x e).2.acc.toNat < 2 ^ (rgPush 8 6 x e).2.nb.toNat) ∧
  (∀ (e : Engine) (v : Index), e.acc.toNat < 2 ^ e.nb.toNat → e.nb.toNat < 8 →
    byteBits (rgPush 6 8 v e).1 ++ bitQueue (rgPush 6 8 v e).2 = bitQueue e ++ bitsMsb 6 v ∧
    (rgPush 6 8 v e).2.nb.toNat < 8 ∧
    (rgPush 6 8 v e).2.acc.toNat < 2 ^ (rgPush 6 8 v e).2.nb.toNat) ∧
  (∀ e : Engine, e.acc.toNat < 2 ^ e.nb.toNat → 0 < e.nb.toNat → e.nb.toNat < 6 →
    ∃ g : Index, rgFlush 6 e = [g] ∧ bitsMsb 6 g = bitQueue e ++ List.replicate (6 - e.nb.toNat) false) ∧
  (∀ e : Engine, e.nb = 0#4 → rgFlush 6 e = []) ∧
  (∀ s : State, flushGroup s = emitAll (rgFlush 6 (engineOf s)) { s with acc := 0#13, nb := 0#4 } ∧
    bitQueue (engineOf (flushGroup s)) = [] ∧ (flushGroup s).acc = 0#13 ∧ (flushGroup s).nb = 0#4) ∧
  (∀ s : State, bitQueue (engineOf (rgDrop s)) = [] ∧
    rgDrop s = { s with acc := 0#13, nb := 0#4 })

/-- The seven rows of the table of reachable counts, for every accumulator and every pushed value; after k pushes
with (8, 6) from NB = 0 there are floor(8k/6) outputs and NB = 8k mod 6, and with (6, 8) floor(6k/8) outputs
and NB = 6k mod 8. -/
def Obligations.EngineCounts : Prop :=
  (∀ (a : BitVec 13) (x : Byte),
    ((rgPush 8 6 x ⟨a, 0#4⟩).1.length = 1 ∧ (rgPush 8 6 x ⟨a, 0#4⟩).2.nb = 2#4) ∧
    ((rgPush 8 6 x ⟨a, 2#4⟩).1.length = 1 ∧ (rgPush 8 6 x ⟨a, 2#4⟩).2.nb = 4#4) ∧
    ((rgPush 8 6 x ⟨a, 4#4⟩).1.length = 2 ∧ (rgPush 8 6 x ⟨a, 4#4⟩).2.nb = 0#4)) ∧
  (∀ (a : BitVec 13) (v : Index),
    ((rgPush 6 8 v ⟨a, 0#4⟩).1.length = 0 ∧ (rgPush 6 8 v ⟨a, 0#4⟩).2.nb = 6#4) ∧
    ((rgPush 6 8 v ⟨a, 6#4⟩).1.length = 1 ∧ (rgPush 6 8 v ⟨a, 6#4⟩).2.nb = 4#4) ∧
    ((rgPush 6 8 v ⟨a, 4#4⟩).1.length = 1 ∧ (rgPush 6 8 v ⟨a, 4#4⟩).2.nb = 2#4) ∧
    ((rgPush 6 8 v ⟨a, 2#4⟩).1.length = 1 ∧ (rgPush 6 8 v ⟨a, 2#4⟩).2.nb = 0#4)) ∧
  (∀ (xs : Bytes) (a : BitVec 13),
    (pushAll 8 6 xs ⟨a, 0#4⟩).1.length = 8 * xs.length / 6 ∧
    (pushAll 8 6 xs ⟨a, 0#4⟩).2.nb.toNat = 8 * xs.length % 6 ∧
    (pushAll 8 6 xs ⟨a, 0#4⟩).2.nb.toNat + 8 ≤ 12) ∧
  (∀ (vs : List Index) (a : BitVec 13),
    (pushAll 6 8 vs ⟨a, 0#4⟩).1.length = 6 * vs.length / 8 ∧
    (pushAll 6 8 vs ⟨a, 0#4⟩).2.nb.toNat = 6 * vs.length % 8 ∧
    (pushAll 6 8 vs ⟨a, 0#4⟩).2.nb.toNat + 6 ≤ 12)

/-- Pushing values from an empty engine outputs the consecutive B-bit slices of their bit string and leaves the
rest queued, for both settings; regrouping bytes 8-to-6 with a flush gives ceil(8k/6) groups whose bits are
the bytes' bits and 0, 2 or 4 zeros, and regrouping those 6-to-8 with a drop returns the bytes. -/
def Obligations.RegroupingRoundTrips : Prop :=
  (∀ xs : Bytes,
    (pushAll 8 6 xs emptyEngine).1 = slices 6 (8 * xs.length / 6) (byteBits xs) ∧
    bitQueue (pushAll 8 6 xs emptyEngine).2 = (byteBits xs).drop (6 * (8 * xs.length / 6))) ∧
  (∀ vs : List Index,
    (pushAll 6 8 vs emptyEngine).1 = slices 8 (6 * vs.length / 8) (groupBits vs) ∧
    bitQueue (pushAll 6 8 vs emptyEngine).2 = (groupBits vs).drop (8 * (6 * vs.length / 8))) ∧
  (∀ xs : Bytes, ∃ p : Nat, (p = 0 ∨ p = 2 ∨ p = 4) ∧
    (regroupOut xs).length = (8 * xs.length + 5) / 6 ∧
    groupBits (regroupOut xs) = byteBits xs ++ List.replicate p false ∧
    regroupIn (regroupOut xs) = xs ∧
    (pushAll 6 8 (regroupOut xs) emptyEngine).2.nb.toNat = p)

/-- In IDLE with 4 + L within CAP, ENCB L answers the state with DIR = 0, LEN = L, CNT = 0, NTOK = 5, NB = 2, ACC
= L[1:0], the five header tokens with four separators appended to PEND, PHASE = ENC and nothing else changed.
Beyond CAP it raises CapacityExceeded; in ENC, DEC and DONE IllegalOp; in ERR and FATAL it is discarded. The
word is op 0x10 with any arg. -/
def Obligations.EncbOpensTheCall : Prop :=
  (∀ L : Length, decode (.cmd (0x1000000000#40 ||| L.setWidth 40)) = .ok (.encb L)) ∧
  ∀ (L : Length) (s : State),
    (s.phase = .idle → fits (4 + L.toNat) s.cfg.cap = true →
      exec (.encb L) s = .next { s with
        dir := .encode, phase := .enc, len := L, cnt := 0, ntok := 5
        acc := (L.extractLsb' 0 2).setWidth 13, nb := 2#4
        pend := s.pend ++ joinTokens s.cfg
          [L.extractLsb' 26 6, L.extractLsb' 20 6, L.extractLsb' 14 6, L.extractLsb' 8 6, L.extractLsb' 2 6] }) ∧
    (s.phase = .idle → fits (4 + L.toNat) s.cfg.cap = false →
      exec (.encb L) s = .next (errorEntry .capacityExceeded s)) ∧
    ((s.phase = .enc ∨ s.phase = .dec ∨ s.phase = .done) →
      exec (.encb L) s = .next (errorEntry .illegalOp s)) ∧
    ((s.phase = .err ∨ s.phase = .fatal) → exec (.encb L) s = .next s)

/-- In ENC with CNT < LEN, ENCP b answers the state with b appended to PAY, CNT one more, the engine after
rg_push(8, 6, b), the tokens of the groups that come out appended to PEND behind separators, NTOK counted up,
and nothing else changed. With CNT = LEN or more, and in IDLE, DEC and DONE, it raises IllegalOp; in ERR and
FATAL it is discarded. -/
def Obligations.EncpPacksOneByte : Prop :=
  ∀ (b : Byte) (s : State),
    (s.phase = .enc → s.cnt < s.len.toNat →
      exec (.encp b) s = .next { s with
        pay := s.pay ++ [b], cnt := s.cnt + 1
        acc := (rgPush 8 6 b ⟨s.acc, s.nb⟩).2.acc, nb := (rgPush 8 6 b ⟨s.acc, s.nb⟩).2.nb
        ntok := s.ntok + (rgPush 8 6 b ⟨s.acc, s.nb⟩).1.length
        pend := s.pend ++ textAfter s.cfg s.ntok (rgPush 8 6 b ⟨s.acc, s.nb⟩).1 }) ∧
    (s.phase = .enc → s.len.toNat ≤ s.cnt → exec (.encp b) s = .next (errorEntry .illegalOp s)) ∧
    ((s.phase = .idle ∨ s.phase = .dec ∨ s.phase = .done) →
      exec (.encp b) s = .next (errorEntry .illegalOp s)) ∧
    ((s.phase = .err ∨ s.phase = .fatal) → exec (.encp b) s = .next s)

/-- In ENC with CNT = LEN and a valid payload, ENCE answers the state with the flushed group's token appended, OUT
that text, PEND and PAY empty, the engine empty, PHASE = DONE and nothing else changed; where the call kept
the invariants, NTOK is ceil((4+L)*8/6) and OUT is the text of the payload's frame. An invalid payload raises
InvalidInput; CNT different from LEN, and IDLE, DEC and DONE, IllegalOp; in ERR and FATAL it is discarded. -/
def Obligations.EnceCommitsTheText : Prop :=
  ∀ s : State,
    (s.phase = .enc → s.cnt = s.len.toNat → utf8Ok s.cfg s.pay = true →
      exec .ence s = .next { s with
        out := s.pend ++ textAfter s.cfg s.ntok (rgFlush 6 ⟨s.acc, s.nb⟩)
        ntok := s.ntok + (rgFlush 6 ⟨s.acc, s.nb⟩).length
        acc := 0#13, nb := 0#4, pend := [], pay := [], phase := .done }) ∧
    (s.phase = .enc → s.cnt = s.len.toNat → utf8Ok s.cfg s.pay = true → RegInv s → EncTrace s →
      s.ntok + (rgFlush 6 ⟨s.acc, s.nb⟩).length = tokenCount s.len.toNat ∧
      s.pend ++ textAfter s.cfg s.ntok (rgFlush 6 ⟨s.acc, s.nb⟩) = joinTokens s.cfg (groupsOf s.pay)) ∧
    (s.phase = .enc → s.cnt = s.len.toNat → utf8Ok s.cfg s.pay = false →
      exec .ence s = .next (errorEntry .invalidInput s)) ∧
    (s.phase = .enc → s.cnt ≠ s.len.toNat → exec .ence s = .next (errorEntry .illegalOp s)) ∧
    ((s.phase = .idle ∨ s.phase = .dec ∨ s.phase = .done) → exec .ence s = .next (errorEntry .illegalOp s)) ∧
    ((s.phase = .err ∨ s.phase = .fatal) → exec .ence s = .next s)

/-- The closed form's groups carry exactly the frame's bits, most significant first within each byte and across
bytes, followed by zeros that fill the last group; there are ceil(8(4+N)/6) groups, and the number of padding
bits is 0, 4 or 2 as 4 + N is 0, 1 or 2 modulo 3. -/
def Obligations.PaddingBitsAreZero : Prop :=
  ∀ p : Bytes,
    (groupsOf p).length = (8 * (4 + p.length) + 5) / 6 ∧
    groupBits (groupsOf p) = byteBits (be32Bytes (BitVec.ofNat 32 p.length) ++ p) ++
      List.replicate (if (4 + p.length) % 3 = 0 then 0 else if (4 + p.length) % 3 = 1 then 4 else 2) false ∧
    (p.length < 4 → ∀ g ∈ (groupsOf p).take 5, g = 0#6) ∧
    (p.length < 2 ^ 26 → (groupsOf p).head? = some 0#6)

/-- In IDLE DECB answers the state with DIR = 1, PHASE = DEC and the engine cleared, nothing else changed; in ENC,
DEC and DONE it raises IllegalOp; in ERR and FATAL it is discarded. -/
def Obligations.DecbOpensTheCall : Prop :=
  ∀ s : State,
    (s.phase = .idle →
      exec .decb s = .next { s with dir := .decode, phase := .dec, acc := 0#13, nb := 0#4 }) ∧
    ((s.phase = .enc ∨ s.phase = .dec ∨ s.phase = .done) → exec .decb s = .next (errorEntry .illegalOp s)) ∧
    ((s.phase = .err ∨ s.phase = .fatal) → exec .decb s = .next s)

/-- In DEC: a byte that is no separator is appended to TOKBUF while TOKCAP allows, else CapacityExceeded; a
separator with nothing open changes nothing; a separator after a codebook token empties TOKBUF, counts the
token and takes its index into the engine and BUF while CAP allows, else CapacityExceeded; a separator after
any other string raises UnknownToken with its bytes and position. In IDLE, ENC and DONE DECP raises IllegalOp;
in ERR and FATAL it is discarded. -/
def Obligations.DecpTakesOneByte : Prop :=
  ∀ (b : Byte) (s : State),
    (s.phase = .dec → b ∉ s.cfg.ws8 →
      (fits (s.tokbuf.length + 1) s.cfg.tokCap = true → exec (.decp b) s = .next { s with tokbuf := s.tokbuf ++ [b] }) ∧
      (fits (s.tokbuf.length + 1) s.cfg.tokCap = false → exec (.decp b) s = .next (errorEntry .capacityExceeded s))) ∧
    (s.phase = .dec → b ∈ s.cfg.ws8 → s.tokbuf = [] → exec (.decp b) s = .next s) ∧
    (s.phase = .dec → b ∈ s.cfg.ws8 → s.tokbuf ≠ [] → cbRev s.cfg s.tokbuf = none →
      exec (.decp b) s = .next (errorEntry (.unknownToken s.tokbuf s.ntok) s)) ∧
    (∀ v : Index, s.phase = .dec → b ∈ s.cfg.ws8 → s.tokbuf ≠ [] → cbRev s.cfg s.tokbuf = some v →
      (((rgPush 6 8 v ⟨s.acc, s.nb⟩).1 = [] ∨ fits (s.buf.length + 1) s.cfg.cap = true) →
        exec (.decp b) s = .next { s with
          tokbuf := [], ntok := s.ntok + 1
          acc := (rgPush 6 8 v ⟨s.acc, s.nb⟩).2.acc, nb := (rgPush 6 8 v ⟨s.acc, s.nb⟩).2.nb
          buf := s.buf ++ (rgPush 6 8 v ⟨s.acc, s.nb⟩).1
          cnt := s.cnt + (rgPush 6 8 v ⟨s.acc, s.nb⟩).1.length }) ∧
      ((rgPush 6 8 v ⟨s.acc, s.nb⟩).1 ≠ [] → fits (s.buf.length + 1) s.cfg.cap = false →
        exec (.decp b) s = .next (errorEntry .capacityExceeded s))) ∧
    ((s.phase = .idle ∨ s.phase = .enc ∨ s.phase = .done) → exec (.decp b) s = .next (errorEntry .illegalOp s)) ∧
    ((s.phase = .err ∨ s.phase = .fatal) → exec (.decp b) s = .next s)

/-- With TOKBUF empty tk_close changes nothing; on a miss it raises UnknownToken with the token's bytes and NTOK
as position; on a hit it empties TOKBUF, counts the token and runs dec_sym on the index. -/
def Obligations.TkCloseLooksTheTokenUp : Prop :=
  ∀ s : State,
    (s.tokbuf = [] → tkClose s = .ok s) ∧
    (s.tokbuf ≠ [] → (∀ v : Index, cbFwd s.cfg v ≠ s.tokbuf) → tkClose s = .error (.unknownToken s.tokbuf s.ntok)) ∧
    (∀ v : Index, tokensDistinct s.cfg = true → s.tokbuf ≠ [] → cbFwd s.cfg v = s.tokbuf →
      tkClose s = decSym v { s with tokbuf := [], ntok := s.ntok + 1 })

/-- In DEC, with u the state after closing the last token: an error of the closing is raised; no token at all
raises EmptyInput; fewer than 4 bytes TruncatedHeader; fewer than N bytes after the header TruncatedPayload
with N and what is there; an ill-formed payload CorruptPayload; otherwise the next state is u with LEN = N,
OUT the N bytes after the header, BUF empty, the engine empty, PHASE = DONE. In IDLE, ENC and DONE DECE raises
IllegalOp; in ERR and FATAL it is discarded. -/
def Obligations.DeceChecksAndCommits : Prop :=
  ∀ s : State,
    (s.phase = .dec →
      (∀ e, tkClose s = .error e → exec .dece s = .next (errorEntry e s)) ∧
      (∀ u, tkClose s = .ok u →
        (u.ntok = 0 → exec .dece s = .next (errorEntry .emptyInput s)) ∧
        (0 < u.ntok → u.buf.length < 4 → exec .dece s = .next (errorEntry .truncatedHeader s)) ∧
        (∀ (b0 b1 b2 b3 : Byte) (rest : Bytes), 0 < u.ntok → u.buf = b0 :: b1 :: b2 :: b3 :: rest →
          (rest.length < (be32 b0 b1 b2 b3).toNat →
            exec .dece s = .next
              (errorEntry (.truncatedPayload (be32 b0 b1 b2 b3) (BitVec.ofNat 32 rest.length)) s)) ∧
          ((be32 b0 b1 b2 b3).toNat ≤ rest.length →
            utf8Ok u.cfg (rest.take (be32 b0 b1 b2 b3).toNat) = false →
            exec .dece s = .next (errorEntry .corruptPayload s)) ∧
          ((be32 b0 b1 b2 b3).toNat ≤ rest.length →
            utf8Ok u.cfg (rest.take (be32 b0 b1 b2 b3).toNat) = true →
            exec .dece s = .next { u with
              len := be32 b0 b1 b2 b3, out := rest.take (be32 b0 b1 b2 b3).toNat
              buf := [], acc := 0#13, nb := 0#4, phase := .done })))) ∧
    ((s.phase = .idle ∨ s.phase = .enc ∨ s.phase = .done) → exec .dece s = .next (errorEntry .illegalOp s)) ∧
    ((s.phase = .err ∨ s.phase = .fatal) → exec .dece s = .next s)

/-- The frame's first four bytes, which ENCB packs, are L[31:24], L[23:16], L[15:8], L[7:0]; hdr_read reads be32
of the first four bytes of BUF, which is b0*2^24 + b1*2^16 + b2*2^8 + b3; each undoes the other. -/
def Obligations.HeaderIsBigEndian : Prop :=
  (∀ L : Length, be32Bytes L = [L.extractLsb' 24 8, L.extractLsb' 16 8, L.extractLsb' 8 8, L.extractLsb' 0 8]) ∧
  (∀ (L : Length) (s : State), fits (4 + L.toNat) s.cfg.cap = true →
    encbBody L s = .ok { (be32Bytes L).foldl (fun t x => encByte x t)
      { s with dir := .encode, len := L, cnt := 0, ntok := 0, acc := 0#13, nb := 0#4 } with phase := .enc }) ∧
  (∀ (b0 b1 b2 b3 : Byte) (rest : Bytes) (s : State), s.buf = b0 :: b1 :: b2 :: b3 :: rest →
    hdrRead s = .ok { s with len := be32 b0 b1 b2 b3 }) ∧
  (∀ b0 b1 b2 b3 : Byte,
    (be32 b0 b1 b2 b3).toNat = b0.toNat * 2 ^ 24 + b1.toNat * 2 ^ 16 + b2.toNat * 2 ^ 8 + b3.toNat) ∧
  (∀ b0 b1 b2 b3 : Byte, be32Bytes (be32 b0 b1 b2 b3) = [b0, b1, b2, b3]) ∧
  (∀ L : Length, headerOf (be32Bytes L) = L)

/-- In DEC with the last token already closed, at least one token accepted, the 4 header bytes decoded, the N
bytes that the header declares present in BUF, and those N bytes a valid payload: DECE ends in DONE, and it
answers the same next state whatever ACC and NB hold. Padding bits are dropped unread, and no flag records
them. The forms left out, the error outcomes and a token still open, are in DeceChecksAndCommits. -/
def Obligations.LeftoverBitsAreNeverExamined : Prop :=
  ∀ (s : State) (a : BitVec 13) (n : BitVec 4), s.phase = .dec → s.tokbuf = [] →
    0 < s.ntok → 4 ≤ s.buf.length → (headerOf s.buf).toNat + 4 ≤ s.buf.length →
    utf8Ok s.cfg ((s.buf.drop 4).take (headerOf s.buf).toNat) = true →
    ∃ t, exec .dece s = .next t ∧ t.phase = .done ∧ exec .dece { s with acc := a, nb := n } = .next t

/-- In DEC with the last token already closed and a frame whose N bytes are there and valid, any bytes appended to
BUF leave the next state of DECE as it is. -/
def Obligations.SlackBytesAreIgnored : Prop :=
  ∀ (s : State) (slack : Bytes), s.phase = .dec → s.tokbuf = [] →
    0 < s.ntok → 4 ≤ s.buf.length → (headerOf s.buf).toNat + 4 ≤ s.buf.length →
    utf8Ok s.cfg ((s.buf.drop 4).take (headerOf s.buf).toNat) = true →
    ∃ t, exec .dece s = .next t ∧ t.phase = .done ∧ exec .dece { s with buf := s.buf ++ slack } = .next t

/-- For every token instruction (every i with encode i = tok v): in DEC with nothing open, an admissible
configuration with distinct tokens, and room for the byte that comes out if one does, exec answers the state
with NTOK one more and the index v pushed through the engine into BUF, nothing else changed. Without room it
raises CapacityExceeded; in IDLE, ENC and DONE IllegalOp; in ERR and FATAL it is discarded. That a token row
of the opcode table is delivered as its bytes and one separator is the model's choice (log entry 5). -/
def Obligations.TokenTakesItsIndexIn : Prop :=
  ∀ (i : Instr) (v : Index) (s : State), encode i = .tok v →
    (s.phase = .dec → s.tokbuf = [] → s.cfg.Admissible → tokensDistinct s.cfg = true →
      (((rgPush 6 8 v ⟨s.acc, s.nb⟩).1 = [] ∨ fits (s.buf.length + 1) s.cfg.cap = true) →
        exec i s = .next { s with
          ntok := s.ntok + 1
          acc := (rgPush 6 8 v ⟨s.acc, s.nb⟩).2.acc, nb := (rgPush 6 8 v ⟨s.acc, s.nb⟩).2.nb
          buf := s.buf ++ (rgPush 6 8 v ⟨s.acc, s.nb⟩).1
          cnt := s.cnt + (rgPush 6 8 v ⟨s.acc, s.nb⟩).1.length }) ∧
      ((rgPush 6 8 v ⟨s.acc, s.nb⟩).1 ≠ [] → fits (s.buf.length + 1) s.cfg.cap = false →
        exec i s = .next (errorEntry .capacityExceeded s))) ∧
    ((s.phase = .idle ∨ s.phase = .enc ∨ s.phase = .done) → exec i s = .next (errorEntry .illegalOp s)) ∧
    ((s.phase = .err ∨ s.phase = .fatal) → exec i s = .next s)

/-- In every state, running the DECP commands of a token's bytes and then DECP 0x20 reaches the state that the
token instruction answers. This is the model's choice of what a token row means (log entry 5). -/
def Obligations.TokenIsItsBytes : Prop :=
  ∀ (i : Instr) (v : Index) (s t : State), encode i = .tok v → exec i s = .next t →
    runCommands ((cbFwd s.cfg v ++ [0x20#8]).map Instr.decp) s = .next t

/-- For every instruction and state, if exec answers a next state then its configuration (WS8, utf8_ok, CAP,
TOKCAP, both tables), CB_OK and inbox are as before. -/
def Obligations.NoCommandWritesParameters : Prop :=
  ∀ (i : Instr) (s t : State), exec i s = .next t → t.cfg = s.cfg ∧ t.cbOk = s.cbOk ∧ t.inbox = s.inbox

/-- For every instruction but CBRD and CLR, LKP is as before, error entry included; for every instruction but
ENCB, DECB and CLR, DIR is as before, error entry included. -/
def Obligations.LookupAndDirectionFrame : Prop :=
  ∀ (i : Instr) (s t : State), exec i s = .next t →
    ((∀ v, i ≠ .cbrd v) → i ≠ .clr → t.lkp = s.lkp) ∧
    ((∀ L, i ≠ .encb L) → i ≠ .decb → i ≠ .clr → t.dir = s.dir)

/-- For every instruction but CLR that does not go from another phase into ERR, the registers ERR, ETOK, EPOS,
EEXP and EHAVE are as before. -/
def Obligations.ErrorReportFrame : Prop :=
  ∀ (i : Instr) (s t : State), exec i s = .next t → i ≠ .clr → (t.phase = .err → s.phase = .err) →
    t.err = s.err ∧ t.etok = s.etok ∧ t.epos = s.epos ∧ t.eexp = s.eexp ∧ t.ehave = s.ehave

/-- For every instruction, if exec answers a next state whose OUT reads differently at some address, then either
every address of OUT is now out of range and the instruction was CLR or the phase is ERR, or the instruction
was ENCE or DECE and the phase went to DONE. -/
def Obligations.OutputAppearsOnlyAtCommit : Prop :=
  ∀ (i : Instr) (s t : State), exec i s = .next t →
    (∃ a : Nat, readByte t .out a ≠ readByte s .out a) →
    ((∀ a : Nat, readByte t .out a = none) ∧ (i = .clr ∨ t.phase = .err)) ∨
    ((i = .ence ∧ s.phase = .enc ∨ i = .dece ∧ s.phase = .dec) ∧ t.phase = .done)

/-- For ENCB, ENCP and ENCE, if the next state is not in ERR then every address of BUF, TOKBUF and ETOK reads as
before; for DECB, DECP, DECE and every token, every address of PAY, PEND and ETOK reads as before. -/
def Obligations.OtherDirectionBuffersFrame : Prop :=
  ∀ (i : Instr) (s t : State), exec i s = .next t → t.phase ≠ .err →
    (((∃ L, i = .encb L) ∨ (∃ b, i = .encp b) ∨ i = .ence) → ∀ a : Nat,
      readByte t .buf a = readByte s .buf a ∧ readByte t .tokbuf a = readByte s .tokbuf a ∧
      readByte t .etok a = readByte s .etok a) ∧
    ((i = .decb ∨ (∃ b, i = .decp b) ∨ i = .dece ∨ (∃ v, encode i = .tok v)) → ∀ a : Nat,
      readByte t .pay a = readByte s .pay a ∧ readByte t .pend a = readByte s .pend a ∧
      readByte t .etok a = readByte s .etok a)

/-- State.reset satisfies RegInv, with an admissible configuration. -/
def Obligations.ResetHasRegisterInvariant : Prop :=
  RegInv State.reset

/-- From every state with RegInv, reachable or not, if step answers a next state then RegInv holds there: ACC <
2^NB, NB as the phase and the counts say, CNT <= LEN, |PAY| = CNT, CNT = |BUF| = floor(6 NTOK / 8), buffers
empty where no call is open, OUT empty but in DONE, ERR non-zero exactly in ERR and FATAL, error information
only with its error, LKP at most 9 bytes, IDLE at reset values, capacities respected. -/
def Obligations.StepKeepsRegisterInvariant : Prop :=
  ∀ s t : State, RegInv s → step s = .next t → RegInv t

/-- State.reset satisfies DataInv: no call is open and none is finished. -/
def Obligations.ResetHasDataInvariant : Prop :=
  DataInv State.reset

/-- From every state with RegInv and DataInv, if step answers a next state then DataInv holds there: in ENC, PEND
is the token text of NTOK groups whose bits with the buffered bits are those of the header and of PAY; in DEC,
BUF's bits with the buffered bits are those of NTOK indices; in DONE, OUT is an encoded valid payload of LEN
bytes, or the valid payload that a frame of NTOK indices declares. And which: ENCB L opens with LEN = L and
PAY empty, ENCP b appends b to PAY, any other instruction that stays in ENC leaves LEN and PAY, and ENCE
commits the encoding of exactly PAY. DECB opens with no index. An instruction that goes from DEC to DEC or
DONE takes in certain indices (TakesIn: none, or that of the codebook token whose bytes it closes), and then
for every vs that traces the call, vs with those appended traces it after, or in DONE is what LEN, CNT, NTOK
and OUT are the decoding of. For the token rows: log entry 5. -/
def Obligations.StepKeepsDataInvariant : Prop :=
  ∀ s t : State, RegInv s → DataInv s → step s = .next t →
    DataInv t ∧
    ∀ (w : Wire) (rest : List HostMove) (i : Instr), s.inbox = .issue w :: rest → decode w = .ok i →
      (∀ L : Length, i = .encb L → t.phase = .enc → t.len = L ∧ t.pay = []) ∧
      (∀ b : Byte, i = .encp b → t.phase = .enc → t.len = s.len ∧ t.pay = s.pay ++ [b]) ∧
      (s.phase = .enc → t.phase = .enc → (∀ b : Byte, i ≠ .encp b) → t.len = s.len ∧ t.pay = s.pay) ∧
      (s.phase = .enc → t.phase = .done → encodeClosed s.cfg s.pay = .ok t.out) ∧
      (i = .decb → t.phase = .dec → DecTraceOf [] t) ∧
      (s.phase = .dec → t.phase = .dec ∨ t.phase = .done → ∃ ws : List Index, TakesIn s i ws) ∧
      (∀ vs ws : List Index, s.phase = .dec → DecTraceOf vs s → TakesIn s i ws →
        (t.phase = .dec → DecTraceOf (vs ++ ws) t) ∧ (t.phase = .done → DecResultOf (vs ++ ws) t))

/-- For every payload of fewer than 2^32 bytes within CAP, from every IDLE state with the register invariant, the
run of ENCB, the ENCPs and ENCE ends in DONE with DIR = 0, LEN = CNT = |p|, NTOK = T and OUT the joined tokens
of the groups of the frame, or, if the payload is not valid, in the error entry state of InvalidInput. -/
def Obligations.EncodeCallIsItsClosedForm : Prop :=
  ∀ (p : Bytes) (s : State), RegInv s → s.phase = .idle → p.length < 2 ^ 32 →
    fits (4 + p.length) s.cfg.cap = true →
    (utf8Ok s.cfg p = true →
      encodeCall p s = .next { s with
        phase := .done, dir := .encode, len := BitVec.ofNat 32 p.length, cnt := p.length
        ntok := (8 * (4 + p.length) + 5) / 6, out := joinTokens s.cfg (groupsOf p) }) ∧
    (utf8Ok s.cfg p = false → encodeCall p s = .next (errorEntry .invalidInput s))

/-- For every byte string, with infinite capacities, from every IDLE state with the register invariant, the run of
DECB, the DECPs and DECE ends as the closed form has it: EmptyInput without a token, UnknownToken at the first
unknown one, TruncatedHeader, TruncatedPayload, CorruptPayload in that order, else DONE with DIR = 1, LEN = N,
NTOK and CNT counted and OUT the payload. -/
def Obligations.DecodeCallIsItsClosedForm : Prop :=
  ∀ (text : Bytes) (s : State), RegInv s → s.phase = .idle → s.cfg.cap = none → s.cfg.tokCap = none →
    decodeCall text s = .next (match decodeClosed s.cfg text with
      | .error e => errorEntry e { s with dir := .decode }
      | .ok (vs, P) => { s with
          phase := .done, dir := .decode, len := headerOf (wholeBytes vs), cnt := (wholeBytes vs).length
          ntok := vs.length, out := P })

/-- For every valid payload of fewer than 2^32 bytes within the capacities, from every IDLE state with the
register invariant, ENCODE p ends in DONE with some text, and DECODE of that text, from that IDLE state, ends
in DONE with OUT = p. -/
def Obligations.EncodeThenDecodeReturnsThePayload : Prop :=
  ∀ (p : Bytes) (s : State), RegInv s → s.phase = .idle → p.length < 2 ^ 32 →
    fits (4 + p.length) s.cfg.cap = true → utf8Ok s.cfg p = true →
    ∃ t, encodeCall p s = .next t ∧ t.phase = .done ∧
      ∃ u, decodeCall t.out s = .next u ∧ u.phase = .done ∧ u.out = p

/-- If ENCODE p, run from an IDLE state with the register invariant, ends in DONE, then NTOK is ceil((4 + |p|) * 8
/ 6), which is 4 floor(F/3) + (0, 2, 3)[F mod 3] for F = 4 + |p|, and at least 6. -/
def Obligations.TokenCountLaw : Prop :=
  (∀ (p : Bytes) (s t : State), RegInv s → s.phase = .idle → encodeCall p s = .next t → t.phase = .done →
    t.ntok = ((4 + p.length) * 8 + 5) / 6 ∧
    t.ntok = 4 * ((4 + p.length) / 3) +
      (if (4 + p.length) % 3 = 0 then 0 else if (4 + p.length) % 3 = 1 then 2 else 3) ∧
    6 ≤ t.ntok) ∧
  tokenCount 0 = 6

/-- The model refuses ENCODE p for a payload of 2^32 bytes or more; and in a call opened with any length L, ENCP
raises IllegalOp once CNT has reached L. -/
def Obligations.OversizedPayloadIsRefused : Prop :=
  (∀ (p : Bytes) (s : State), 2 ^ 32 ≤ p.length → encodeCall p s = .refused .payloadOutOfContract) ∧
  (∀ (b : Byte) (s : State), s.phase = .enc → s.cnt = s.len.toNat →
    exec (.encp b) s = .next (errorEntry .illegalOp s))

/-- The visible registers read as they stand, PHASE, DIR and ERR as their numeric codes; done and error follow
PHASE; out_data is OUT[a] below its length and 0 above, etok_data likewise; byte i of LKP, for i below 9,
stands in bits 71-8i to 64-8i of lkp_data, unused bytes 0, whenever LKP has at most 9 bytes. -/
def Obligations.HostReadsThePorts : Prop :=
  ∀ s : State,
    ((hostView s).phase = (match s.phase with
      | .idle => 0#3 | .enc => 1#3 | .dec => 2#3 | .done => 3#3 | .err => 4#3 | .fatal => 7#3)) ∧
    ((hostView s).dir = (match s.dir with | .encode => 0#1 | .decode => 1#1)) ∧
    ((hostView s).err = errCode s.err ∧ (hostView s).cbOk = s.cbOk ∧ (hostView s).len = s.len ∧
      (hostView s).cnt = s.cnt ∧ (hostView s).ntok = s.ntok ∧ (hostView s).etok = s.etok ∧
      (hostView s).epos = s.epos ∧ (hostView s).eexp = s.eexp ∧ (hostView s).ehave = s.ehave ∧
      (hostView s).lkp = s.lkp ∧ (hostView s).out = s.out) ∧
    ((hostView s).done = true ↔ s.phase = .done) ∧
    ((hostView s).error = true ↔ s.phase = .err ∨ s.phase = .fatal) ∧
    (∀ a : Nat, (∀ b, readByte s .out a = some b → outData s a = b) ∧
      (readByte s .out a = none → outData s a = 0#8)) ∧
    (∀ a : Nat, (∀ b, readByte s .etok a = some b → etokData s a = b) ∧
      (readByte s .etok a = none → etokData s a = 0#8)) ∧
    (s.lkp.length ≤ 9 → (lkpLen s).toNat = s.lkp.length ∧
      ∀ i : Nat, i < 9 → (lkpData s).extractLsb' (64 - 8 * i) 8 = s.lkp.getD i 0#8)

/-- The host's next move opens a run exactly when it issues ENCB or DECB (whatever the phase: log entry 14), and
with any other move, or none, runOf answers no run. An opened run ends in t exactly when t is in DONE, ERR or
FATAL and is reached by one or more steps with every state before it, after the opening one, in ENC or DEC; it
is abandoned exactly when IDLE is reached so; it is unfinished exactly when every state after the opening is
in ENC or DEC. The moves are those of the inbox (log entry 2). -/
def Obligations.RunEndsAtTheFirstEndState : Prop :=
  (∀ s : State, s.inbox = [] → runOf s = none) ∧
  (∀ (s : State) (m : HostMove) (rest : List HostMove), s.inbox = m :: rest →
    (∀ L : Length, m ≠ issueOf (.encb L)) → m ≠ issueOf .decb → runOf s = none) ∧
  (∀ (s : State) (m : HostMove) (rest : List HostMove), s.inbox = m :: rest →
    ((∃ L : Length, m = issueOf (.encb L)) ∨ m = issueOf .decb) →
    (∀ t : State, runOf s = some (.ended t) ↔
      (t.phase = .done ∨ t.phase = .err ∨ t.phase = .fatal) ∧ ReachesThroughCall s t) ∧
    (runOf s = some .abandoned ↔ ∃ t : State, t.phase = .idle ∧ ReachesThroughCall s t) ∧
    (runOf s = some .unfinished ↔ ∀ (k : Nat) (t : State), 0 < k →
      Host.Core.run Sys2Proof.core k s = .next t → t.phase = .enc ∨ t.phase = .dec))

/-- A run that ends in DONE has the result OUT; one that ends in ERR has as its result ERR with ETOK, EPOS, EEXP
and EHAVE, with OUT empty when it was opened from a state with the register invariant; one that is abandoned
or unfinished has none. CLR or reset as the move after the opening, taken in ENC or DEC, leaves the run
without result. That a run ending in FATAL has no result is the model's choice: R5 names none for FATAL (log
entry 14, DEDUCED). -/
def Obligations.RunResultIsReadAtItsEnd : Prop :=
  (∀ s t : State, runOf s = some (.ended t) →
    (t.phase = .done → runResult s = some (.output t.out)) ∧
    (t.phase = .err → runResult s = some (.failure t.err t.etok t.epos t.eexp t.ehave) ∧
      (RegInv s → t.out = [] ∧ t.err ≠ .none)) ∧
    (t.phase = .fatal → runResult s = none)) ∧
  (∀ s : State, runOf s = none ∨ runOf s = some .abandoned ∨ runOf s = some .unfinished → runResult s = none) ∧
  (∀ (s t : State) (rest : List HostMove), step s = .next t → t.phase = .enc ∨ t.phase = .dec →
    t.inbox = issueOf .clr :: rest ∨ t.inbox = .reset :: rest → runResult s = none)

/-- From every IDLE state with the register invariant, with the commands of ENCODE p issued for a payload of fewer
than 2^32 bytes, the run has the result: the joined tokens of the groups of the frame if the payload is valid
and within CAP, the report of InvalidInput if it is within CAP and not valid, the report of CapacityExceeded
if it is beyond CAP. With those of DECODE s issued, and infinite capacities, it has the payload or the error
report of the closed form. What the host issues afterwards does not matter. -/
def Obligations.CallsEndInTheirClosedFormResult : Prop :=
  ∀ (s : State) (later : List HostMove), RegInv s → s.phase = .idle →
    (∀ p : Bytes, p.length < 2 ^ 32 →
      runResult { s with inbox := (encodeCommands p).map issueOf ++ later } =
        some (if fits (4 + p.length) s.cfg.cap then
          if utf8Ok s.cfg p then .output (joinTokens s.cfg (groupsOf p))
          else .failure .invalidInput [] 0 0#32 0#32
        else .failure .capacityExceeded [] 0 0#32 0#32)) ∧
    (s.cfg.cap = none → s.cfg.tokCap = none → ∀ text : Bytes,
      runResult { s with inbox := (decodeCommands text).map issueOf ++ later } =
        some (match decodeClosed s.cfg text with
          | .ok (_, payload) => .output payload
          | .error e => .failure (raiseCode e) (raiseEtok e) (raiseEpos e) (raiseEexp e) (raiseEhave e)))
end

