-- ==== Sys2Proof/Laws/Bits.lean ====
section
/-! SUPPORT. Bit strings: lengths, the value of a bit string, and cutting a bit string into slices. -/

namespace Sys2Proof.Machine

@[simp] theorem bitsMsb_length (n : Nat) (v : BitVec n) : (bitsMsb n v).length = n := by simp [bitsMsb]

@[simp] theorem bitQueue_length (e : Engine) : (bitQueue e).length = e.nb.toNat := by simp [bitQueue]

@[simp] theorem byteBits_nil : byteBits [] = [] := rfl

@[simp] theorem groupBits_nil : groupBits [] = [] := rfl

@[simp] theorem byteBits_cons (b : Byte) (bs : Bytes) : byteBits (b :: bs) = bitsMsb 8 b ++ byteBits bs := rfl

@[simp] theorem groupBits_cons (g : Index) (gs : List Index) :
    groupBits (g :: gs) = bitsMsb 6 g ++ groupBits gs := rfl

@[simp] theorem byteBits_append (as bs : Bytes) : byteBits (as ++ bs) = byteBits as ++ byteBits bs := by
  simp [byteBits]

@[simp] theorem groupBits_append (as bs : List Index) : groupBits (as ++ bs) = groupBits as ++ groupBits bs := by
  simp [groupBits]

/-- A concatenation of `B`-bit values has `B` bits for each. -/
theorem flatMap_bitsMsb_length (B : Nat) (vs : List (BitVec B)) :
    (vs.flatMap (bitsMsb B)).length = B * vs.length := by
  induction vs with
  | nil => simp
  | cons v vs ih => simp [ih, Nat.mul_add, Nat.add_comm]

@[simp] theorem byteBits_length (bs : Bytes) : (byteBits bs).length = 8 * bs.length :=
  flatMap_bitsMsb_length 8 bs

@[simp] theorem groupBits_length (gs : List Index) : (groupBits gs).length = 6 * gs.length :=
  flatMap_bitsMsb_length 6 gs

theorem valueMsb_append_singleton (l : List Bool) (b : Bool) : valueMsb (l ++ [b]) = 2 * valueMsb l + b.toNat := by
  simp [valueMsb, List.foldl_append]

/-- The value of the low `n` bits of a number, read most significant first. -/
theorem valueMsb_testBit (n x : Nat) :
    valueMsb ((List.range n).map (fun i => x.testBit (n - 1 - i))) = x % 2 ^ n := by
  induction n generalizing x with
  | zero => simp [valueMsb, Nat.mod_one]
  | succ n ih =>
    have h : (List.range n).map (fun i => x.testBit (n + 1 - 1 - i)) =
        (List.range n).map (fun i => (x / 2).testBit (n - 1 - i)) := by
      apply List.map_congr_left
      intro i hi
      have hi : i < n := List.mem_range.mp hi
      have e : n + 1 - 1 - i = (n - 1 - i) + 1 := by omega
      rw [e, Nat.testBit_succ]
    rw [List.range_succ, List.map_append, h, List.map_singleton, valueMsb_append_singleton, ih]
    have e : n + 1 - 1 - n = 0 := by omega
    rw [e, Nat.testBit_zero, Nat.pow_succ, Nat.mul_comm (2 ^ n) 2, Nat.mod_mul]
    have : (decide (x % 2 = 1)).toNat = x % 2 := by
      rcases Nat.mod_two_eq_zero_or_one x with h | h <;> simp [h]
    omega

/-- Reading a value's bits back gives the value. -/
theorem ofNat_valueMsb_bitsMsb (n : Nat) (v : BitVec n) : BitVec.ofNat n (valueMsb (bitsMsb n v)) = v := by
  have h : bitsMsb n v = (List.range n).map (fun i => v.toNat.testBit (n - 1 - i)) := by
    simp [bitsMsb, BitVec.getLsbD]
  apply BitVec.eq_of_toNat_eq
  rw [h, valueMsb_testBit, BitVec.toNat_ofNat, Nat.mod_mod, Nat.mod_eq_of_lt v.isLt]

/-- Cutting a concatenation of `B`-bit values gives the values back, whatever follows them (R46, R100). -/
theorem slices_flatMap (B : Nat) (vs : List (BitVec B)) (rest : List Bool) :
    slices B vs.length (vs.flatMap (bitsMsb B) ++ rest) = vs := by
  induction vs with
  | nil => rfl
  | cons v vs ih =>
    have tail : ∀ j, ((bitsMsb B v ++ (vs.flatMap (bitsMsb B) ++ rest)).drop (B * (j + 1))) =
        (vs.flatMap (bitsMsb B) ++ rest).drop (B * j) := by
      intro j
      rw [List.drop_append, bitsMsb_length]
      have : B * (j + 1) - B = B * j := by rw [Nat.mul_succ]; omega
      rw [this, List.drop_eq_nil_of_le (by rw [bitsMsb_length, Nat.mul_succ]; omega), List.nil_append]
    have head : (bitsMsb B v ++ (vs.flatMap (bitsMsb B) ++ rest)).take B = bitsMsb B v := by
      rw [List.take_append_of_le_length (by simp), List.take_of_length_le (by simp)]
    rw [slices] at ih ⊢
    rw [List.length_cons, List.range_succ_eq_map, List.map_cons, List.map_map, List.flatMap_cons,
      List.append_assoc]
    congr 1
    · rw [Nat.mul_zero, List.drop_zero, head, ofNat_valueMsb_bitsMsb]
    · refine Eq.trans (List.map_congr_left ?_) ih
      intro j _
      simp only [Function.comp_apply, tail]

/-- Equal bit strings of whole groups come from equal groups. -/
theorem flatMap_bitsMsb_injective (B : Nat) (as bs : List (BitVec B)) (hlen : as.length = bs.length)
    (h : as.flatMap (bitsMsb B) = bs.flatMap (bitsMsb B)) : as = bs := by
  have ha := slices_flatMap B as []
  have hb := slices_flatMap B bs []
  rw [h, hlen] at ha
  exact ha.symm.trans hb

end Sys2Proof.Machine
end

