-- ==== Sys2Proof/Laws/State.lean ====
section
/-! SUPPORT. What each named update of the state leaves in each field, true by definition. -/

namespace Sys2Proof.Machine

/-! Error entry (R145). -/

@[simp] theorem errorEntry_cfg (e : Raise) (s : State) : (errorEntry e s).cfg = s.cfg := rfl
@[simp] theorem errorEntry_inbox (e : Raise) (s : State) : (errorEntry e s).inbox = s.inbox := rfl
@[simp] theorem errorEntry_cbOk (e : Raise) (s : State) : (errorEntry e s).cbOk = s.cbOk := rfl
@[simp] theorem errorEntry_dir (e : Raise) (s : State) : (errorEntry e s).dir = s.dir := rfl
@[simp] theorem errorEntry_phase (e : Raise) (s : State) : (errorEntry e s).phase = .err := rfl
@[simp] theorem errorEntry_err (e : Raise) (s : State) : (errorEntry e s).err = raiseCode e := rfl
@[simp] theorem errorEntry_acc (e : Raise) (s : State) : (errorEntry e s).acc = 0#13 := rfl
@[simp] theorem errorEntry_nb (e : Raise) (s : State) : (errorEntry e s).nb = 0#4 := rfl
@[simp] theorem errorEntry_len (e : Raise) (s : State) : (errorEntry e s).len = 0#32 := rfl
@[simp] theorem errorEntry_cnt (e : Raise) (s : State) : (errorEntry e s).cnt = 0 := rfl
@[simp] theorem errorEntry_ntok (e : Raise) (s : State) : (errorEntry e s).ntok = 0 := rfl
@[simp] theorem errorEntry_pay (e : Raise) (s : State) : (errorEntry e s).pay = [] := rfl
@[simp] theorem errorEntry_pend (e : Raise) (s : State) : (errorEntry e s).pend = [] := rfl
@[simp] theorem errorEntry_buf (e : Raise) (s : State) : (errorEntry e s).buf = [] := rfl
@[simp] theorem errorEntry_tokbuf (e : Raise) (s : State) : (errorEntry e s).tokbuf = [] := rfl
@[simp] theorem errorEntry_out (e : Raise) (s : State) : (errorEntry e s).out = [] := rfl
@[simp] theorem errorEntry_etok (e : Raise) (s : State) : (errorEntry e s).etok = raiseEtok e := rfl
@[simp] theorem errorEntry_epos (e : Raise) (s : State) : (errorEntry e s).epos = raiseEpos e := rfl
@[simp] theorem errorEntry_eexp (e : Raise) (s : State) : (errorEntry e s).eexp = raiseEexp e := rfl
@[simp] theorem errorEntry_ehave (e : Raise) (s : State) : (errorEntry e s).ehave = raiseEhave e := rfl
@[simp] theorem errorEntry_lkp (e : Raise) (s : State) : (errorEntry e s).lkp = s.lkp := rfl

/-! `CLR` (R129). -/

@[simp] theorem clear_cfg (s : State) : (clear s).cfg = s.cfg := rfl
@[simp] theorem clear_inbox (s : State) : (clear s).inbox = s.inbox := rfl
@[simp] theorem clear_cbOk (s : State) : (clear s).cbOk = s.cbOk := rfl
@[simp] theorem clear_dir (s : State) : (clear s).dir = .encode := rfl
@[simp] theorem clear_phase (s : State) : (clear s).phase = .idle := rfl
@[simp] theorem clear_err (s : State) : (clear s).err = .none := rfl
@[simp] theorem clear_acc (s : State) : (clear s).acc = 0#13 := rfl
@[simp] theorem clear_nb (s : State) : (clear s).nb = 0#4 := rfl
@[simp] theorem clear_len (s : State) : (clear s).len = 0#32 := rfl
@[simp] theorem clear_cnt (s : State) : (clear s).cnt = 0 := rfl
@[simp] theorem clear_ntok (s : State) : (clear s).ntok = 0 := rfl
@[simp] theorem clear_pay (s : State) : (clear s).pay = [] := rfl
@[simp] theorem clear_pend (s : State) : (clear s).pend = [] := rfl
@[simp] theorem clear_buf (s : State) : (clear s).buf = [] := rfl
@[simp] theorem clear_tokbuf (s : State) : (clear s).tokbuf = [] := rfl
@[simp] theorem clear_out (s : State) : (clear s).out = [] := rfl
@[simp] theorem clear_etok (s : State) : (clear s).etok = [] := rfl
@[simp] theorem clear_epos (s : State) : (clear s).epos = 0 := rfl
@[simp] theorem clear_eexp (s : State) : (clear s).eexp = 0#32 := rfl
@[simp] theorem clear_ehave (s : State) : (clear s).ehave = 0#32 := rfl
@[simp] theorem clear_lkp (s : State) : (clear s).lkp = [] := rfl

/-! Taking a host move. -/

@[simp] theorem withInbox_cfg (m : List HostMove) (s : State) : (withInbox m s).cfg = s.cfg := rfl
@[simp] theorem withInbox_inbox (m : List HostMove) (s : State) : (withInbox m s).inbox = m := rfl
@[simp] theorem withInbox_cbOk (m : List HostMove) (s : State) : (withInbox m s).cbOk = s.cbOk := rfl
@[simp] theorem withInbox_dir (m : List HostMove) (s : State) : (withInbox m s).dir = s.dir := rfl
@[simp] theorem withInbox_phase (m : List HostMove) (s : State) : (withInbox m s).phase = s.phase := rfl
@[simp] theorem withInbox_err (m : List HostMove) (s : State) : (withInbox m s).err = s.err := rfl
@[simp] theorem withInbox_acc (m : List HostMove) (s : State) : (withInbox m s).acc = s.acc := rfl
@[simp] theorem withInbox_nb (m : List HostMove) (s : State) : (withInbox m s).nb = s.nb := rfl
@[simp] theorem withInbox_len (m : List HostMove) (s : State) : (withInbox m s).len = s.len := rfl
@[simp] theorem withInbox_cnt (m : List HostMove) (s : State) : (withInbox m s).cnt = s.cnt := rfl
@[simp] theorem withInbox_ntok (m : List HostMove) (s : State) : (withInbox m s).ntok = s.ntok := rfl
@[simp] theorem withInbox_pay (m : List HostMove) (s : State) : (withInbox m s).pay = s.pay := rfl
@[simp] theorem withInbox_pend (m : List HostMove) (s : State) : (withInbox m s).pend = s.pend := rfl
@[simp] theorem withInbox_buf (m : List HostMove) (s : State) : (withInbox m s).buf = s.buf := rfl
@[simp] theorem withInbox_tokbuf (m : List HostMove) (s : State) : (withInbox m s).tokbuf = s.tokbuf := rfl
@[simp] theorem withInbox_out (m : List HostMove) (s : State) : (withInbox m s).out = s.out := rfl
@[simp] theorem withInbox_etok (m : List HostMove) (s : State) : (withInbox m s).etok = s.etok := rfl
@[simp] theorem withInbox_epos (m : List HostMove) (s : State) : (withInbox m s).epos = s.epos := rfl
@[simp] theorem withInbox_eexp (m : List HostMove) (s : State) : (withInbox m s).eexp = s.eexp := rfl
@[simp] theorem withInbox_ehave (m : List HostMove) (s : State) : (withInbox m s).ehave = s.ehave := rfl
@[simp] theorem withInbox_lkp (m : List HostMove) (s : State) : (withInbox m s).lkp = s.lkp := rfl

/-! Writing the engine (R23). -/

@[simp] theorem setEngine_cfg (e : Engine) (s : State) : (setEngine e s).cfg = s.cfg := rfl
@[simp] theorem setEngine_inbox (e : Engine) (s : State) : (setEngine e s).inbox = s.inbox := rfl
@[simp] theorem setEngine_cbOk (e : Engine) (s : State) : (setEngine e s).cbOk = s.cbOk := rfl
@[simp] theorem setEngine_dir (e : Engine) (s : State) : (setEngine e s).dir = s.dir := rfl
@[simp] theorem setEngine_phase (e : Engine) (s : State) : (setEngine e s).phase = s.phase := rfl
@[simp] theorem setEngine_err (e : Engine) (s : State) : (setEngine e s).err = s.err := rfl
@[simp] theorem setEngine_acc (e : Engine) (s : State) : (setEngine e s).acc = e.acc := rfl
@[simp] theorem setEngine_nb (e : Engine) (s : State) : (setEngine e s).nb = e.nb := rfl
@[simp] theorem setEngine_len (e : Engine) (s : State) : (setEngine e s).len = s.len := rfl
@[simp] theorem setEngine_cnt (e : Engine) (s : State) : (setEngine e s).cnt = s.cnt := rfl
@[simp] theorem setEngine_ntok (e : Engine) (s : State) : (setEngine e s).ntok = s.ntok := rfl
@[simp] theorem setEngine_pay (e : Engine) (s : State) : (setEngine e s).pay = s.pay := rfl
@[simp] theorem setEngine_pend (e : Engine) (s : State) : (setEngine e s).pend = s.pend := rfl
@[simp] theorem setEngine_buf (e : Engine) (s : State) : (setEngine e s).buf = s.buf := rfl
@[simp] theorem setEngine_tokbuf (e : Engine) (s : State) : (setEngine e s).tokbuf = s.tokbuf := rfl
@[simp] theorem setEngine_out (e : Engine) (s : State) : (setEngine e s).out = s.out := rfl
@[simp] theorem setEngine_etok (e : Engine) (s : State) : (setEngine e s).etok = s.etok := rfl
@[simp] theorem setEngine_epos (e : Engine) (s : State) : (setEngine e s).epos = s.epos := rfl
@[simp] theorem setEngine_eexp (e : Engine) (s : State) : (setEngine e s).eexp = s.eexp := rfl
@[simp] theorem setEngine_ehave (e : Engine) (s : State) : (setEngine e s).ehave = s.ehave := rfl
@[simp] theorem setEngine_lkp (e : Engine) (s : State) : (setEngine e s).lkp = s.lkp := rfl

/-! `rg_clr` (R94). -/

@[simp] theorem rgClr_cfg (s : State) : (rgClr s).cfg = s.cfg := rfl
@[simp] theorem rgClr_inbox (s : State) : (rgClr s).inbox = s.inbox := rfl
@[simp] theorem rgClr_cbOk (s : State) : (rgClr s).cbOk = s.cbOk := rfl
@[simp] theorem rgClr_dir (s : State) : (rgClr s).dir = s.dir := rfl
@[simp] theorem rgClr_phase (s : State) : (rgClr s).phase = s.phase := rfl
@[simp] theorem rgClr_err (s : State) : (rgClr s).err = s.err := rfl
@[simp] theorem rgClr_acc (s : State) : (rgClr s).acc = 0#13 := rfl
@[simp] theorem rgClr_nb (s : State) : (rgClr s).nb = 0#4 := rfl
@[simp] theorem rgClr_len (s : State) : (rgClr s).len = s.len := rfl
@[simp] theorem rgClr_cnt (s : State) : (rgClr s).cnt = s.cnt := rfl
@[simp] theorem rgClr_ntok (s : State) : (rgClr s).ntok = s.ntok := rfl
@[simp] theorem rgClr_pay (s : State) : (rgClr s).pay = s.pay := rfl
@[simp] theorem rgClr_pend (s : State) : (rgClr s).pend = s.pend := rfl
@[simp] theorem rgClr_buf (s : State) : (rgClr s).buf = s.buf := rfl
@[simp] theorem rgClr_tokbuf (s : State) : (rgClr s).tokbuf = s.tokbuf := rfl
@[simp] theorem rgClr_out (s : State) : (rgClr s).out = s.out := rfl
@[simp] theorem rgClr_etok (s : State) : (rgClr s).etok = s.etok := rfl
@[simp] theorem rgClr_epos (s : State) : (rgClr s).epos = s.epos := rfl
@[simp] theorem rgClr_eexp (s : State) : (rgClr s).eexp = s.eexp := rfl
@[simp] theorem rgClr_ehave (s : State) : (rgClr s).ehave = s.ehave := rfl
@[simp] theorem rgClr_lkp (s : State) : (rgClr s).lkp = s.lkp := rfl

/-! `rg_drop` (R97). -/

@[simp] theorem rgDrop_cfg (s : State) : (rgDrop s).cfg = s.cfg := rfl
@[simp] theorem rgDrop_inbox (s : State) : (rgDrop s).inbox = s.inbox := rfl
@[simp] theorem rgDrop_cbOk (s : State) : (rgDrop s).cbOk = s.cbOk := rfl
@[simp] theorem rgDrop_dir (s : State) : (rgDrop s).dir = s.dir := rfl
@[simp] theorem rgDrop_phase (s : State) : (rgDrop s).phase = s.phase := rfl
@[simp] theorem rgDrop_err (s : State) : (rgDrop s).err = s.err := rfl
@[simp] theorem rgDrop_acc (s : State) : (rgDrop s).acc = 0#13 := rfl
@[simp] theorem rgDrop_nb (s : State) : (rgDrop s).nb = 0#4 := rfl
@[simp] theorem rgDrop_len (s : State) : (rgDrop s).len = s.len := rfl
@[simp] theorem rgDrop_cnt (s : State) : (rgDrop s).cnt = s.cnt := rfl
@[simp] theorem rgDrop_ntok (s : State) : (rgDrop s).ntok = s.ntok := rfl
@[simp] theorem rgDrop_pay (s : State) : (rgDrop s).pay = s.pay := rfl
@[simp] theorem rgDrop_pend (s : State) : (rgDrop s).pend = s.pend := rfl
@[simp] theorem rgDrop_buf (s : State) : (rgDrop s).buf = s.buf := rfl
@[simp] theorem rgDrop_tokbuf (s : State) : (rgDrop s).tokbuf = s.tokbuf := rfl
@[simp] theorem rgDrop_out (s : State) : (rgDrop s).out = s.out := rfl
@[simp] theorem rgDrop_etok (s : State) : (rgDrop s).etok = s.etok := rfl
@[simp] theorem rgDrop_epos (s : State) : (rgDrop s).epos = s.epos := rfl
@[simp] theorem rgDrop_eexp (s : State) : (rgDrop s).eexp = s.eexp := rfl
@[simp] theorem rgDrop_ehave (s : State) : (rgDrop s).ehave = s.ehave := rfl
@[simp] theorem rgDrop_lkp (s : State) : (rgDrop s).lkp = s.lkp := rfl

/-! `emit_token` (R103). -/

@[simp] theorem emitToken_cfg (v : Index) (s : State) : (emitToken v s).cfg = s.cfg := rfl
@[simp] theorem emitToken_inbox (v : Index) (s : State) : (emitToken v s).inbox = s.inbox := rfl
@[simp] theorem emitToken_cbOk (v : Index) (s : State) : (emitToken v s).cbOk = s.cbOk := rfl
@[simp] theorem emitToken_dir (v : Index) (s : State) : (emitToken v s).dir = s.dir := rfl
@[simp] theorem emitToken_phase (v : Index) (s : State) : (emitToken v s).phase = s.phase := rfl
@[simp] theorem emitToken_err (v : Index) (s : State) : (emitToken v s).err = s.err := rfl
@[simp] theorem emitToken_acc (v : Index) (s : State) : (emitToken v s).acc = s.acc := rfl
@[simp] theorem emitToken_nb (v : Index) (s : State) : (emitToken v s).nb = s.nb := rfl
@[simp] theorem emitToken_len (v : Index) (s : State) : (emitToken v s).len = s.len := rfl
@[simp] theorem emitToken_cnt (v : Index) (s : State) : (emitToken v s).cnt = s.cnt := rfl
@[simp] theorem emitToken_ntok (v : Index) (s : State) : (emitToken v s).ntok = s.ntok + 1 := rfl
@[simp] theorem emitToken_pay (v : Index) (s : State) : (emitToken v s).pay = s.pay := rfl
@[simp] theorem emitToken_pend (v : Index) (s : State) : (emitToken v s).pend = s.pend ++ ((if s.ntok = 0 then [] else [sep]) ++ cbFwd s.cfg v) := rfl
@[simp] theorem emitToken_buf (v : Index) (s : State) : (emitToken v s).buf = s.buf := rfl
@[simp] theorem emitToken_tokbuf (v : Index) (s : State) : (emitToken v s).tokbuf = s.tokbuf := rfl
@[simp] theorem emitToken_out (v : Index) (s : State) : (emitToken v s).out = s.out := rfl
@[simp] theorem emitToken_etok (v : Index) (s : State) : (emitToken v s).etok = s.etok := rfl
@[simp] theorem emitToken_epos (v : Index) (s : State) : (emitToken v s).epos = s.epos := rfl
@[simp] theorem emitToken_eexp (v : Index) (s : State) : (emitToken v s).eexp = s.eexp := rfl
@[simp] theorem emitToken_ehave (v : Index) (s : State) : (emitToken v s).ehave = s.ehave := rfl
@[simp] theorem emitToken_lkp (v : Index) (s : State) : (emitToken v s).lkp = s.lkp := rfl

/-! The commit of `ENCE` (R107). -/

@[simp] theorem commitText_cfg (s : State) : (commitText s).cfg = s.cfg := rfl
@[simp] theorem commitText_inbox (s : State) : (commitText s).inbox = s.inbox := rfl
@[simp] theorem commitText_cbOk (s : State) : (commitText s).cbOk = s.cbOk := rfl
@[simp] theorem commitText_dir (s : State) : (commitText s).dir = s.dir := rfl
@[simp] theorem commitText_phase (s : State) : (commitText s).phase = .done := rfl
@[simp] theorem commitText_err (s : State) : (commitText s).err = s.err := rfl
@[simp] theorem commitText_acc (s : State) : (commitText s).acc = s.acc := rfl
@[simp] theorem commitText_nb (s : State) : (commitText s).nb = s.nb := rfl
@[simp] theorem commitText_len (s : State) : (commitText s).len = s.len := rfl
@[simp] theorem commitText_cnt (s : State) : (commitText s).cnt = s.cnt := rfl
@[simp] theorem commitText_ntok (s : State) : (commitText s).ntok = s.ntok := rfl
@[simp] theorem commitText_pay (s : State) : (commitText s).pay = [] := rfl
@[simp] theorem commitText_pend (s : State) : (commitText s).pend = [] := rfl
@[simp] theorem commitText_buf (s : State) : (commitText s).buf = s.buf := rfl
@[simp] theorem commitText_tokbuf (s : State) : (commitText s).tokbuf = s.tokbuf := rfl
@[simp] theorem commitText_out (s : State) : (commitText s).out = s.pend := rfl
@[simp] theorem commitText_etok (s : State) : (commitText s).etok = s.etok := rfl
@[simp] theorem commitText_epos (s : State) : (commitText s).epos = s.epos := rfl
@[simp] theorem commitText_eexp (s : State) : (commitText s).eexp = s.eexp := rfl
@[simp] theorem commitText_ehave (s : State) : (commitText s).ehave = s.ehave := rfl
@[simp] theorem commitText_lkp (s : State) : (commitText s).lkp = s.lkp := rfl

/-! The commit of `DECE` (R117). -/

@[simp] theorem commitPayload_cfg (P : Bytes) (s : State) : (commitPayload P s).cfg = s.cfg := rfl
@[simp] theorem commitPayload_inbox (P : Bytes) (s : State) : (commitPayload P s).inbox = s.inbox := rfl
@[simp] theorem commitPayload_cbOk (P : Bytes) (s : State) : (commitPayload P s).cbOk = s.cbOk := rfl
@[simp] theorem commitPayload_dir (P : Bytes) (s : State) : (commitPayload P s).dir = s.dir := rfl
@[simp] theorem commitPayload_phase (P : Bytes) (s : State) : (commitPayload P s).phase = .done := rfl
@[simp] theorem commitPayload_err (P : Bytes) (s : State) : (commitPayload P s).err = s.err := rfl
@[simp] theorem commitPayload_acc (P : Bytes) (s : State) : (commitPayload P s).acc = s.acc := rfl
@[simp] theorem commitPayload_nb (P : Bytes) (s : State) : (commitPayload P s).nb = s.nb := rfl
@[simp] theorem commitPayload_len (P : Bytes) (s : State) : (commitPayload P s).len = s.len := rfl
@[simp] theorem commitPayload_cnt (P : Bytes) (s : State) : (commitPayload P s).cnt = s.cnt := rfl
@[simp] theorem commitPayload_ntok (P : Bytes) (s : State) : (commitPayload P s).ntok = s.ntok := rfl
@[simp] theorem commitPayload_pay (P : Bytes) (s : State) : (commitPayload P s).pay = s.pay := rfl
@[simp] theorem commitPayload_pend (P : Bytes) (s : State) : (commitPayload P s).pend = s.pend := rfl
@[simp] theorem commitPayload_buf (P : Bytes) (s : State) : (commitPayload P s).buf = [] := rfl
@[simp] theorem commitPayload_tokbuf (P : Bytes) (s : State) : (commitPayload P s).tokbuf = s.tokbuf := rfl
@[simp] theorem commitPayload_out (P : Bytes) (s : State) : (commitPayload P s).out = P := rfl
@[simp] theorem commitPayload_etok (P : Bytes) (s : State) : (commitPayload P s).etok = s.etok := rfl
@[simp] theorem commitPayload_epos (P : Bytes) (s : State) : (commitPayload P s).epos = s.epos := rfl
@[simp] theorem commitPayload_eexp (P : Bytes) (s : State) : (commitPayload P s).eexp = s.eexp := rfl
@[simp] theorem commitPayload_ehave (P : Bytes) (s : State) : (commitPayload P s).ehave = s.ehave := rfl
@[simp] theorem commitPayload_lkp (P : Bytes) (s : State) : (commitPayload P s).lkp = s.lkp := rfl

/-! `CBRD` (R88). -/

@[simp] theorem lookUp_cfg (v : Index) (s : State) : (lookUp v s).cfg = s.cfg := rfl
@[simp] theorem lookUp_inbox (v : Index) (s : State) : (lookUp v s).inbox = s.inbox := rfl
@[simp] theorem lookUp_cbOk (v : Index) (s : State) : (lookUp v s).cbOk = s.cbOk := rfl
@[simp] theorem lookUp_dir (v : Index) (s : State) : (lookUp v s).dir = s.dir := rfl
@[simp] theorem lookUp_phase (v : Index) (s : State) : (lookUp v s).phase = s.phase := rfl
@[simp] theorem lookUp_err (v : Index) (s : State) : (lookUp v s).err = s.err := rfl
@[simp] theorem lookUp_acc (v : Index) (s : State) : (lookUp v s).acc = s.acc := rfl
@[simp] theorem lookUp_nb (v : Index) (s : State) : (lookUp v s).nb = s.nb := rfl
@[simp] theorem lookUp_len (v : Index) (s : State) : (lookUp v s).len = s.len := rfl
@[simp] theorem lookUp_cnt (v : Index) (s : State) : (lookUp v s).cnt = s.cnt := rfl
@[simp] theorem lookUp_ntok (v : Index) (s : State) : (lookUp v s).ntok = s.ntok := rfl
@[simp] theorem lookUp_pay (v : Index) (s : State) : (lookUp v s).pay = s.pay := rfl
@[simp] theorem lookUp_pend (v : Index) (s : State) : (lookUp v s).pend = s.pend := rfl
@[simp] theorem lookUp_buf (v : Index) (s : State) : (lookUp v s).buf = s.buf := rfl
@[simp] theorem lookUp_tokbuf (v : Index) (s : State) : (lookUp v s).tokbuf = s.tokbuf := rfl
@[simp] theorem lookUp_out (v : Index) (s : State) : (lookUp v s).out = s.out := rfl
@[simp] theorem lookUp_etok (v : Index) (s : State) : (lookUp v s).etok = s.etok := rfl
@[simp] theorem lookUp_epos (v : Index) (s : State) : (lookUp v s).epos = s.epos := rfl
@[simp] theorem lookUp_eexp (v : Index) (s : State) : (lookUp v s).eexp = s.eexp := rfl
@[simp] theorem lookUp_ehave (v : Index) (s : State) : (lookUp v s).ehave = s.ehave := rfl
@[simp] theorem lookUp_lkp (v : Index) (s : State) : (lookUp v s).lkp = cbFwd s.cfg v := rfl

/-! The standard configuration (R9, R10). -/

@[simp] theorem standardConfig_ws8 : standardConfig.ws8 = standardWs8 := rfl
@[simp] theorem standardConfig_utf8 : standardConfig.utf8 = .table := rfl
@[simp] theorem standardConfig_cap : standardConfig.cap = none := rfl
@[simp] theorem standardConfig_tokCap : standardConfig.tokCap = none := rfl
@[simp] theorem standardConfig_core : standardConfig.core = coreTable := rfl
@[simp] theorem standardConfig_tone : standardConfig.tone = toneTable := rfl

end Sys2Proof.Machine
end

