-- ==== Sys2Proof/Laws/Codebook.lean ====
section
/-! SUPPORT. The codebook (R81 to R92): lengths, separators, and the inverse lookup. -/

namespace Sys2Proof.Machine

theorem mem_allIndices (v : Index) : v ∈ allIndices :=
  List.mem_map.mpr ⟨v.toNat, List.mem_range.mpr v.isLt, by simp⟩

/-- The build-time check says that different indices have different tokens (R81). -/
theorem cbFwd_injective (c : Config) (h : tokensDistinct c = true) (v w : Index) (e : cbFwd c v = cbFwd c w) :
    v = w := by
  have h := List.all_eq_true.mp h v (mem_allIndices v)
  have h := List.all_eq_true.mp h w (mem_allIndices w)
  simpa [e] using h

/-- A hit is an index whose token is the string (R87). -/
theorem cbFwd_of_cbRev (c : Config) (t : Bytes) (v : Index) (h : cbRev c t = some v) : cbFwd c v = t := by
  simpa using List.find?_some h

/-- What every admissible configuration provides: sizes of the tables' entries, the separator, and tokens
free of separators (R9, R41, R90). -/
theorem admissible_tables (c : Config) (h : c.Admissible) :
    c.core.length = 8 ∧ c.tone.length = 8 ∧ (∀ t ∈ c.core, 3 ≤ t.length ∧ t.length ≤ 6) ∧
      (∀ t ∈ c.tone, t.length ≤ 3) := by
  have h : c.admissible = true := h
  simp only [Config.admissible, Config.tablesOk, Bool.and_eq_true, beq_iff_eq, List.all_eq_true,
    decide_eq_true_eq] at h
  exact ⟨h.2.1.1.1, h.2.1.1.2, h.2.1.2, h.2.2⟩

theorem admissible_sep (c : Config) (h : c.Admissible) : c.ws8.contains sep = true := by
  have h : c.admissible = true := h
  simp only [Config.admissible, Config.ws8Ok, Bool.and_eq_true] at h
  exact h.1.1.1.2

theorem admissible_apart (c : Config) (h : c.Admissible) (v : Index) (b : Byte) (hb : b ∈ cbFwd c v) :
    c.ws8.contains b = false := by
  have h : c.admissible = true := h
  simp only [Config.admissible, Config.ws8Apart, Bool.and_eq_true] at h
  have h1 := List.all_eq_true.mp h.1.1.2 v (mem_allIndices v)
  have h2 := List.all_eq_true.mp h1 b hb
  simpa using h2

theorem admissible_tokCap (c : Config) (h : c.Admissible) (n : Nat) (hn : n ≤ 10) :
    fits n c.tokCap = true := by
  have h : c.admissible = true := h
  simp only [Config.admissible, Config.capsOk, Bool.and_eq_true] at h
  have h := h.1.2.2
  cases hc : c.tokCap with
  | none => rfl
  | some m =>
    rw [hc] at h
    simp only [decide_eq_true_eq] at h
    simp only [fits, decide_eq_true_eq]
    omega

/-- A token has 3 to 9 bytes (`TOK_MIN`, `TOK_MAX`, R8, R41). -/
theorem cbFwd_length (c : Config) (h : c.Admissible) (v : Index) :
    3 ≤ (cbFwd c v).length ∧ (cbFwd c v).length ≤ 9 := by
  obtain ⟨h1, h2, h3, h4⟩ := admissible_tables c h
  have hi : (coreIndex v).toNat < c.core.length := by rw [h1]; exact (coreIndex v).isLt
  have hj : (toneIndex v).toNat < c.tone.length := by rw [h2]; exact (toneIndex v).isLt
  rw [cbFwd, List.length_append, List.getD_eq_getElem _ _ hi, List.getD_eq_getElem _ _ hj]
  have a := h3 _ (List.getElem_mem hi)
  have b := h4 _ (List.getElem_mem hj)
  omega

theorem cbFwd_ne_nil (c : Config) (h : c.Admissible) (v : Index) : cbFwd c v ≠ [] := by
  intro e
  have := (cbFwd_length c h v).1
  rw [e] at this
  simp at this

end Sys2Proof.Machine
end

