-- ==== Sys2Proof/Laws/Decode.lean ====
section
/-! SUPPORT. The fields of a command word and of its operand (R71, R72): reading a field of a word built from
fields gives the field, and a word is built from its fields. -/

namespace Sys2Proof

@[simp] theorem cmdOp_cmdOf (op : Byte) (arg : BitVec 32) : cmdOp (cmdOf op arg) = op := by
  simp only [cmdOp, cmdOf]
  ext i hi
  have : ¬ 32 + i < 32 := by omega
  simp [this, show 32 + i < 40 by omega, BitVec.getLsbD_eq_getElem hi]

@[simp] theorem cmdArg_cmdOf (op : Byte) (arg : BitVec 32) : cmdArg (cmdOf op arg) = arg := by
  simp only [cmdArg, cmdOf]
  ext i hi
  simp [hi, show i < 40 by omega]

theorem cmdOf_fields (w : CmdWord) : cmdOf (cmdOp w) (cmdArg w) = w := by
  simp only [cmdOp, cmdArg, cmdOf]
  ext i hi
  rcases Nat.lt_or_ge i 32 with h | h
  · simp [h, BitVec.getLsbD_eq_getElem hi]
  · have h8 : i - 32 < 8 := by omega
    have e : 32 + (i - 32) = i := by omega
    simp [h, show ¬ i < 32 by omega, h8, e, BitVec.getLsbD_eq_getElem hi]

/-- Masking a word masks its fields (R74). -/
theorem cmdOp_and (w m : CmdWord) : cmdOp (w &&& m) = cmdOp w &&& cmdOp m := by
  simp only [cmdOp]
  ext i hi
  simp

theorem cmdArg_and (w m : CmdWord) : cmdArg (w &&& m) = cmdArg w &&& cmdArg m := by
  simp only [cmdArg]
  ext i hi
  simp

/-- A word is determined by its fields. -/
theorem cmdWord_ext (w w' : CmdWord) (h1 : cmdOp w = cmdOp w') (h2 : cmdArg w = cmdArg w') : w = w' := by
  rw [← cmdOf_fields w, h1, h2, cmdOf_fields]

/-- A byte operand has clear reserved bits and reads back (R72). -/
theorem byteOperand (b : Byte) :
    (b.setWidth 32).extractLsb' 8 24 = 0#24 ∧ (b.setWidth 32).extractLsb' 0 8 = b := by
  constructor <;> (ext i hi; simp [hi])
  intro; omega

/-- An operand with clear reserved bits is the byte it carries (R72). -/
theorem setWidth_byteOperand (a : BitVec 32) (h : a.extractLsb' 8 24 = 0#24) :
    (a.extractLsb' 0 8).setWidth 32 = a := by
  ext i hi
  rcases Nat.lt_or_ge i 8 with h8 | h8
  · simp [h8, BitVec.getLsbD_eq_getElem hi]
  · have hk := congrArg (fun x => x.getLsbD (i - 8)) h
    simp only [BitVec.getLsbD_extractLsb', BitVec.getLsbD_zero] at hk
    rw [show 8 + (i - 8) = i by omega] at hk
    have : a[i] = false := by simpa [show i - 8 < 24 by omega, BitVec.getLsbD_eq_getElem hi] using hk
    simp [show ¬ i < 8 by omega, this]

/-- An index operand has clear reserved bits and reads back (R72). -/
theorem indexOperand (v : Index) :
    (v.setWidth 32).extractLsb' 6 26 = 0#26 ∧ (v.setWidth 32).extractLsb' 0 6 = v := by
  constructor <;> (ext i hi; simp [hi])
  intro; omega

/-- An operand with clear reserved bits is the index it carries (R72). -/
theorem setWidth_indexOperand (a : BitVec 32) (h : a.extractLsb' 6 26 = 0#26) :
    (a.extractLsb' 0 6).setWidth 32 = a := by
  ext i hi
  rcases Nat.lt_or_ge i 6 with h6 | h6
  · simp [h6, BitVec.getLsbD_eq_getElem hi]
  · have hk := congrArg (fun x => x.getLsbD (i - 6)) h
    simp only [BitVec.getLsbD_extractLsb', BitVec.getLsbD_zero] at hk
    rw [show 6 + (i - 6) = i by omega] at hk
    have : a[i] = false := by simpa [show i - 6 < 26 by omega, BitVec.getLsbD_eq_getElem hi] using hk
    simp [show ¬ i < 6 by omega, this]

/-- Reading a token of the table by an index. -/
theorem encode_tokenInstr (v : Index) : encode (tokenInstr v) = .tok v := by
  obtain ⟨⟨n, hn⟩⟩ := v
  have hn : n < 64 := hn
  interval_cases n <;> rfl

end Sys2Proof
end

