-- ==== Sys2Proof/Laws/Ops.lean ====
section
/-! SUPPORT. What the shared operations can do: the dispatch by phase, error entry, reset. -/

namespace Sys2Proof.Machine

theorem inAnyPhase_fatal (body : State → State) (s : State) (h : s.phase = .fatal) : inAnyPhase body s = s := by
  simp [inAnyPhase, h]

theorem inAnyPhase_ok (body : State → State) (s : State) (h : s.phase ≠ .fatal) :
    inAnyPhase body s = body s := by
  unfold inAnyPhase
  split <;> simp_all

theorem whenLegal_discards (legal : Bool) (body : State → Except Raise State) (s : State)
    (h : s.phase = .err ∨ s.phase = .fatal) : whenLegal legal body s = s := by
  rcases h with h | h <;> simp [whenLegal, h]

theorem whenLegal_illegal (body : State → Except Raise State) (s : State)
    (h1 : s.phase ≠ .err) (h2 : s.phase ≠ .fatal) : whenLegal false body s = errorEntry .illegalOp s := by
  unfold whenLegal
  split <;> simp_all

theorem whenLegal_legal (body : State → Except Raise State) (s : State)
    (h1 : s.phase ≠ .err) (h2 : s.phase ≠ .fatal) : whenLegal true body s = settle s (body s) := by
  unfold whenLegal
  split <;> simp_all

/-- Everything a phase-checked command can do: be discarded, raise `IllegalOp`, raise an error of its own,
or have its effect (R130). -/
theorem whenLegal_cases (legal : Bool) (body : State → Except Raise State) (s : State) :
    (whenLegal legal body s = s ∧ (s.phase = .err ∨ s.phase = .fatal)) ∨
    (whenLegal legal body s = errorEntry .illegalOp s ∧ legal = false ∧ s.phase ≠ .err ∧ s.phase ≠ .fatal) ∨
    (∃ e, whenLegal legal body s = errorEntry e s ∧ legal = true ∧ body s = .error e ∧ s.phase ≠ .err ∧
      s.phase ≠ .fatal) ∨
    (∃ t, whenLegal legal body s = t ∧ legal = true ∧ body s = .ok t ∧ s.phase ≠ .err ∧ s.phase ≠ .fatal) := by
  by_cases h1 : s.phase = .err
  · exact .inl ⟨whenLegal_discards _ _ _ (.inl h1), .inl h1⟩
  by_cases h2 : s.phase = .fatal
  · exact .inl ⟨whenLegal_discards _ _ _ (.inr h2), .inr h2⟩
  cases legal
  · exact .inr (.inl ⟨whenLegal_illegal _ _ h1 h2, rfl, h1, h2⟩)
  · rw [whenLegal_legal _ _ h1 h2]
    cases hb : body s with
    | error e => exact .inr (.inr (.inl ⟨e, rfl, rfl, rfl, h1, h2⟩))
    | ok t => exact .inr (.inr (.inr ⟨t, rfl, rfl, rfl, h1, h2⟩))

/-- The named error of an error entry is never `none` nor the fatal one (R135). -/
theorem raiseCode_ne (e : Raise) : raiseCode e ≠ .none ∧ raiseCode e ≠ .codebookCollision := by
  cases e <;> exact ⟨nofun, nofun⟩

/-- Reset with tables that pass the check (R81, R154). -/
theorem resetBlock_pass (s : State) (h : tokensDistinct s.cfg = true) :
    resetBlock s = { clear s with cbOk := true } := by
  simp [resetBlock, cbInit, h, clear]

/-- Reset with tables that fail the check (R81, R144, R154). -/
theorem resetBlock_fail (s : State) (h : tokensDistinct s.cfg = false) :
    resetBlock s = { clear s with cbOk := false, phase := .fatal, err := .codebookCollision } := by
  simp [resetBlock, cbInit, h, clear]

end Sys2Proof.Machine
end

