-- ==== Sys2Proof/Laws/Regroup.lean ====
section
/-! SUPPORT. The regroup engine (R93 to R101): what a push, a flush and a sequence of pushes do to the
queue of buffered bits. -/

namespace Sys2Proof.Machine

/-- The canonical form of the engine: every bit at `NB` or above is 0 (R24). -/
def Canonical (e : Engine) : Prop := e.acc.toNat < 2 ^ e.nb.toNat

theorem emptyEngine_canonical : Canonical emptyEngine := by simp [Canonical, emptyEngine]

@[simp] theorem emptyEngine_nb : emptyEngine.nb = 0#4 := rfl

@[simp] theorem bitQueue_emptyEngine : bitQueue emptyEngine = [] := rfl

@[simp] theorem engineOf_setEngine (e : Engine) (s : State) : engineOf (setEngine e s) = e := rfl

@[simp] theorem engineOf_nb (s : State) : (engineOf s).nb = s.nb := rfl

@[simp] theorem engineOf_acc (s : State) : (engineOf s).acc = s.acc := rfl

/-- A canonical accumulator has no bit at `NB` or above. -/
theorem Canonical.getLsbD_eq_false {e : Engine} (h : Canonical e) {i : Nat} (hi : e.nb.toNat ≤ i) :
    e.acc.getLsbD i = false := by
  rw [BitVec.getLsbD]
  exact Nat.testBit_lt_two_pow (Nat.lt_of_lt_of_le h (Nat.pow_le_pow_right (by decide) hi))

/-- An accumulator masked to its low `NB` bits is canonical (R24, R95). -/
theorem canonical_lowMask (a : BitVec 13) (nb : BitVec 4) (h : nb.toNat ≤ 12) :
    Canonical ⟨a &&& lowMask nb, nb⟩ := by
  have hm : (lowMask nb).toNat < 2 ^ nb.toNat := by
    obtain ⟨⟨n, hn⟩⟩ := nb
    simp only [BitVec.toNat_ofFin] at h
    have key : ∀ k : Fin 13, (lowMask (BitVec.ofNat 4 k)).toNat < 2 ^ k.val := by decide
    have := key ⟨n, by omega⟩
    have e : BitVec.ofNat 4 n = ⟨⟨n, hn⟩⟩ := by
      apply BitVec.eq_of_toNat_eq
      simp only [BitVec.toNat_ofNat, BitVec.toNat_ofFin]
      omega
    rw [← e]
    simpa [Nat.mod_eq_of_lt hn] using this
  rw [Canonical, BitVec.toNat_and]
  exact Nat.lt_of_le_of_lt Nat.and_le_right hm

/-- The shift-in keeps the engine canonical while the count fits (R101). -/
theorem shiftIn_canonical (A : Nat) (x : BitVec A) (e : Engine) (hc : Canonical e)
    (hn : e.nb.toNat + A ≤ 12) : Canonical (shiftIn A x e) := by
  have hnb : (shiftIn A x e).nb.toNat = e.nb.toNat + A := by
    simp only [shiftIn, BitVec.toNat_add, BitVec.toNat_ofNat]
    omega
  rw [Canonical, hnb]
  simp only [shiftIn, BitVec.toNat_or, BitVec.toNat_shiftLeft, BitVec.toNat_setWidth]
  refine Nat.or_lt_two_pow ?_ ?_
  · refine Nat.lt_of_le_of_lt (Nat.mod_le _ _) ?_
    rw [Nat.shiftLeft_eq, Nat.pow_add]
    exact Nat.mul_lt_mul_of_pos_right hc (Nat.two_pow_pos A)
  · refine Nat.lt_of_le_of_lt (Nat.mod_le _ _) (Nat.lt_of_lt_of_le x.isLt ?_)
    exact Nat.pow_le_pow_right (by decide) (Nat.le_add_left _ _)

/-- Every four-bit count below a bound is one of the numerals below it. -/
theorem nb_cases (nb : BitVec 4) (h : nb.toNat < 8) :
    nb = 0#4 ∨ nb = 1#4 ∨ nb = 2#4 ∨ nb = 3#4 ∨ nb = 4#4 ∨ nb = 5#4 ∨ nb = 6#4 ∨ nb = 7#4 := by
  have : ∀ n : BitVec 4, n.toNat < 8 →
      n = 0#4 ∨ n = 1#4 ∨ n = 2#4 ∨ n = 3#4 ∨ n = 4#4 ∨ n = 5#4 ∨ n = 6#4 ∨ n = 7#4 := by decide
  exact this nb h

/-- What one push of a byte does, 8-to-6: the bits queue up behind the buffered ones, whole groups leave at
the front, fewer than 6 bits stay (R95, R98, R99). -/
structure PushSpec86 (e : Engine) (x : Byte) (r : List Index × Engine) : Prop where
  bits : groupBits r.1 ++ bitQueue r.2 = bitQueue e ++ bitsMsb 8 x
  count : r.1.length = (e.nb.toNat + 8) / 6
  nb : r.2.nb.toNat = (e.nb.toNat + 8) % 6
  canonical : Canonical r.2

theorem rgPush_8_6 (e : Engine) (x : Byte) (hc : Canonical e) (hn : e.nb.toNat < 6) :
    PushSpec86 e x (rgPush 8 6 x e) := by
  obtain ⟨acc, nb⟩ := e
  simp only at hn
  rcases nb_cases nb (by omega) with rfl | rfl | rfl | rfl | rfl | rfl | rfl | rfl
  case inr.inr.inr.inr.inr.inr.inl => simp at hn
  case inr.inr.inr.inr.inr.inr.inr => simp at hn
  all_goals
    have hb := fun i hi => hc.getLsbD_eq_false (i := i) hi
    simp only [BitVec.toNat_ofNat, Nat.reducePow, Nat.reduceMod] at hb
    constructor
    · simp [rgPush, drain, shiftIn, bitQueue, lowMask, bitsMsb, List.range, List.range.loop]
    · simp [rgPush, drain, shiftIn]
    · simp [rgPush, drain, shiftIn]
    · simp only [rgPush, drain, shiftIn]
      simp
      exact canonical_lowMask _ _ (by simp)

/-- What one push of an index does, 6-to-8 (R95, R98, R99). -/
structure PushSpec68 (e : Engine) (v : Index) (r : Bytes × Engine) : Prop where
  bits : byteBits r.1 ++ bitQueue r.2 = bitQueue e ++ bitsMsb 6 v
  count : r.1.length = (e.nb.toNat + 6) / 8
  nb : r.2.nb.toNat = (e.nb.toNat + 6) % 8
  canonical : Canonical r.2

theorem rgPush_6_8 (e : Engine) (v : Index) (hc : Canonical e) (hn : e.nb.toNat < 8) :
    PushSpec68 e v (rgPush 6 8 v e) := by
  obtain ⟨acc, nb⟩ := e
  simp only at hn
  rcases nb_cases nb (by omega) with rfl | rfl | rfl | rfl | rfl | rfl | rfl | rfl
  all_goals
    have hb := fun i hi => hc.getLsbD_eq_false (i := i) hi
    simp only [BitVec.toNat_ofNat, Nat.reducePow, Nat.reduceMod] at hb
    constructor
    · simp [rgPush, drain, shiftIn, bitQueue, lowMask, bitsMsb, List.range, List.range.loop]
    · simp [rgPush, drain, shiftIn]
    · simp [rgPush, drain, shiftIn]
    · simp only [rgPush, drain, shiftIn]
      simp
      first
        | exact canonical_lowMask _ _ (by simp)
        | simpa [shiftIn] using shiftIn_canonical 6 v _ hc (by simp)

/-- The loop of `rg_push` ends with fewer than `B` bits buffered, for any count (R95, R99). -/
theorem drain_exits (B : Nat) (hB : B = 6 ∨ B = 8) (e : Engine) : (drain B 2 e).2.nb.toNat < B := by
  obtain ⟨acc, nb⟩ := e
  have h6 : ∀ n : BitVec 4, (if 6 ≤ n.toNat then
      (if 6 ≤ (n - 6#4).toNat then n - 6#4 - 6#4 else n - 6#4) else n).toNat < 6 := by decide
  have h8 : ∀ n : BitVec 4, (if 8 ≤ n.toNat then
      (if 8 ≤ (n - 8#4).toNat then n - 8#4 - 8#4 else n - 8#4) else n).toNat < 8 := by decide
  rcases hB with rfl | rfl
  · refine Nat.lt_of_le_of_lt (Nat.le_of_eq ?_) (h6 nb)
    simp only [drain]
    split <;> [split; skip] <;> simp_all
  · refine Nat.lt_of_le_of_lt (Nat.le_of_eq ?_) (h8 nb)
    simp only [drain]
    split <;> [split; skip] <;> simp_all

/-- A push of an index never gives more than one byte, for any count (R99, R113). -/
theorem rgPush_6_8_length_le (v : Index) (e : Engine) : (rgPush 6 8 v e).1.length ≤ 1 := by
  obtain ⟨acc, nb⟩ := e
  have h : ∀ n : BitVec 4, 8 ≤ n.toNat → ¬ 8 ≤ (n - 8#4).toNat := by decide
  simp only [rgPush, drain]
  split
  · rename_i h1
    rw [if_neg (h _ h1)]
    simp
  · simp

/-- `rg_flush(6)` empties a non-empty queue into one group, zeros on the low side (R96, R98). -/
theorem groupBits_rgFlush (e : Engine) (hc : Canonical e) (hn : e.nb.toNat < 6) :
    groupBits (rgFlush 6 e) =
      bitQueue e ++ List.replicate (if e.nb.toNat = 0 then 0 else 6 - e.nb.toNat) false := by
  obtain ⟨acc, nb⟩ := e
  simp only at hn
  rcases nb_cases nb (by omega) with rfl | rfl | rfl | rfl | rfl | rfl | rfl | rfl
  case inr.inr.inr.inr.inr.inr.inl => simp at hn
  case inr.inr.inr.inr.inr.inr.inr => simp at hn
  all_goals
    have hb := fun i hi => hc.getLsbD_eq_false (i := i) hi
    simp only [BitVec.toNat_ofNat, Nat.reducePow, Nat.reduceMod] at hb
    simp [rgFlush, bitQueue, bitsMsb, List.range, List.range.loop, List.replicate]

theorem rgFlush_length (e : Engine) : (rgFlush 6 e).length = if e.nb = 0#4 then 0 else 1 := by
  rw [rgFlush]
  split <;> rfl

/-- Pushing bytes one after another, 8-to-6 (R99, R100). -/
theorem pushAll_8_6 (xs : Bytes) (e : Engine) (hc : Canonical e) (hn : e.nb.toNat < 6) :
    groupBits (pushAll 8 6 xs e).1 ++ bitQueue (pushAll 8 6 xs e).2 = bitQueue e ++ byteBits xs ∧
    (pushAll 8 6 xs e).1.length = (e.nb.toNat + 8 * xs.length) / 6 ∧
    (pushAll 8 6 xs e).2.nb.toNat = (e.nb.toNat + 8 * xs.length) % 6 ∧
    Canonical (pushAll 8 6 xs e).2 := by
  induction xs generalizing e with
  | nil =>
    refine ⟨by simp [pushAll], ?_, ?_, hc⟩
    · simp only [pushAll, List.length_nil]; omega
    · simp only [pushAll, List.length_nil]; omega
  | cons x xs ih =>
    have hp := rgPush_8_6 e x hc hn
    have hn' : (rgPush 8 6 x e).2.nb.toNat < 6 := by have := hp.nb; omega
    obtain ⟨hbits, hlen, hnb, hcan⟩ := ih _ hp.canonical hn'
    refine ⟨?_, ?_, ?_, hcan⟩
    · simp only [pushAll, groupBits_append, byteBits_cons, List.append_assoc]
      rw [hbits, ← List.append_assoc, hp.bits, List.append_assoc]
    · simp only [pushAll, List.length_append, List.length_cons, hlen, hp.count, hp.nb]; omega
    · simp only [pushAll, List.length_cons, hnb, hp.nb]; omega

/-- Pushing indices one after another, 6-to-8 (R99, R100). -/
theorem pushAll_6_8 (vs : List Index) (e : Engine) (hc : Canonical e) (hn : e.nb.toNat < 8) :
    byteBits (pushAll 6 8 vs e).1 ++ bitQueue (pushAll 6 8 vs e).2 = bitQueue e ++ groupBits vs ∧
    (pushAll 6 8 vs e).1.length = (e.nb.toNat + 6 * vs.length) / 8 ∧
    (pushAll 6 8 vs e).2.nb.toNat = (e.nb.toNat + 6 * vs.length) % 8 ∧
    Canonical (pushAll 6 8 vs e).2 := by
  induction vs generalizing e with
  | nil =>
    refine ⟨by simp [pushAll], ?_, ?_, hc⟩
    · simp only [pushAll, List.length_nil]; omega
    · simp only [pushAll, List.length_nil]; omega
  | cons v vs ih =>
    have hp := rgPush_6_8 e v hc hn
    have hn' : (rgPush 6 8 v e).2.nb.toNat < 8 := by have := hp.nb; omega
    obtain ⟨hbits, hlen, hnb, hcan⟩ := ih _ hp.canonical hn'
    refine ⟨?_, ?_, ?_, hcan⟩
    · simp only [pushAll, byteBits_append, groupBits_cons, List.append_assoc]
      rw [hbits, ← List.append_assoc, hp.bits, List.append_assoc]
    · simp only [pushAll, List.length_append, List.length_cons, hlen, hp.count, hp.nb]; omega
    · simp only [pushAll, List.length_cons, hnb, hp.nb]; omega

end Sys2Proof.Machine
end

