-- ==== Sys2Proof/Laws/Decoder.lean ====
section
/-! SUPPORT. The decoder's shared operations (R113, R114, R117): what they can do. -/

namespace Sys2Proof.Machine

/-- Everything taking one index in can do: append the byte that comes out, or raise `CapacityExceeded`
when there is one and no room (R113). -/
theorem decSym_eq (v : Index) (s : State) :
    decSym v s =
      if (rgPush 6 8 v (engineOf s)).1 = [] ∨ fits (s.buf.length + 1) s.cfg.cap = true then
        .ok { s with
          acc := (rgPush 6 8 v (engineOf s)).2.acc
          nb := (rgPush 6 8 v (engineOf s)).2.nb
          buf := s.buf ++ (rgPush 6 8 v (engineOf s)).1
          cnt := s.cnt + (rgPush 6 8 v (engineOf s)).1.length }
      else .error .capacityExceeded := by
  have hl := rgPush_6_8_length_le v (engineOf s)
  simp only [decSym]
  generalize rgPush 6 8 v (engineOf s) = r at hl
  obtain ⟨outs, e⟩ := r
  match outs, hl with
  | [], _ => simp [appendBuf, setEngine]
  | [y], _ =>
    by_cases hf : fits (s.buf.length + 1) s.cfg.cap = true
    · simp [appendBuf, setEngine, hf]
    · simp [appendBuf, hf]

/-- Everything closing a token can do (R114). -/
theorem tkClose_cases (s : State) :
    (s.tokbuf = [] ∧ tkClose s = .ok s) ∨
    (s.tokbuf ≠ [] ∧ cbRev s.cfg s.tokbuf = none ∧ tkClose s = .error (.unknownToken s.tokbuf s.ntok)) ∨
    (∃ v, s.tokbuf ≠ [] ∧ cbRev s.cfg s.tokbuf = some v ∧
      tkClose s = decSym v { s with tokbuf := [], ntok := s.ntok + 1 }) := by
  by_cases h : s.tokbuf = []
  · exact .inl ⟨h, by simp [tkClose, h]⟩
  · cases hv : cbRev s.cfg s.tokbuf with
    | none => exact .inr (.inl ⟨h, rfl, by simp [tkClose, h, hv]⟩)
    | some v => exact .inr (.inr ⟨v, h, rfl, by simp [tkClose, h, hv]⟩)

/-- The frame checks of `DECE`, in order (R117 to R120). -/
theorem finishFrame_eq (s : State) :
    finishFrame s = match frameClosed s.cfg s.buf with
      | .error e => .error e
      | .ok P => .ok { s with len := headerOf s.buf, out := P, buf := [], phase := .done } := by
  match hb : s.buf with
  | [] => simp [finishFrame, hdrRead, hb, frameClosed, hdrBytes, Bind.bind, Except.bind]
  | [_] => simp [finishFrame, hdrRead, hb, frameClosed, hdrBytes, Bind.bind, Except.bind]
  | [_, _] => simp [finishFrame, hdrRead, hb, frameClosed, hdrBytes, Bind.bind, Except.bind]
  | [_, _, _] => simp [finishFrame, hdrRead, hb, frameClosed, hdrBytes, Bind.bind, Except.bind]
  | b0 :: b1 :: b2 :: b3 :: rest =>
    simp only [finishFrame, hdrRead, hb, Bind.bind, Except.bind, paySlice, payCheck, requireElse, frameClosed,
      headerOf, List.getD_cons_zero, List.getD_cons_succ, hdrBytes, commitPayload]
    have h4 : ¬ (b0 :: b1 :: b2 :: b3 :: rest).length < 4 := by simp
    by_cases hN : (be32 b0 b1 b2 b3).toNat ≤ (b0 :: b1 :: b2 :: b3 :: rest).length - 4
    · have hN' : ¬ (b0 :: b1 :: b2 :: b3 :: rest).length - 4 < (be32 b0 b1 b2 b3).toNat := by omega
      simp only [h4, hN, hN', if_true, if_false]
      by_cases hu : utf8Ok s.cfg (((b0 :: b1 :: b2 :: b3 :: rest).drop 4).take (be32 b0 b1 b2 b3).toNat) = true
      · simp only [hu, if_true]
      · simp only [hu]; rfl
    · have hN' : (b0 :: b1 :: b2 :: b3 :: rest).length - 4 < (be32 b0 b1 b2 b3).toNat := by omega
      simp only [h4, hN, hN', if_true, if_false]

end Sys2Proof.Machine
end

