-- ==== Sys2Proof/Laws/Encoder.lean ====
section
/-! SUPPORT. The encoder's shared operations (R103, R104): what emitting groups and packing bytes leaves. -/

namespace Sys2Proof.Machine

/-- The text that emitting groups appends when `n` tokens were emitted before (R103). -/
def emitText (c : Config) : Nat → List Index → Bytes
  | _, [] => []
  | n, g :: gs => (if n = 0 then [] else [sep]) ++ cbFwd c g ++ emitText c (n + 1) gs

@[simp] theorem emitText_nil (c : Config) (n : Nat) : emitText c n [] = [] := rfl

theorem emitText_append (c : Config) (n : Nat) (as bs : List Index) :
    emitText c n (as ++ bs) = emitText c n as ++ emitText c (n + as.length) bs := by
  induction as generalizing n with
  | nil => simp
  | cons a as ih =>
    have : n + (a :: as).length = n + 1 + as.length := by simp only [List.length_cons]; omega
    simp only [List.cons_append, emitText, ih, List.append_assoc, this]

/-- After a first token every token is written behind one separator (R103). -/
theorem emitText_pos (c : Config) (n : Nat) (hn : 0 < n) (gs : List Index) :
    emitText c n gs = gs.flatMap (fun g => sep :: cbFwd c g) := by
  induction gs generalizing n with
  | nil => rfl
  | cons g gs ih =>
    have : n ≠ 0 := by omega
    simp [emitText, this, ih (n + 1) (by omega)]

/-- Emitting from the start of a call writes the token text of the groups (R66, R103). -/
theorem emitText_zero (c : Config) (gs : List Index) : emitText c 0 gs = joinTokens c gs := by
  cases gs with
  | nil => rfl
  | cons g gs =>
    induction gs generalizing g with
    | nil => simp [emitText, joinTokens]
    | cons h gs ih =>
      have e := ih h
      simp only [emitText] at e ⊢
      simp only [joinTokens, List.map_cons, List.intercalate_cons_cons] at e ⊢
      rw [← e, emitText_pos c 2 (by omega), emitText_pos c 1 (by omega)]
      simp

/-- What emitting writes, in the closed form's terms (R66, R103). -/
theorem emitText_eq_textAfter (c : Config) (n : Nat) (gs : List Index) : emitText c n gs = textAfter c n gs := by
  rw [textAfter]
  split
  · rename_i h; rw [h, emitText_zero]
  · rename_i h; rw [emitText_pos c n (by omega)]

/-- Token text continues by emitting (R66, R103). -/
theorem joinTokens_append (c : Config) (as bs : List Index) :
    joinTokens c (as ++ bs) = joinTokens c as ++ emitText c as.length bs := by
  rw [← emitText_zero, ← emitText_zero, emitText_append, Nat.zero_add]

/-- Everything emitting groups does (R103, R104). -/
theorem emitAll_eq (gs : List Index) (s : State) :
    emitAll gs s = { s with pend := s.pend ++ emitText s.cfg s.ntok gs, ntok := s.ntok + gs.length } := by
  induction gs generalizing s with
  | nil => simp [emitAll]
  | cons g gs ih =>
    have e : emitAll (g :: gs) s = emitAll gs (emitToken g s) := rfl
    rw [e, ih]
    simp only [emitToken, emitText, List.append_assoc, List.length_cons]
    congr 1
    omega

/-- Everything packing one frame byte does (R104). -/
theorem encByte_eq (x : Byte) (s : State) :
    encByte x s = { s with
      acc := (rgPush 8 6 x (engineOf s)).2.acc
      nb := (rgPush 8 6 x (engineOf s)).2.nb
      pend := s.pend ++ emitText s.cfg s.ntok (rgPush 8 6 x (engineOf s)).1
      ntok := s.ntok + (rgPush 8 6 x (engineOf s)).1.length } := by
  rw [encByte, emitAll_eq]
  rfl

/-- Packing frame bytes in turn is one push of the whole sequence (R100, R104). -/
theorem foldl_encByte (xs : Bytes) (s : State) :
    xs.foldl (fun t x => encByte x t) s =
      emitAll (pushAll 8 6 xs (engineOf s)).1 (setEngine (pushAll 8 6 xs (engineOf s)).2 s) := by
  induction xs generalizing s with
  | nil => rfl
  | cons x xs ih =>
    rw [List.foldl_cons, ih, encByte_eq]
    simp only [emitAll_eq, pushAll, engineOf, setEngine, emitText_append, List.append_assoc,
      List.length_append, Nat.add_assoc]

/-- Everything the flush of `ENCE` does (R96, R107). -/
theorem flushGroup_eq (s : State) :
    flushGroup s = { s with
      acc := 0#13
      nb := 0#4
      pend := s.pend ++ emitText s.cfg s.ntok (rgFlush 6 (engineOf s))
      ntok := s.ntok + (rgFlush 6 (engineOf s)).length } := by
  rw [flushGroup, emitAll_eq]
  rfl

/-- `ENCB`'s packing of the header (R105). -/
theorem encbBody_eq (L : Length) (s : State) (h : fits (4 + L.toNat) s.cfg.cap = true) :
    encbBody L s = .ok { s with
      dir := .encode
      len := L
      cnt := 0
      phase := .enc
      acc := (pushAll 8 6 (be32Bytes L) emptyEngine).2.acc
      nb := (pushAll 8 6 (be32Bytes L) emptyEngine).2.nb
      pend := s.pend ++ joinTokens s.cfg (pushAll 8 6 (be32Bytes L) emptyEngine).1
      ntok := (pushAll 8 6 (be32Bytes L) emptyEngine).1.length } := by
  have e := foldl_encByte (be32Bytes L) (rgClr { s with dir := .encode, len := L, cnt := 0, ntok := 0 })
  simp only [be32Bytes, List.foldl_cons, List.foldl_nil] at e
  simp only [encbBody, h, if_true, e]
  rw [emitAll_eq]
  simp only [setEngine, rgClr, engineOf, emptyEngine, be32Bytes, emitText_zero, Nat.zero_add]

end Sys2Proof.Machine
end

