-- ==== Sys2Proof/Laws/Exec.lean ====
section
/-! SUPPORT. What `exec` is for each instruction, the 64 tokens at once, and what delivering bytes does. -/

namespace Sys2Proof.Machine

/-- Every token instruction delivers the token of its index. -/
theorem exec_tokenInstr (v : Index) (s : State) : exec (tokenInstr v) s = .next (deliverToken v s) := by
  obtain ⟨⟨n, hn⟩⟩ := v
  have hn : n < 64 := hn
  interval_cases n <;> rfl

/-- The instructions with a token encoding are the token instructions. -/
theorem eq_tokenInstr_of_encode (i : Instr) (v : Index) (h : encode i = .tok v) : i = tokenInstr v := by
  cases i <;> simp only [encode, reduceCtorEq, Wire.tok.injEq] at h <;> subst h <;> rfl

/-- Every instruction is one of the nine commands or a token. -/
theorem command_or_token (i : Instr) :
    i = .nop ∨ i = .clr ∨ (∃ L, i = .encb L) ∨ (∃ b, i = .encp b) ∨ i = .ence ∨ i = .decb ∨
      (∃ b, i = .decp b) ∨ i = .dece ∨ (∃ v, i = .cbrd v) ∨ (∃ v, i = tokenInstr v ∧ encode i = .tok v) := by
  cases i
  case nop => exact .inl rfl
  case clr => exact .inr (.inl rfl)
  case encb L => exact .inr (.inr (.inl ⟨L, rfl⟩))
  case encp b => exact .inr (.inr (.inr (.inl ⟨b, rfl⟩)))
  case ence => exact .inr (.inr (.inr (.inr (.inl rfl))))
  case decb => exact .inr (.inr (.inr (.inr (.inr (.inl rfl)))))
  case decp b => exact .inr (.inr (.inr (.inr (.inr (.inr (.inl ⟨b, rfl⟩))))))
  case dece => exact .inr (.inr (.inr (.inr (.inr (.inr (.inr (.inl rfl)))))))
  case cbrd v => exact .inr (.inr (.inr (.inr (.inr (.inr (.inr (.inr (.inl ⟨v, rfl⟩))))))))
  all_goals exact .inr (.inr (.inr (.inr (.inr (.inr (.inr (.inr (.inr ⟨_, rfl, rfl⟩))))))))

@[simp] theorem deliver_nil (s : State) : deliver [] s = s := rfl

@[simp] theorem deliver_cons (b : Byte) (bs : Bytes) (s : State) :
    deliver (b :: bs) s = deliver bs (putByte b s) := rfl

theorem deliver_append (as bs : Bytes) (s : State) : deliver (as ++ bs) s = deliver bs (deliver as s) := by
  simp [deliver, List.foldl_append]

/-- A property that every `DECP` keeps is kept by delivering bytes. -/
theorem deliver_keeps (P : State → Prop) (hP : ∀ b s, P s → P (putByte b s)) (bs : Bytes) (s : State) (h : P s) :
    P (deliver bs s) := by
  induction bs generalizing s with
  | nil => exact h
  | cons b bs ih => exact ih _ (hP b s h)

theorem putByte_discards (b : Byte) (s : State) (h : s.phase = .err ∨ s.phase = .fatal) : putByte b s = s :=
  whenLegal_discards _ _ _ h

theorem deliver_discards (bs : Bytes) (s : State) (h : s.phase = .err ∨ s.phase = .fatal) : deliver bs s = s := by
  induction bs with
  | nil => rfl
  | cons b bs ih => rw [deliver_cons, putByte_discards b s h, ih]

theorem putByte_illegal (b : Byte) (s : State) (h : s.phase = .idle ∨ s.phase = .enc ∨ s.phase = .done) :
    putByte b s = errorEntry .illegalOp s := by
  rcases h with h | h | h <;> simp [putByte, whenLegal, h]

/-- Bytes put to the decoder outside a decode call: the first raises `IllegalOp`, the rest are discarded. -/
theorem deliver_illegal (bs : Bytes) (hbs : bs ≠ []) (s : State)
    (h : s.phase = .idle ∨ s.phase = .enc ∨ s.phase = .done) : deliver bs s = errorEntry .illegalOp s := by
  cases bs with
  | nil => exact absurd rfl hbs
  | cons b bs => rw [deliver_cons, putByte_illegal b s h, deliver_discards _ _ (.inl rfl)]

theorem putByte_dec (b : Byte) (s : State) (h : s.phase = .dec) : putByte b s = settle s (decpBody b s) := by
  simp [putByte, whenLegal, h]

/-- Ordinary bytes that fit are appended to the open token (R116). -/
theorem deliver_ordinary (bs : Bytes) (s : State) (h : s.phase = .dec)
    (hw : ∀ b ∈ bs, s.cfg.ws8.contains b = false) (hf : fits (s.tokbuf.length + bs.length) s.cfg.tokCap = true) :
    deliver bs s = { s with tokbuf := s.tokbuf ++ bs } := by
  induction bs generalizing s with
  | nil => simp
  | cons b bs ih =>
    have hb : s.cfg.ws8.contains b = false := hw b (by simp)
    have hf1 : fits (s.tokbuf.length + 1) s.cfg.tokCap = true := by
      revert hf
      cases s.cfg.tokCap with
      | none => simp [fits]
      | some c => simp only [fits, List.length_cons, decide_eq_true_eq]; omega
    have e : putByte b s = { s with tokbuf := s.tokbuf ++ [b] } := by
      rw [putByte_dec b s h]
      simp only [decpBody, hb, hf1, Bool.false_eq_true, if_false, if_true, settle]
    rw [deliver_cons, e, ih { s with tokbuf := s.tokbuf ++ [b] } h (fun b' hb' => hw b' (List.mem_cons_of_mem _ hb'))]
    · simp
    · simpa [Nat.add_assoc, Nat.add_comm 1] using hf

/-- A separator closes the open token (R116). -/
theorem putByte_separator (b : Byte) (s : State) (h : s.phase = .dec) (hw : s.cfg.ws8.contains b = true) :
    putByte b s = settle s (tkClose s) := by
  rw [putByte_dec b s h]
  simp only [decpBody, hw, if_true]

/-- The rule of `DECE` after the last token is closed (R117). -/
theorem deceBody_eq (s : State) :
    deceBody s = match tkClose s with
      | .error e => .error e
      | .ok u =>
        if 0 < u.ntok then
          match frameClosed u.cfg u.buf with
          | .error e => .error e
          | .ok P => .ok { u with
              acc := 0#13, nb := 0#4, len := headerOf u.buf, out := P, buf := [], phase := .done }
        else .error .emptyInput := by
  simp only [deceBody, Bind.bind, Except.bind, requireElse]
  cases tkClose s with
  | error e => rfl
  | ok u =>
    by_cases hn : 0 < u.ntok
    · simp only [hn, decide_true, if_true]
      rw [finishFrame_eq]
      rfl
    · simp [hn]

end Sys2Proof.Machine
end

