-- ==== Sys2Proof/Laws/Runs.lean ====
section
/-! SUPPORT. What a run of issued commands is (R80): no command reads or writes the host's later moves, so the
run of a command followed by others is `exec` of the first followed by the run of the others. -/

namespace Sys2Proof.Machine

theorem errorEntry_withInbox (e : Raise) (r : List HostMove) (s : State) :
    errorEntry e (withInbox r s) = withInbox r (errorEntry e s) := rfl

theorem whenLegal_withInbox (legal : Bool) (body : State → Except Raise State) (r : List HostMove) (s : State)
    (h : body (withInbox r s) = (body s).map (withInbox r)) :
    whenLegal legal body (withInbox r s) = withInbox r (whenLegal legal body s) := by
  have e : settle (withInbox r s) (body (withInbox r s)) = withInbox r (settle s (body s)) := by
    rw [h]
    cases body s <;> rfl
  simp only [whenLegal, withInbox_phase, e, errorEntry_withInbox]
  cases s.phase <;> cases legal <;> rfl

theorem encByte_withInbox (x : Byte) (r : List HostMove) (s : State) :
    encByte x (withInbox r s) = withInbox r (encByte x s) := by
  rw [encByte_eq, encByte_eq]
  rfl

theorem engineOf_withInbox (r : List HostMove) (s : State) : engineOf (withInbox r s) = engineOf s := rfl

theorem decSym_withInbox (v : Index) (r : List HostMove) (s : State) :
    decSym v (withInbox r s) = (decSym v s).map (withInbox r) := by
  by_cases h : (rgPush 6 8 v (engineOf s)).1 = [] ∨ fits (s.buf.length + 1) s.cfg.cap = true
  · simp only [decSym_eq, engineOf_withInbox, withInbox_buf, withInbox_cfg, h, if_true]
    rfl
  · simp only [decSym_eq, engineOf_withInbox, withInbox_buf, withInbox_cfg, h, if_false]
    rfl

theorem tkClose_withInbox (r : List HostMove) (s : State) :
    tkClose (withInbox r s) = (tkClose s).map (withInbox r) := by
  rcases tkClose_cases s with ⟨h, e⟩ | ⟨h, hr, e⟩ | ⟨v, h, hr, e⟩
  · rw [e]
    simp [tkClose, h, Except.map]
  · rw [e]
    simp [tkClose, h, hr, Except.map]
  · rw [e, ← decSym_withInbox]
    simp only [tkClose, withInbox_tokbuf, withInbox_cfg, withInbox_ntok, hr]
    rw [if_neg h]
    rfl

theorem decpBody_withInbox (b : Byte) (r : List HostMove) (s : State) :
    decpBody b (withInbox r s) = (decpBody b s).map (withInbox r) := by
  by_cases h : s.cfg.ws8.contains b = true
  · simp only [decpBody, withInbox_cfg, h, if_true]
    exact tkClose_withInbox r s
  · by_cases hf : fits (s.tokbuf.length + 1) s.cfg.tokCap = true
    · simp only [decpBody, withInbox_tokbuf, withInbox_cfg, h, hf, if_true]
      rfl
    · simp only [decpBody, withInbox_tokbuf, withInbox_cfg, h, hf]
      rfl

theorem deceBody_withInbox (r : List HostMove) (s : State) :
    deceBody (withInbox r s) = (deceBody s).map (withInbox r) := by
  simp only [deceBody_eq, tkClose_withInbox]
  cases tkClose s with
  | error e => rfl
  | ok u =>
    by_cases h : 0 < u.ntok
    · simp only [Except.map, withInbox_ntok, withInbox_cfg, withInbox_buf, h, if_true]
      cases frameClosed u.cfg u.buf <;> rfl
    · simp only [Except.map, withInbox_ntok, h, if_false]

theorem putByte_withInbox (b : Byte) (r : List HostMove) (s : State) :
    putByte b (withInbox r s) = withInbox r (putByte b s) := by
  simp only [putByte, withInbox_phase]
  exact whenLegal_withInbox _ _ r s (decpBody_withInbox b r s)

theorem deliver_withInbox (bs : Bytes) (r : List HostMove) (s : State) :
    deliver bs (withInbox r s) = withInbox r (deliver bs s) := by
  induction bs generalizing s with
  | nil => rfl
  | cons b bs ih => rw [deliver_cons, deliver_cons, putByte_withInbox, ih]

/-- No instruction reads or writes the inbox. -/
theorem exec_withInbox (i : Instr) (r : List HostMove) (s t : State) (h : exec i s = .next t) :
    exec i (withInbox r s) = .next (withInbox r t) := by
  rcases command_or_token i with rfl | rfl | ⟨L, rfl⟩ | ⟨b, rfl⟩ | rfl | rfl | ⟨b, rfl⟩ | rfl | ⟨v, rfl⟩ | ⟨v, rfl, -⟩
  case inr.inr.inr.inr.inr.inr.inr.inr.inr =>
    rw [exec_tokenInstr, Host.Outcome.next.injEq] at h ⊢
    rw [← h]
    exact deliver_withInbox _ r s
  all_goals
    simp only [exec, execNop, execClr, execEncb, execEncp, execEnce, execDecb, execDecp, execDece, execCbrd,
      Host.Outcome.next.injEq, withInbox_phase, withInbox_cnt, withInbox_len] at h ⊢
    rw [← h]
  · simp only [inAnyPhase, withInbox_phase]
    cases s.phase <;> rfl
  · simp only [inAnyPhase, withInbox_phase]
    cases s.phase <;> rfl
  · refine whenLegal_withInbox _ _ r s ?_
    by_cases hf : fits (4 + L.toNat) s.cfg.cap = true
    · rw [encbBody_eq L s hf, encbBody_eq L (withInbox r s) hf]
      simp only [Except.map, withInbox]
    · simp only [encbBody, withInbox_cfg, hf]
      rfl
  · refine whenLegal_withInbox _ _ r s ?_
    exact congrArg Except.ok (encByte_withInbox b r { s with pay := s.pay ++ [b], cnt := s.cnt + 1 })
  · refine whenLegal_withInbox _ _ r s ?_
    simp only [enceBody, withInbox_cfg, withInbox_pay]
    by_cases hu : utf8Ok s.cfg s.pay = true
    · simp only [hu, if_true, flushGroup_eq]
      rfl
    · simp only [hu]
      rfl
  · exact whenLegal_withInbox _ _ r s rfl
  · exact putByte_withInbox b r s
  · exact whenLegal_withInbox _ _ r s (deceBody_withInbox r s)
  · simp only [inAnyPhase, withInbox_phase]
    cases s.phase <;> rfl

@[simp] theorem runCommands_nil (s : State) : runCommands [] s = .next s := rfl

theorem withInbox_withInbox (r r' : List HostMove) (s : State) : withInbox r (withInbox r' s) = withInbox r s := rfl

/-- A run of issued commands takes them one by one. -/
theorem runCommands_cons (i : Instr) (is : List Instr) (s t : State) (hd : decode (encode i) = .ok i)
    (h : exec i s = .next t) (hi : t.inbox = s.inbox) : runCommands (i :: is) s = runCommands is t := by
  have hs : Sys2Proof.core.step (withInbox ((i :: is).map issueOf ++ s.inbox) s) =
      .next (withInbox (is.map issueOf ++ s.inbox) t) := by
    have e : Sys2Proof.core.step = step := rfl
    rw [e]
    simp only [step, List.map_cons, List.cons_append, withInbox, issueOf, hd]
    exact exec_withInbox i (is.map issueOf ++ s.inbox) s t h
  simp only [runCommands, List.length_cons, Host.Core.run, hs, hi]
  rfl

end Sys2Proof.Machine
end

