-- ==== Sys2Proof/Laws/Outcomes.lean ====
section
/-! SUPPORT. Everything each command can do, said once: be discarded, raise an error, or have its effect,
with the guards of the effect (R88, R105 to R107, R115 to R117, R130, R131, R145). -/

namespace Sys2Proof.Machine

/-- A phase-checked command is discarded, raises an error, or has its body's effect (R130, R145). -/
theorem whenLegal_outcome (legal : Bool) (body : State → Except Raise State) (s : State) :
    (whenLegal legal body s = s ∧ (s.phase = .err ∨ s.phase = .fatal)) ∨
    (∃ e, whenLegal legal body s = errorEntry e s ∧ s.phase ≠ .err ∧ s.phase ≠ .fatal) ∨
    (∃ t, whenLegal legal body s = t ∧ legal = true ∧ body s = .ok t) := by
  rcases whenLegal_cases legal body s with h | ⟨h, -, h1, h2⟩ | ⟨e, h, -, -, h1, h2⟩ | ⟨t, h, hl, hb, -, -⟩
  · exact .inl h
  · exact .inr (.inl ⟨_, h, h1, h2⟩)
  · exact .inr (.inl ⟨e, h, h1, h2⟩)
  · exact .inr (.inr ⟨t, h, hl, hb⟩)

/-- The two outcomes every phase-checked command shares: discarded, or an error entry. -/
def Rejected (s t : State) : Prop :=
  (t = s ∧ (s.phase = .err ∨ s.phase = .fatal)) ∨ (∃ e, t = errorEntry e s ∧ s.phase ≠ .err ∧ s.phase ≠ .fatal)

/-- `whenLegal_outcome` as an equation of the state left. -/
theorem whenLegal_rejected (legal : Bool) (body : State → Except Raise State) (s : State) :
    Rejected s (whenLegal legal body s) ∨ (legal = true ∧ body s = .ok (whenLegal legal body s)) := by
  rcases whenLegal_outcome legal body s with ⟨h, h'⟩ | ⟨e, h⟩ | ⟨t, h, hl, hb⟩
  · exact .inl (.inl ⟨h, h'⟩)
  · exact .inl (.inr ⟨e, h⟩)
  · exact .inr ⟨hl, by rw [h]; exact hb⟩

/-- Everything `ENCB L` can do (R105). -/
theorem encb_cases (L : Length) (s t : State) (h : exec (.encb L) s = .next t) :
    Rejected s t ∨
    (s.phase = .idle ∧ fits (4 + L.toNat) s.cfg.cap = true ∧ t = { s with
      dir := .encode
      len := L
      cnt := 0
      phase := .enc
      acc := (pushAll 8 6 (be32Bytes L) emptyEngine).2.acc
      nb := (pushAll 8 6 (be32Bytes L) emptyEngine).2.nb
      pend := s.pend ++ joinTokens s.cfg (pushAll 8 6 (be32Bytes L) emptyEngine).1
      ntok := (pushAll 8 6 (be32Bytes L) emptyEngine).1.length }) := by
  simp only [exec, execEncb, Host.Outcome.next.injEq] at h
  subst h
  rcases whenLegal_rejected (s.phase == .idle) (encbBody L) s with h | ⟨hl, hb⟩
  · exact .inl h
  · by_cases hf : fits (4 + L.toNat) s.cfg.cap = true
    · rw [encbBody_eq _ _ hf, Except.ok.injEq] at hb
      exact .inr ⟨by simpa using hl, hf, hb.symm⟩
    · simp [encbBody, hf] at hb

/-- Everything `ENCP b` can do (R106). -/
theorem encp_cases (b : Byte) (s t : State) (h : exec (.encp b) s = .next t) :
    Rejected s t ∨
    (s.phase = .enc ∧ s.cnt < s.len.toNat ∧ t = { s with
      pay := s.pay ++ [b]
      cnt := s.cnt + 1
      acc := (rgPush 8 6 b ⟨s.acc, s.nb⟩).2.acc
      nb := (rgPush 8 6 b ⟨s.acc, s.nb⟩).2.nb
      ntok := s.ntok + (rgPush 8 6 b ⟨s.acc, s.nb⟩).1.length
      pend := s.pend ++ textAfter s.cfg s.ntok (rgPush 8 6 b ⟨s.acc, s.nb⟩).1 }) := by
  simp only [exec, execEncp, Host.Outcome.next.injEq] at h
  subst h
  rcases whenLegal_rejected (s.phase == .enc && decide (s.cnt < s.len.toNat)) (encpBody b) s with h | ⟨hl, hb⟩
  · exact .inl h
  · have hl : s.phase = .enc ∧ s.cnt < s.len.toNat := by simpa using hl
    simp only [encpBody, encByte_eq, emitText_eq_textAfter, engineOf, Except.ok.injEq] at hb
    exact .inr ⟨hl.1, hl.2, hb.symm⟩

/-- Everything `ENCE` can do (R107). -/
theorem ence_cases (s t : State) (h : exec .ence s = .next t) :
    Rejected s t ∨
    (s.phase = .enc ∧ s.cnt = s.len.toNat ∧ utf8Ok s.cfg s.pay = true ∧ t = { s with
      out := s.pend ++ textAfter s.cfg s.ntok (rgFlush 6 ⟨s.acc, s.nb⟩)
      ntok := s.ntok + (rgFlush 6 ⟨s.acc, s.nb⟩).length
      acc := 0#13
      nb := 0#4
      pend := []
      pay := []
      phase := .done }) := by
  simp only [exec, execEnce, Host.Outcome.next.injEq] at h
  subst h
  rcases whenLegal_rejected (s.phase == .enc && decide (s.cnt = s.len.toNat)) enceBody s with h | ⟨hl, hb⟩
  · exact .inl h
  · have hl : s.phase = .enc ∧ s.cnt = s.len.toNat := by simpa using hl
    by_cases hu : utf8Ok s.cfg s.pay = true
    · simp only [enceBody, hu, if_true, flushGroup_eq, commitText, emitText_eq_textAfter, engineOf,
        Except.ok.injEq] at hb
      exact .inr ⟨hl.1, hl.2, hu, hb.symm⟩
    · simp [enceBody, hu] at hb

/-- Everything `DECB` can do (R115). -/
theorem decb_cases (s t : State) (h : exec .decb s = .next t) :
    Rejected s t ∨ (s.phase = .idle ∧ t = { s with dir := .decode, phase := .dec, acc := 0#13, nb := 0#4 }) := by
  simp only [exec, execDecb, Host.Outcome.next.injEq] at h
  subst h
  rcases whenLegal_rejected (s.phase == .idle) decbBody s with h | ⟨hl, hb⟩
  · exact .inl h
  · simp only [decbBody, rgClr, setEngine, emptyEngine, Except.ok.injEq] at hb
    exact .inr ⟨by simpa using hl, hb.symm⟩

/-- Everything closing the open token can leave when it raises nothing (R113, R114). -/
theorem tkClose_ok (s t : State) (h : tkClose s = .ok t) :
    (s.tokbuf = [] ∧ t = s) ∨
    (∃ v, s.tokbuf ≠ [] ∧ cbRev s.cfg s.tokbuf = some v ∧
      ((rgPush 6 8 v ⟨s.acc, s.nb⟩).1 = [] ∨ fits (s.buf.length + 1) s.cfg.cap = true) ∧ t = { s with
        tokbuf := []
        ntok := s.ntok + 1
        acc := (rgPush 6 8 v ⟨s.acc, s.nb⟩).2.acc
        nb := (rgPush 6 8 v ⟨s.acc, s.nb⟩).2.nb
        buf := s.buf ++ (rgPush 6 8 v ⟨s.acc, s.nb⟩).1
        cnt := s.cnt + (rgPush 6 8 v ⟨s.acc, s.nb⟩).1.length }) := by
  rcases tkClose_cases s with ⟨h1, e⟩ | ⟨h1, hr, e⟩ | ⟨v, h1, hr, e⟩
  · rw [e, Except.ok.injEq] at h
    exact .inl ⟨h1, h.symm⟩
  · rw [e] at h
    cases h
  · rw [e, decSym_eq] at h
    split at h
    · rename_i hc
      rw [Except.ok.injEq] at h
      exact .inr ⟨v, h1, hr, hc, h.symm⟩
    · cases h

/-- Everything `DECP b` can do (R116). -/
theorem putByte_cases (b : Byte) (s : State) :
    Rejected s (putByte b s) ∨
    (s.phase = .dec ∧ b ∉ s.cfg.ws8 ∧ fits (s.tokbuf.length + 1) s.cfg.tokCap = true ∧
      putByte b s = { s with tokbuf := s.tokbuf ++ [b] }) ∨
    (s.phase = .dec ∧ b ∈ s.cfg.ws8 ∧ tkClose s = .ok (putByte b s)) := by
  rcases whenLegal_rejected (s.phase == .dec) (decpBody b) s with h | ⟨hl, hb⟩
  · exact .inl h
  · have hp : s.phase = .dec := by simpa using hl
    change decpBody b s = .ok (putByte b s) at hb
    by_cases hw : b ∈ s.cfg.ws8
    · have hc : s.cfg.ws8.contains b = true := by simpa using hw
      simp only [decpBody, hc, if_true] at hb
      exact .inr (.inr ⟨hp, hw, hb⟩)
    · have hc : s.cfg.ws8.contains b = false := by simpa using hw
      simp only [decpBody, hc, Bool.false_eq_true, if_false] at hb
      split at hb
      · rename_i hf
        rw [Except.ok.injEq] at hb
        exact .inr (.inl ⟨hp, hw, hf, hb.symm⟩)
      · cases hb

/-- Everything `DECE` can do (R117 to R120). -/
theorem dece_cases (s t : State) (h : exec .dece s = .next t) :
    Rejected s t ∨
    (s.phase = .dec ∧ ∃ u P, tkClose s = .ok u ∧ 0 < u.ntok ∧ frameClosed u.cfg u.buf = .ok P ∧ t = { u with
      acc := 0#13
      nb := 0#4
      len := headerOf u.buf
      out := P
      buf := []
      phase := .done }) := by
  simp only [exec, execDece, Host.Outcome.next.injEq] at h
  subst h
  rcases whenLegal_rejected (s.phase == .dec) deceBody s with h | ⟨hl, hb⟩
  · exact .inl h
  · rw [deceBody_eq] at hb
    cases ht : tkClose s with
    | error e =>
      rw [ht] at hb
      cases hb
    | ok u =>
      rw [ht] at hb
      simp only at hb
      split at hb
      · rename_i hn
        cases hf : frameClosed u.cfg u.buf with
        | error e =>
          rw [hf] at hb
          cases hb
        | ok P =>
          rw [hf, Except.ok.injEq] at hb
          exact .inr ⟨by simpa using hl, u, P, rfl, hn, hf, hb.symm⟩
      · cases hb

/-- Everything `CLR` can do (R129). -/
theorem clr_cases (s t : State) (h : exec .clr s = .next t) :
    (s.phase = .fatal ∧ t = s) ∨ (s.phase ≠ .fatal ∧ t = clear s) := by
  simp only [exec, execClr, Host.Outcome.next.injEq] at h
  by_cases hp : s.phase = .fatal
  · rw [inAnyPhase_fatal _ _ hp] at h
    exact .inl ⟨hp, h.symm⟩
  · rw [inAnyPhase_ok _ _ hp] at h
    exact .inr ⟨hp, h.symm⟩

/-- Everything `CBRD v` can do (R88). -/
theorem cbrd_cases (v : Index) (s t : State) (h : exec (.cbrd v) s = .next t) :
    (s.phase = .fatal ∧ t = s) ∨ (s.phase ≠ .fatal ∧ t = { s with lkp := cbFwd s.cfg v }) := by
  simp only [exec, execCbrd, Host.Outcome.next.injEq] at h
  by_cases hp : s.phase = .fatal
  · rw [inAnyPhase_fatal _ _ hp] at h
    exact .inl ⟨hp, h.symm⟩
  · rw [inAnyPhase_ok _ _ hp] at h
    exact .inr ⟨hp, h.symm⟩

/-- `NOP` does nothing (R128). -/
theorem nop_cases (s t : State) (h : exec .nop s = .next t) : t = s := by
  simp only [exec, execNop, Host.Outcome.next.injEq] at h
  rw [← h]
  unfold inAnyPhase
  split <;> rfl

end Sys2Proof.Machine
end

