-- ==== Sys2Proof/Laws/PerInstr.lean ====
section
/-! SUPPORT. One lemma per instruction: its encoding is a wire word that the opcode map lists (R62, R74),
so no encoding of an instruction is reserved. -/

namespace Sys2Proof.Laws

/-- The encoding of the instruction is no reserved word (R74, R75). -/
def EncodesToRow.Statement (i : Instr) : Prop := (encode i).wellFormed = true

/-- A word built from a row's `op` and an operand that the row's mask leaves alone matches the row (R74). -/
theorem cmdOf_fitsWord (r : CmdRow) (op : Byte) (arg : BitVec 32) (h1 : op &&& cmdOp r.mask = cmdOp r.pattern)
    (h2 : arg &&& cmdArg r.mask = cmdArg r.pattern) : r.fitsWord (cmdOf op arg) = true := by
  rw [CmdRow.fitsWord, beq_iff_eq]
  exact cmdWord_ext _ _ (by rw [cmdOp_and, cmdOp_cmdOf, h1]) (by rw [cmdArg_and, cmdArg_cmdOf, h2])

/-- A word matching a listed row is well formed (R74). -/
theorem wellFormed_of_row (r : CmdRow) (hr : r ∈ cmdRows) (op : Byte) (arg : BitVec 32)
    (h1 : op &&& cmdOp r.mask = cmdOp r.pattern) (h2 : arg &&& cmdArg r.mask = cmdArg r.pattern) :
    (Wire.cmd (cmdOf op arg)).wellFormed = true :=
  List.any_eq_true.mpr ⟨r, hr, cmdOf_fitsWord r op arg h1 h2⟩

/-- A byte operand meets a mask of its upper 24 bits (R72, R74). -/
theorem byte_and_mask (b : Byte) : b.setWidth 32 &&& 0xFFFFFF00#32 = 0#32 := by
  ext i hi
  interval_cases i <;> simp

/-- An index operand meets a mask of its upper 26 bits (R72, R74). -/
theorem index_and_mask (v : Index) : v.setWidth 32 &&& 0xFFFFFFC0#32 = 0#32 := by
  ext i hi
  interval_cases i <;> simp

theorem EncodesToRow.nop : EncodesToRow.Statement .nop := by unfold EncodesToRow.Statement; decide

theorem EncodesToRow.clr : EncodesToRow.Statement .clr := by unfold EncodesToRow.Statement; decide

theorem EncodesToRow.encb (L : Length) : EncodesToRow.Statement (.encb L) :=
  wellFormed_of_row ⟨"ENCB", 0x1000000000#40, 0xFF00000000#40⟩ (by decide) opEncb L (by decide) (by
    rw [show cmdArg 0xFF00000000#40 = 0#32 by decide, show cmdArg 0x1000000000#40 = 0#32 by decide, BitVec.and_zero])

theorem EncodesToRow.encp (b : Byte) : EncodesToRow.Statement (.encp b) :=
  wellFormed_of_row ⟨"ENCP", 0x1100000000#40, 0xFFFFFFFF00#40⟩ (by decide) opEncp _ (by decide)
    (byte_and_mask b)

theorem EncodesToRow.ence : EncodesToRow.Statement .ence := by unfold EncodesToRow.Statement; decide

theorem EncodesToRow.decb : EncodesToRow.Statement .decb := by unfold EncodesToRow.Statement; decide

theorem EncodesToRow.decp (b : Byte) : EncodesToRow.Statement (.decp b) :=
  wellFormed_of_row ⟨"DECP", 0x2100000000#40, 0xFFFFFFFF00#40⟩ (by decide) opDecp _ (by decide)
    (byte_and_mask b)

theorem EncodesToRow.dece : EncodesToRow.Statement .dece := by unfold EncodesToRow.Statement; decide

theorem EncodesToRow.cbrd (v : Index) : EncodesToRow.Statement (.cbrd v) :=
  wellFormed_of_row ⟨"CBRD", 0x3000000000#40, 0xFFFFFFFFC0#40⟩ (by decide) opCbrd _ (by decide) (index_and_mask v)

theorem EncodesToRow.tok0 : EncodesToRow.Statement .tok0 := rfl

theorem EncodesToRow.tok1 : EncodesToRow.Statement .tok1 := rfl

theorem EncodesToRow.tok2 : EncodesToRow.Statement .tok2 := rfl

theorem EncodesToRow.tok3 : EncodesToRow.Statement .tok3 := rfl

theorem EncodesToRow.tok4 : EncodesToRow.Statement .tok4 := rfl

theorem EncodesToRow.tok5 : EncodesToRow.Statement .tok5 := rfl

theorem EncodesToRow.tok6 : EncodesToRow.Statement .tok6 := rfl

theorem EncodesToRow.tok7 : EncodesToRow.Statement .tok7 := rfl

theorem EncodesToRow.tok8 : EncodesToRow.Statement .tok8 := rfl

theorem EncodesToRow.tok9 : EncodesToRow.Statement .tok9 := rfl

theorem EncodesToRow.tok10 : EncodesToRow.Statement .tok10 := rfl

theorem EncodesToRow.tok11 : EncodesToRow.Statement .tok11 := rfl

theorem EncodesToRow.tok12 : EncodesToRow.Statement .tok12 := rfl

theorem EncodesToRow.tok13 : EncodesToRow.Statement .tok13 := rfl

theorem EncodesToRow.tok14 : EncodesToRow.Statement .tok14 := rfl

theorem EncodesToRow.tok15 : EncodesToRow.Statement .tok15 := rfl

theorem EncodesToRow.tok16 : EncodesToRow.Statement .tok16 := rfl

theorem EncodesToRow.tok17 : EncodesToRow.Statement .tok17 := rfl

theorem EncodesToRow.tok18 : EncodesToRow.Statement .tok18 := rfl

theorem EncodesToRow.tok19 : EncodesToRow.Statement .tok19 := rfl

theorem EncodesToRow.tok20 : EncodesToRow.Statement .tok20 := rfl

theorem EncodesToRow.tok21 : EncodesToRow.Statement .tok21 := rfl

theorem EncodesToRow.tok22 : EncodesToRow.Statement .tok22 := rfl

theorem EncodesToRow.tok23 : EncodesToRow.Statement .tok23 := rfl

theorem EncodesToRow.tok24 : EncodesToRow.Statement .tok24 := rfl

theorem EncodesToRow.tok25 : EncodesToRow.Statement .tok25 := rfl

theorem EncodesToRow.tok26 : EncodesToRow.Statement .tok26 := rfl

theorem EncodesToRow.tok27 : EncodesToRow.Statement .tok27 := rfl

theorem EncodesToRow.tok28 : EncodesToRow.Statement .tok28 := rfl

theorem EncodesToRow.tok29 : EncodesToRow.Statement .tok29 := rfl

theorem EncodesToRow.tok30 : EncodesToRow.Statement .tok30 := rfl

theorem EncodesToRow.tok31 : EncodesToRow.Statement .tok31 := rfl

theorem EncodesToRow.tok32 : EncodesToRow.Statement .tok32 := rfl

theorem EncodesToRow.tok33 : EncodesToRow.Statement .tok33 := rfl

theorem EncodesToRow.tok34 : EncodesToRow.Statement .tok34 := rfl

theorem EncodesToRow.tok35 : EncodesToRow.Statement .tok35 := rfl

theorem EncodesToRow.tok36 : EncodesToRow.Statement .tok36 := rfl

theorem EncodesToRow.tok37 : EncodesToRow.Statement .tok37 := rfl

theorem EncodesToRow.tok38 : EncodesToRow.Statement .tok38 := rfl

theorem EncodesToRow.tok39 : EncodesToRow.Statement .tok39 := rfl

theorem EncodesToRow.tok40 : EncodesToRow.Statement .tok40 := rfl

theorem EncodesToRow.tok41 : EncodesToRow.Statement .tok41 := rfl

theorem EncodesToRow.tok42 : EncodesToRow.Statement .tok42 := rfl

theorem EncodesToRow.tok43 : EncodesToRow.Statement .tok43 := rfl

theorem EncodesToRow.tok44 : EncodesToRow.Statement .tok44 := rfl

theorem EncodesToRow.tok45 : EncodesToRow.Statement .tok45 := rfl

theorem EncodesToRow.tok46 : EncodesToRow.Statement .tok46 := rfl

theorem EncodesToRow.tok47 : EncodesToRow.Statement .tok47 := rfl

theorem EncodesToRow.tok48 : EncodesToRow.Statement .tok48 := rfl

theorem EncodesToRow.tok49 : EncodesToRow.Statement .tok49 := rfl

theorem EncodesToRow.tok50 : EncodesToRow.Statement .tok50 := rfl

theorem EncodesToRow.tok51 : EncodesToRow.Statement .tok51 := rfl

theorem EncodesToRow.tok52 : EncodesToRow.Statement .tok52 := rfl

theorem EncodesToRow.tok53 : EncodesToRow.Statement .tok53 := rfl

theorem EncodesToRow.tok54 : EncodesToRow.Statement .tok54 := rfl

theorem EncodesToRow.tok55 : EncodesToRow.Statement .tok55 := rfl

theorem EncodesToRow.tok56 : EncodesToRow.Statement .tok56 := rfl

theorem EncodesToRow.tok57 : EncodesToRow.Statement .tok57 := rfl

theorem EncodesToRow.tok58 : EncodesToRow.Statement .tok58 := rfl

theorem EncodesToRow.tok59 : EncodesToRow.Statement .tok59 := rfl

theorem EncodesToRow.tok60 : EncodesToRow.Statement .tok60 := rfl

theorem EncodesToRow.tok61 : EncodesToRow.Statement .tok61 := rfl

theorem EncodesToRow.tok62 : EncodesToRow.Statement .tok62 := rfl

theorem EncodesToRow.tok63 : EncodesToRow.Statement .tok63 := rfl

end Sys2Proof.Laws
end

