-- ==== Sys2Proof/Laws/Run.lean ====
section
/-! SUPPORT. What following a run can do (R5): which moves open one, one step of it, where it stops, and the
result of each way it can stand. -/

namespace Sys2Proof.Machine

/-- The moves that open a run are those that issue `ENCB` or `DECB`. -/
theorem opensRun_iff (m : HostMove) :
    opensRun m = true ↔ (∃ L : Length, m = issueOf (.encb L)) ∨ m = issueOf .decb := by
  constructor
  · intro h
    match m with
    | .reset => simp [opensRun] at h
    | .issue (.tok _) => simp [opensRun] at h
    | .issue (.cmd w) =>
      simp only [opensRun, Bool.or_eq_true, beq_iff_eq] at h
      rcases h with h | rfl
      · exact .inl ⟨cmdArg w, by rw [issueOf, encode, ← h, cmdOf_fields]⟩
      · exact .inr rfl
  · rintro (⟨L, rfl⟩ | rfl) <;> simp [opensRun, issueOf, encode]

/-- The six phases are `IDLE`, the two open ones and the three end ones. -/
theorem phase_split (p : Phase) :
    (p = .idle ∧ openPhase p = false ∧ endPhase p = false) ∨
    ((p = .enc ∨ p = .dec) ∧ openPhase p = true ∧ endPhase p = false) ∨
    ((p = .done ∨ p = .err ∨ p = .fatal) ∧ openPhase p = false ∧ endPhase p = true) := by
  cases p <;> decide

/-- What a run's standing says of the phase, and the phase of the standing. -/
theorem fateAt_cases (s : State) :
    (s.phase = .idle ∧ fateAt s = .abandoned) ∨
    ((s.phase = .enc ∨ s.phase = .dec) ∧ fateAt s = .unfinished) ∨
    ((s.phase = .done ∨ s.phase = .err ∨ s.phase = .fatal) ∧ fateAt s = .ended s) := by
  rcases phase_split s.phase with ⟨h, ho, he⟩ | ⟨h, ho, he⟩ | ⟨h, ho, he⟩ <;> simp only [fateAt, ho, he] <;> simp [h]

@[simp] theorem followRun_zero (s : State) : followRun 0 s = fateAt s := rfl

/-- A run in an open phase goes on with the state after the next move. -/
theorem followRun_open (k : Nat) (s t : State) (h : s.phase = .enc ∨ s.phase = .dec) (hs : step s = .next t) :
    followRun (k + 1) s = followRun k t := by
  rcases h with h | h <;> simp [followRun, openPhase, h, hs]

/-- A run stands where it first leaves the open phases. -/
theorem followRun_closed (k : Nat) (s : State) (h : s.phase ≠ .enc) (h' : s.phase ≠ .dec) :
    followRun k s = fateAt s := by
  cases k with
  | zero => rfl
  | succ k => rcases phase_split s.phase with ⟨-, ho, -⟩ | ⟨hp, -⟩ | ⟨-, ho, -⟩ <;> simp_all [followRun]

@[simp] theorem runOf_nil (s : State) (h : s.inbox = []) : runOf s = none := by simp [runOf, h]

/-- A run that the next move opens is followed from the state after that move. -/
theorem runOf_opens (s t : State) (m : HostMove) (rest : List HostMove) (h : s.inbox = m :: rest)
    (hm : opensRun m = true) (hs : step s = .next t) : runOf s = some (followRun rest.length t) := by
  simp [runOf, h, hm, hs]

/-- A move that opens no run starts none. -/
theorem runOf_other (s : State) (m : HostMove) (rest : List HostMove) (h : s.inbox = m :: rest)
    (hm : opensRun m = false) : runOf s = none := by simp [runOf, h, hm]

@[simp] theorem resultOf_ended (s : State) : resultOf (.ended s) = resultIn s := rfl
@[simp] theorem resultOf_abandoned : resultOf .abandoned = none := rfl
@[simp] theorem resultOf_unfinished : resultOf .unfinished = none := rfl

theorem resultIn_done (s : State) (h : s.phase = .done) : resultIn s = some (.output s.out) := by
  simp [resultIn, h]

theorem resultIn_err (s : State) (h : s.phase = .err) :
    resultIn s = some (.failure s.err s.etok s.epos s.eexp s.ehave) := by simp [resultIn, h]

theorem resultIn_fatal (s : State) (h : s.phase = .fatal) : resultIn s = none := by simp [resultIn, h]

theorem runResult_of_runOf (s : State) (f : RunFate) (h : runOf s = some f) : runResult s = resultOf f := by
  simp [runResult, h]

end Sys2Proof.Machine
end

