-- ==== Sys2Proof/Laws/Traces.lean ====
section
/-! SUPPORT. The invariants and the decode trace under the two things that touch them: the host's later moves,
which they do not read, and one index pushed through the engine (R98, R113). -/

namespace Sys2Proof.Machine

theorem quiet_withInbox (r : List HostMove) (s : State) (h : Quiet s) : Quiet (withInbox r s) :=
  ⟨h.dir, h.err, h.acc, h.nb, h.len, h.cnt, h.ntok, h.pay, h.pend, h.buf, h.tokbuf, h.out, h.etok, h.epos,
    h.eexp, h.ehave⟩

theorem encOpen_withInbox (r : List HostMove) (s : State) (h : EncOpen s) : EncOpen (withInbox r s) :=
  ⟨h.dir, h.fitsCap, h.cntLe, h.payLen, h.nb, h.ntok, h.buf, h.tokbuf⟩

theorem decOpen_withInbox (r : List HostMove) (s : State) (h : DecOpen s) : DecOpen (withInbox r s) :=
  ⟨h.dir, h.len, h.cnt, h.bufLen, h.nb, h.fitsCap, h.tokFits, h.tokApart, h.pay, h.pend⟩

theorem closed_withInbox (r : List HostMove) (s : State) (h : Closed s) : Closed (withInbox r s) :=
  ⟨h.acc, h.nb, h.pay, h.pend, h.buf, h.tokbuf⟩

theorem doneReport_withInbox (r : List HostMove) (s : State) (h : DoneReport s) : DoneReport (withInbox r s) :=
  ⟨h.encode, h.decode⟩

/-- The registers' invariant does not read the inbox. -/
theorem regInv_withInbox (r : List HostMove) (s : State) (h : RegInv s) : RegInv (withInbox r s) where
  cfg := h.cfg
  cbOk := h.cbOk
  fatal := h.fatal
  errPhase := h.errPhase
  collision := h.collision
  accLt := h.accLt
  idle := fun p => quiet_withInbox r s (h.idle p)
  enc := fun p => encOpen_withInbox r s (h.enc p)
  dec := fun p => decOpen_withInbox r s (h.dec p)
  closed := fun p q => closed_withInbox r s (h.closed p q)
  done := fun p => doneReport_withInbox r s (h.done p)
  out := h.out
  etok := h.etok
  ehave := h.ehave
  lkp := h.lkp

/-- The data invariant does not read the inbox. -/
theorem dataInv_withInbox (r : List HostMove) (s : State) (h : DataInv s) : DataInv (withInbox r s) :=
  ⟨h.enc, h.dec, h.doneEnc, h.doneDec⟩

/-- Pushing an index into a traced call: its bits come after those of the indices before it (R98, R113). -/
theorem groupBits_push (vs : List Index) (v : Index) (buf : Bytes) (e : Engine) (hc : Canonical e)
    (hn : e.nb.toNat < 8) (h : groupBits vs = byteBits buf ++ bitQueue e) :
    groupBits (vs ++ [v]) = byteBits (buf ++ (rgPush 6 8 v e).1) ++ bitQueue (rgPush 6 8 v e).2 := by
  have p := (pushAll_6_8 [v] e hc hn).1
  simp only [pushAll, List.append_nil] at p
  simp only [groupBits, byteBits, List.flatMap_append] at h p ⊢
  rw [h, List.append_assoc, List.append_assoc, p]

/-- The whole bytes of the indices that trace a call are its `BUF` (R51, R121). -/
theorem wholeBytes_of_trace (vs : List Index) (buf : Bytes) (q : List Bool) (hl : buf.length = 6 * vs.length / 8)
    (h : groupBits vs = byteBits buf ++ q) : wholeBytes vs = buf := by
  rw [wholeBytes, h, ← hl]
  exact slices_flatMap 8 buf q

end Sys2Proof.Machine
end

