-- ==== Sys2Proof/Tests/Slice0.lean ====
section
/-! SUPPORT. The model's own tests. Expected values come from spec/95_test_vectors.md (V, P and T numbers)
and from the tables of 30_encoding and 40_codebook; the last part shows for each statement with hypotheses a
concrete state and operands that meet them. -/

namespace Sys2Proof.Tests

open Sys2Proof.Machine

/-! ### Helpers -/

/-- Does the outcome give a next state with that property? -/
def gives (o : Host.Outcome State Fault Refusal) (p : State → Bool) : Bool :=
  match o with
  | .next t => p t
  | .fault _ => false
  | .refused _ => false

/-- Token 0 of the spec (V1). -/
def wang : Bytes := [0xE6#8, 0xB1#8, 0xAA#8]

/-- Token 20 of the spec (V5). -/
def token20 : Bytes := [0xE5#8, 0x97#8, 0xB7#8, 0xE2#8, 0x80#8, 0xA6#8]

/-- Five times token 0 with four separators, the text of every header below 4 (V85 to V88). -/
def fiveWang : Bytes := List.intercalate [0x20#8] [wang, wang, wang, wang, wang]

/-- An open encode call of length `L` right after its header (V85 to V88, for `L < 4`). -/
def opened (L : Nat) : State :=
  { State.reset with
    phase := .enc, len := BitVec.ofNat 32 L, ntok := 5, nb := 2#4, acc := BitVec.ofNat 13 (L % 4), pend := fiveWang }

/-- Program P1 after its second step: the call for the text of the byte 41. -/
def afterP1 : State :=
  { opened 1 with
    cnt := 1, ntok := 6, nb := 4#4, acc := 1#13, pay := [0x41#8], pend := fiveWang ++ 0x20#8 :: token20 }

/-- The text that program P1 commits. -/
def textA : Bytes := fiveWang ++ 0x20#8 :: token20 ++ [0x20#8, 0xE6#8, 0xB1#8, 0xAA#8, 0xE2#8, 0x80#8, 0xA6#8]

/-- The state in which program P1 ends. -/
def doneA : State :=
  { State.reset with phase := .done, len := 1#32, cnt := 1, ntok := 7, out := textA }

/-- An open decode call. -/
def decoding (ntok : Nat) (acc : BitVec 13) (nb : BitVec 4) (buf tokbuf : Bytes) : State :=
  { State.reset with
    phase := .dec, dir := .decode, ntok := ntok, acc := acc, nb := nb, buf := buf, cnt := buf.length, tokbuf := tokbuf }

/-- A report of an unknown token (V169). -/
def reported : State :=
  { State.reset with phase := .err, dir := .decode, err := .unknownToken, etok := [0x77#8], epos := 2 }

/-- Tables whose tones 2 and 3 are equal, so that tokens 2 and 3 are (V39). -/
def collidingConfig : Config := { standardConfig with tone := toneTable.set 3 [0x7E#8] }

/-- The state that a reset with those tables leaves (V39). -/
def stuck : State :=
  { State.reset with cfg := collidingConfig, cbOk := false, phase := .fatal, err := .codebookCollision }

/-- Finite capacities: 5 frame bytes, 10 bytes of a token. -/
def tightConfig : Config := { standardConfig with cap := some 5, tokCap := some 10 }

/-- A state under finite capacities. -/
def tight (s : State) : State := { s with cfg := tightConfig }

/-- A word that the host issues next. -/
def issued (w : CmdWord) (s : State) : State := { s with inbox := [.issue (.cmd w)] }

/-! ### Well-formedness: for each check something ill formed that it refuses -/

/-- A listed word of every row is accepted (R74). -/
theorem test_rows_accept : ([0x0000000000#40, 0x0100000000#40, 0x10FFFFFFFF#40, 0x11000000FF#40, 0x1200000000#40,
    0x2000000000#40, 0x21000000FF#40, 0x2200000000#40, 0x300000003F#40].all cmdWellFormed) = true := by decide

/-- A reserved `op`, and for every masked row its lowest reserved `arg` bit, is refused (R75). -/
theorem test_rows_refuse : ([0x4000000000#40, 0xFFFFFFFFFF#40, 0x0000000001#40, 0x0100000001#40, 0x1100000100#40,
    0x1200000001#40, 0x2000000001#40, 0x2100000100#40, 0x2200000001#40, 0x3000000040#40].any cmdWellFormed) = false := by
  decide

/-- Every token index is accepted (R62). -/
theorem test_token_accepted : (Wire.tok 63#6).wellFormed = true := by decide

/-- The default configuration and the tight one meet R9 and R41. -/
theorem test_config_accepts : standardConfig.admissible = true ∧ tightConfig.admissible = true := by decide +kernel

/-- A separator at 0x80, and a set without the space, are refused (R9). -/
theorem test_config_ws8 : ({ standardConfig with ws8 := [0x20#8, 0x80#8] }).admissible = false ∧
    ({ standardConfig with ws8 := [0x0A#8] }).admissible = false := by decide +kernel

/-- A separator that occurs in a token is refused (R9). -/
theorem test_config_apart : ({ standardConfig with ws8 := [0x20#8, 0x7E#8] }).admissible = false := by decide +kernel

/-- Capacities below 4 and below 10 are refused (R9). -/
theorem test_config_caps : ({ standardConfig with cap := some 3 }).admissible = false ∧
    ({ standardConfig with tokCap := some 9 }).admissible = false := by decide +kernel

/-- Tables of the wrong length or with entries of the wrong size are refused (R41). -/
theorem test_config_tables : ({ standardConfig with core := coreTable.take 7 }).tablesOk = false ∧
    ({ standardConfig with tone := [] :: toneTable }).tablesOk = false ∧
    ({ standardConfig with core := coreTable.set 0 [0xE6#8, 0xB1#8] }).tablesOk = false ∧
    ({ standardConfig with tone := toneTable.set 0 [0x2E#8, 0x2E#8, 0x2E#8, 0x2E#8] }).tablesOk = false := by decide

/-! ### Decoding: a word of every constructor, written out from R72 and R74 -/

theorem test_decode_nop : decode (.cmd 0b0000000000000000000000000000000000000000#40) = .ok .nop := by decide

theorem test_decode_clr : decode (.cmd 0b0000000100000000000000000000000000000000#40) = .ok .clr := by decide

theorem test_decode_encb : decode (.cmd 0b0001000000010010001101000101011001111000#40) = .ok (.encb 0x12345678#32) := by decide

theorem test_decode_encp : decode (.cmd 0b0001000100000000000000000000000001000001#40) = .ok (.encp 0x41#8) := by decide

theorem test_decode_ence : decode (.cmd 0b0001001000000000000000000000000000000000#40) = .ok .ence := by decide

theorem test_decode_decb : decode (.cmd 0b0010000000000000000000000000000000000000#40) = .ok .decb := by decide

theorem test_decode_decp : decode (.cmd 0b0010000100000000000000000000000011100110#40) = .ok (.decp 0xE6#8) := by decide

theorem test_decode_dece : decode (.cmd 0b0010001000000000000000000000000000000000#40) = .ok .dece := by decide

theorem test_decode_cbrd : decode (.cmd 0b0011000000000000000000000000000000010100#40) = .ok (.cbrd 20#6) := by decide

/-- The tokens of core 0: the index is the core's three bits, then the tone's (R42, R82). -/
theorem test_decode_tokens_0 :
    decode (.tok 0b000000#6) = .ok .tok0 ∧
    decode (.tok 0b000001#6) = .ok .tok1 ∧
    decode (.tok 0b000010#6) = .ok .tok2 ∧
    decode (.tok 0b000011#6) = .ok .tok3 ∧
    decode (.tok 0b000100#6) = .ok .tok4 ∧
    decode (.tok 0b000101#6) = .ok .tok5 ∧
    decode (.tok 0b000110#6) = .ok .tok6 ∧
    decode (.tok 0b000111#6) = .ok .tok7 := by decide

/-- The tokens of core 1: the index is the core's three bits, then the tone's (R42, R82). -/
theorem test_decode_tokens_1 :
    decode (.tok 0b001000#6) = .ok .tok8 ∧
    decode (.tok 0b001001#6) = .ok .tok9 ∧
    decode (.tok 0b001010#6) = .ok .tok10 ∧
    decode (.tok 0b001011#6) = .ok .tok11 ∧
    decode (.tok 0b001100#6) = .ok .tok12 ∧
    decode (.tok 0b001101#6) = .ok .tok13 ∧
    decode (.tok 0b001110#6) = .ok .tok14 ∧
    decode (.tok 0b001111#6) = .ok .tok15 := by decide

/-- The tokens of core 2: the index is the core's three bits, then the tone's (R42, R82). -/
theorem test_decode_tokens_2 :
    decode (.tok 0b010000#6) = .ok .tok16 ∧
    decode (.tok 0b010001#6) = .ok .tok17 ∧
    decode (.tok 0b010010#6) = .ok .tok18 ∧
    decode (.tok 0b010011#6) = .ok .tok19 ∧
    decode (.tok 0b010100#6) = .ok .tok20 ∧
    decode (.tok 0b010101#6) = .ok .tok21 ∧
    decode (.tok 0b010110#6) = .ok .tok22 ∧
    decode (.tok 0b010111#6) = .ok .tok23 := by decide

/-- The tokens of core 3: the index is the core's three bits, then the tone's (R42, R82). -/
theorem test_decode_tokens_3 :
    decode (.tok 0b011000#6) = .ok .tok24 ∧
    decode (.tok 0b011001#6) = .ok .tok25 ∧
    decode (.tok 0b011010#6) = .ok .tok26 ∧
    decode (.tok 0b011011#6) = .ok .tok27 ∧
    decode (.tok 0b011100#6) = .ok .tok28 ∧
    decode (.tok 0b011101#6) = .ok .tok29 ∧
    decode (.tok 0b011110#6) = .ok .tok30 ∧
    decode (.tok 0b011111#6) = .ok .tok31 := by decide

/-- The tokens of core 4: the index is the core's three bits, then the tone's (R42, R82). -/
theorem test_decode_tokens_4 :
    decode (.tok 0b100000#6) = .ok .tok32 ∧
    decode (.tok 0b100001#6) = .ok .tok33 ∧
    decode (.tok 0b100010#6) = .ok .tok34 ∧
    decode (.tok 0b100011#6) = .ok .tok35 ∧
    decode (.tok 0b100100#6) = .ok .tok36 ∧
    decode (.tok 0b100101#6) = .ok .tok37 ∧
    decode (.tok 0b100110#6) = .ok .tok38 ∧
    decode (.tok 0b100111#6) = .ok .tok39 := by decide

/-- The tokens of core 5: the index is the core's three bits, then the tone's (R42, R82). -/
theorem test_decode_tokens_5 :
    decode (.tok 0b101000#6) = .ok .tok40 ∧
    decode (.tok 0b101001#6) = .ok .tok41 ∧
    decode (.tok 0b101010#6) = .ok .tok42 ∧
    decode (.tok 0b101011#6) = .ok .tok43 ∧
    decode (.tok 0b101100#6) = .ok .tok44 ∧
    decode (.tok 0b101101#6) = .ok .tok45 ∧
    decode (.tok 0b101110#6) = .ok .tok46 ∧
    decode (.tok 0b101111#6) = .ok .tok47 := by decide

/-- The tokens of core 6: the index is the core's three bits, then the tone's (R42, R82). -/
theorem test_decode_tokens_6 :
    decode (.tok 0b110000#6) = .ok .tok48 ∧
    decode (.tok 0b110001#6) = .ok .tok49 ∧
    decode (.tok 0b110010#6) = .ok .tok50 ∧
    decode (.tok 0b110011#6) = .ok .tok51 ∧
    decode (.tok 0b110100#6) = .ok .tok52 ∧
    decode (.tok 0b110101#6) = .ok .tok53 ∧
    decode (.tok 0b110110#6) = .ok .tok54 ∧
    decode (.tok 0b110111#6) = .ok .tok55 := by decide

/-- The tokens of core 7: the index is the core's three bits, then the tone's (R42, R82). -/
theorem test_decode_tokens_7 :
    decode (.tok 0b111000#6) = .ok .tok56 ∧
    decode (.tok 0b111001#6) = .ok .tok57 ∧
    decode (.tok 0b111010#6) = .ok .tok58 ∧
    decode (.tok 0b111011#6) = .ok .tok59 ∧
    decode (.tok 0b111100#6) = .ok .tok60 ∧
    decode (.tok 0b111101#6) = .ok .tok61 ∧
    decode (.tok 0b111110#6) = .ok .tok62 ∧
    decode (.tok 0b111111#6) = .ok .tok63 := by decide

/-- The same words as the opcode table numbers their bits, and two that are reserved (V35, V164). -/
theorem test_table_words : decodeTableWord 40 0x1012345678 = some (.encb 0x12345678#32) ∧
    decodeTableWord 8 20 = some .tok20 ∧ decodeTableWord 40 0x3000000040 = none ∧
    decodeTableWord 40 0x4000000000 = none := by decide

/-- A reserved word is refused by name: a reserved `op` (V164), a reserved `arg` bit (V35). -/
theorem test_decode_reserved : decode (.cmd 0x4000000000#40) = .error (.reservedOp 0x40#8) ∧
    decode (.cmd 0x3000000040#40) = .error (.reservedArg 0x30#8) := by decide

/-- A bare token index has no spare bits: 64 is no token, nor is a word too wide (R62, R71). -/
theorem test_table_too_wide : decodeTableWord 8 64 = none ∧ decodeTableWord 40 (2 ^ 40) = none := by decide

/-! ### Codebook and validity check -/

/-- V3, V7, V11, V12. -/
theorem test_cb_fwd : cbFwd standardConfig 7#6 = [0xE6#8, 0xB1#8, 0xAA#8, 0x7E#8, 0x2E#8] ∧
    cbFwd standardConfig 27#6 = [0xE6#8, 0xB1#8, 0xAA#8, 0xE6#8, 0xB1#8, 0xAA#8, 0xEF#8, 0xBD#8, 0x9E#8] ∧
    cbFwd standardConfig 60#6 = [0x7E#8, 0xE6#8, 0xB1#8, 0xAA#8, 0xE2#8, 0x80#8, 0xA6#8] ∧
    cbFwd standardConfig 63#6 = [0x7E#8, 0xE6#8, 0xB1#8, 0xAA#8, 0x7E#8, 0x2E#8] := by decide

/-- V14, V19, V20, V31 hit; V21, V23, V24, V27, V29 miss. -/
theorem test_cb_rev : cbRev standardConfig (wang ++ wang) = some 24#6 ∧
    cbRev standardConfig (wang ++ [0xEF#8, 0xBC#8, 0x81#8]) = some 6#6 ∧
    cbRev standardConfig (wang ++ [0x21#8]) = some 5#6 ∧
    cbRev standardConfig (wang ++ [0xE5#8, 0x97#8, 0x9A#8]) = some 48#6 ∧
    cbRev standardConfig [] = none ∧ cbRev standardConfig (wang ++ [0xE2#8, 0x80#8]) = none ∧
    cbRev standardConfig (wang ++ [0x2E#8, 0x2E#8]) = none ∧ cbRev standardConfig [0x7E#8] = none ∧
    cbRev standardConfig [0xE5#8, 0x97#8, 0x9A#8, 0xE5#8, 0x97#8, 0x9A#8] = none := by decide

/-- V38 and V39: the check passes with the spec's tables and fails with two equal tokens. -/
theorem test_codebook_check : tokensDistinct standardConfig = true ∧ tokensDistinct collidingConfig = false := by
  decide +kernel

/-- V103 to V105 are well formed, with the empty string. -/
theorem test_utf8_accepts : utf8Table [] = true ∧ utf8Table [0x7F#8] = true ∧
    utf8Table [0xF4#8, 0x8F#8, 0xBF#8, 0xBF#8] = true ∧ utf8Table [0xED#8, 0x9F#8, 0xBF#8] = true := by decide

/-- V107 to V111 are not, nor is a code point above U+10FFFF. -/
theorem test_utf8_refuses : utf8Table [0xFF#8] = false ∧ utf8Table [0xC3#8, 0x28#8] = false ∧
    utf8Table [0xED#8, 0xA0#8, 0x80#8] = false ∧ utf8Table [0xC0#8, 0x80#8] = false ∧ utf8Table [0xC3#8] = false ∧
    utf8Table [0xF4#8, 0x90#8, 0x80#8, 0x80#8] = false := by decide

/-! ### The regroup engine -/

/-- V43, V46, V49. -/
theorem test_push_8_6 : rgPush 8 6 0x41#8 ⟨1#13, 2#4⟩ = ([20#6], ⟨1#13, 4#4⟩) ∧
    rgPush 8 6 0x48#8 ⟨1#13, 4#4⟩ = ([5#6, 8#6], ⟨0#13, 0#4⟩) ∧
    rgPush 8 6 0x6F#8 ⟨9#13, 4#4⟩ = ([37#6, 47#6], ⟨0#13, 0#4⟩) := by decide

/-- V51, V52, V54, V59. -/
theorem test_push_6_8 : rgPush 6 8 63#6 ⟨0#13, 0#4⟩ = ([], ⟨63#13, 6#4⟩) ∧
    rgPush 6 8 20#6 ⟨0#13, 6#4⟩ = ([0x01#8], ⟨4#13, 4#4⟩) ∧
    rgPush 6 8 4#6 ⟨4#13, 4#4⟩ = ([0x41#8], ⟨0#13, 2#4⟩) ∧
    rgPush 6 8 42#6 ⟨2#13, 2#4⟩ = ([0xAA#8], ⟨0#13, 0#4⟩) := by decide

/-- V60, V61, V66. -/
theorem test_flush : rgFlush 6 ⟨0#13, 0#4⟩ = [] ∧ rgFlush 6 ⟨1#13, 2#4⟩ = [16#6] ∧
    rgFlush 6 ⟨9#13, 4#4⟩ = [36#6] := by decide

/-- V76 and V82, the whole-sequence view of T6. -/
theorem test_sequences : regroupOut [0x4D#8, 0x61#8, 0x6E#8] = [19#6, 22#6, 5#6, 46#6] ∧
    regroupIn [19#6, 22#6, 5#6, 46#6] = [0x4D#8, 0x61#8, 0x6E#8] ∧
    groupsOf [0x41#8] = [0#6, 0#6, 0#6, 0#6, 0#6, 20#6, 4#6] := by decide

/-- V153 as a whole string: runs of separators, then the first unknown token with its position. -/
theorem test_closed_decode : tokensOf standardConfig ([0x09#8, 0x20#8] ++ wang ++ [0x20#8, 0x77#8, 0x0A#8]) =
    [wang, [0x77#8]] ∧ lookUpAll standardConfig 0 [wang, [0x77#8]] = .error (.unknownToken [0x77#8] 1) := by decide

/-! ### One step of each command -/

/-- V162. -/
theorem test_nop : gives (exec .nop (opened 1)) (fun t => t == opened 1) = true := by decide

/-- V167. -/
theorem test_clr_releases : gives (exec .clr doneA) (fun t => t == State.reset) = true := by decide +kernel

/-- V170. -/
theorem test_clr_acknowledges : gives (exec .clr reported) (fun t => t == State.reset) = true := by decide +kernel

/-- V90: the header of 255. -/
theorem test_encb : gives (exec (.encb 255#32) State.reset) (fun t => t.phase == .enc && t.ntok == 5 && t.nb == 2#4 &&
    t.acc == 3#13 && t.len == 255#32 &&
    t.pend == List.intercalate [0x20#8] [wang, wang, wang, wang,
      [0x7E#8, 0xE6#8, 0xB1#8, 0xAA#8, 0x7E#8, 0x2E#8]]) = true := by
  decide +kernel

/-- V116: a second `ENCB` loses the open call. -/
theorem test_encb_illegal : gives (exec (.encb 1#32) (opened 1)) (fun t => t.phase == .err && t.err == .illegalOp &&
    t.pend == [] && t.len == 0#32) = true := by decide

/-- Program P1, step 2. -/
theorem test_encp : gives (exec (.encp 0x41#8) (opened 1)) (fun t => t == afterP1) = true := by decide +kernel

/-- V113: the byte beyond the declared length. -/
theorem test_encp_excess : gives (exec (.encp 0x69#8) afterP1) (fun t => t.phase == .err &&
    t.err == .illegalOp) = true := by decide

/-- Program P1, step 3. -/
theorem test_ence : gives (exec .ence afterP1) (fun t => t == doneA) = true := by decide +kernel

/-- V107: the payload FF is not text. -/
theorem test_ence_invalid : gives (exec .ence { afterP1 with pay := [0xFF#8] }) (fun t => t.phase == .err &&
    t.err == .invalidInput && t.out == [] && t.ntok == 0) = true := by decide

/-- Program P2, step 1. -/
theorem test_decb : gives (exec .decb State.reset) (fun t => t == decoding 0 0#13 0#4 [] []) = true := by decide +kernel

/-- V168: the unread result is lost. -/
theorem test_decb_illegal : gives (exec .decb doneA) (fun t => t.err == .illegalOp && t.out == []) = true := by decide

/-- Program P2, step 9: the separator closes the second token and a byte comes out. -/
theorem test_decp : gives (exec (.decp 0x20#8) (decoding 1 0#13 6#4 [] wang))
    (fun t => t == decoding 2 0#13 4#4 [0x00#8] []) = true := by decide +kernel

/-- V153: an unknown token with its position. -/
theorem test_decp_unknown : gives (exec (.decp 0x20#8) (decoding 2 0#13 4#4 [0x00#8] [0x77#8, 0x6F#8, 0x6F#8, 0x66#8]))
    (fun t => t.err == .unknownToken && t.etok == [0x77#8, 0x6F#8, 0x6F#8, 0x66#8] && t.epos == 2 && t.dir == .decode &&
      t.ntok == 0) = true := by decide +kernel

/-- V119: the last token is closed by `DECE`; 2 bits are dropped. -/
theorem test_dece : gives (exec .dece
    (decoding 6 4#13 4#4 [0x00#8, 0x00#8, 0x00#8, 0x01#8] (wang ++ [0xE2#8, 0x80#8, 0xA6#8])))
    (fun t => t.phase == .done && t.out == [0x41#8] && t.len == 1#32 && t.ntok == 7 && t.cnt == 5 && t.nb == 0#4 &&
      t.buf == []) = true := by decide +kernel

/-- V134: `N = 3` with one byte present. -/
theorem test_dece_truncated : gives (exec .dece (decoding 7 0#13 2#4 [0x00#8, 0x00#8, 0x00#8, 0x03#8, 0xC1#8] []))
    (fun t => t.err == .truncatedPayload && t.eexp == 3#32 && t.ehave == 1#32 && t.len == 0#32) = true := by decide

/-- V36: the open call is not disturbed. -/
theorem test_cbrd : gives (exec (.cbrd 20#6) (opened 1)) (fun t => t == { opened 1 with lkp := token20 }) = true := by
  decide +kernel

/-- V37: `CBRD` executes in `ERR`. -/
theorem test_cbrd_in_err : gives (exec (.cbrd 4#6) reported) (fun t =>
    t == { reported with lkp := [0xE6#8, 0xB1#8, 0xAA#8, 0xE2#8, 0x80#8, 0xA6#8] }) = true := by decide +kernel

/-- V52 through the decoder: token 20, taken in after five tokens of zeros, gives the byte 01. -/
theorem test_tok20 : gives (exec .tok20 (decoding 5 0#13 6#4 [0x00#8, 0x00#8, 0x00#8] []))
    (fun t => t == decoding 6 4#13 4#4 [0x00#8, 0x00#8, 0x00#8, 0x01#8] []) = true := by decide +kernel

/-- V51 through the decoder: the last token of the codebook, first of a call. -/
theorem test_tok63 : gives (exec .tok63 (decoding 0 0#13 0#4 [] []))
    (fun t => t == decoding 1 63#13 6#4 [] []) = true := by decide +kernel

/-- V163 and V166: reserved words. -/
theorem test_reserved : gives (step (issued 0x0000000001#40 State.reset))
      (fun t => t.err == .illegalOp && t.phase == .err) = true ∧
    gives (step (issued 0x4000000000#40 doneA)) (fun t => t.err == .illegalOp && t.out == []) = true := by decide

/-- V39: reset with colliding tables. -/
theorem test_reset_collision : gives (step { opened 1 with cfg := collidingConfig, inbox := [.reset] })
    (fun t => t == stuck) = true := by
  decide +kernel

/-- The first word after reset, as the opcode table numbers it, is the one that runs. -/
theorem test_fetch : gives (step (State.reset.withFetchWord 40 0x2000000000))
    (fun t => t == decoding 0 0#13 0#4 [] []) = true := by
  decide +kernel

/-- V33 and V178 as the host reads them: `LKP` in its port, an address out of range. -/
theorem test_ports : lkpData { State.reset with lkp := token20 } = 0xE597B7E280A6000000#72 ∧
    outData doneA 32 = 0xA6#8 ∧ outData doneA 33 = 0x00#8 ∧ (hostView reported).err = 3#4 ∧
    (hostView reported).phase = 4#3 := by decide +kernel

/-! ### Witnesses: for every statement with hypotheses, a state and operands that meet them -/

/-- A configuration whose capacities are finite and that is otherwise the default (R9). -/
theorem tight_admissible : tightConfig.Admissible := by
  show tightConfig.admissible = true
  decide +kernel

/-- `IDLE` with finite capacities and a looked-up token. -/
def idleTight : State := tight { State.reset with lkp := token20 }

theorem idleTight_inv : RegInv idleTight where
  cfg := tight_admissible
  cbOk := by decide +kernel
  fatal := by decide
  errPhase := by decide
  collision := by decide
  accLt := by decide
  idle := fun _ => by constructor <;> rfl
  enc := fun h => absurd h (by decide)
  dec := fun h => absurd h (by decide)
  closed := fun _ _ => by constructor <;> rfl
  done := fun h => absurd h (by decide)
  out := fun _ => rfl
  etok := fun _ => ⟨rfl, rfl⟩
  ehave := fun _ => ⟨rfl, rfl⟩
  lkp := by decide

/-- The call of program P1 before `ENCE`, which the host issues next, at its capacity: the frame
has 5 bytes and `CAP = 5`. -/
def encTight : State := issued 0x1200000000#40 (tight afterP1)

theorem encTight_inv : RegInv encTight where
  cfg := tight_admissible
  cbOk := by decide +kernel
  fatal := by decide
  errPhase := by decide
  collision := by decide
  accLt := by decide
  idle := fun h => absurd h (by decide)
  enc := fun _ => by constructor <;> decide
  dec := fun h => absurd h (by decide)
  closed := fun h => absurd rfl h
  done := fun h => absurd h (by decide)
  out := fun _ => rfl
  etok := fun _ => ⟨rfl, rfl⟩
  ehave := fun _ => ⟨rfl, rfl⟩
  lkp := by decide

theorem encTight_trace : EncTrace encTight := ⟨[0#6, 0#6, 0#6, 0#6, 0#6, 20#6], by decide +kernel⟩

theorem encTight_data : DataInv encTight where
  enc := fun _ => encTight_trace
  dec := fun h => absurd h (by decide)
  doneEnc := fun h => absurd h (by decide)
  doneDec := fun h => absurd h (by decide)

/-- Six tokens into the decode call of program P2, the seventh still open; the host issues `DECE` next. -/
def decTight : State :=
  issued 0x2200000000#40
    (tight (decoding 6 4#13 4#4 [0x00#8, 0x00#8, 0x00#8, 0x01#8] (wang ++ [0xE2#8, 0x80#8, 0xA6#8])))

theorem decTight_inv : RegInv decTight where
  cfg := tight_admissible
  cbOk := by decide +kernel
  fatal := by decide
  errPhase := by decide
  collision := by decide
  accLt := by decide
  idle := fun h => absurd h (by decide)
  enc := fun h => absurd h (by decide)
  dec := fun _ => by constructor <;> decide
  closed := fun _ h => absurd rfl h
  done := fun h => absurd h (by decide)
  out := fun _ => rfl
  etok := fun _ => ⟨rfl, rfl⟩
  ehave := fun _ => ⟨rfl, rfl⟩
  lkp := by decide

theorem decTight_data : DataInv decTight where
  enc := fun h => absurd h (by decide)
  dec := fun _ => ⟨[0#6, 0#6, 0#6, 0#6, 0#6, 20#6], by decide +kernel⟩
  doneEnc := fun h => absurd h (by decide)
  doneDec := fun h => absurd h (by decide)

/-- A state with the same registers in which the host has moves left. -/
def withMove (m : HostMove) (s : State) : State := { s with inbox := [m, .reset] }

/-- The frame of the text of the byte 41 in `BUF`, seven tokens accepted, none open. -/
def framed : State := decoding 7 0#13 2#4 [0x00#8, 0x00#8, 0x00#8, 0x01#8, 0x41#8] []

/-- `OpcodeMapDecidesDecoding`: the last word of the last row. -/
theorem witness_opcode_map : (⟨"CBRD", 0x3000000000#40, 0xFFFFFFFFC0#40⟩ : CmdRow) ∈ cmdRows ∧
    0x300000003F#40 &&& 0xFFFFFFFFC0#40 = 0x3000000000#40 ∧ decode (.cmd 0x300000003F#40) = .ok (.cbrd 63#6) := by decide

/-- `ReservedWordRaisesIllegalOp`: in `IDLE` and in `FATAL`. -/
theorem witness_reserved_word : (issued 0x3000000040#40 State.reset).inbox = [.issue (.cmd 0x3000000040#40)] ∧
    (issued 0x3000000040#40 stuck).inbox = [.issue (.cmd 0x3000000040#40)] ∧
    ∀ r ∈ cmdRows, 0x3000000040#40 &&& r.mask ≠ r.pattern := by decide

/-- `StepRunsTheDecodedInstruction`: a command and a token. -/
theorem witness_step_runs : (issued 0x2000000000#40 State.reset).inbox = .issue (.cmd 0x2000000000#40) :: [] ∧
    decode (.cmd 0x2000000000#40) = .ok .decb ∧ decode (.tok 63#6) = .ok .tok63 := by decide

/-- `StepWaitsForTheHost`. -/
theorem witness_step_waits : (opened 1).inbox = [] := rfl

/-- `ResetRunsTheCodebookCheck`, `CodebookCheckMeansDistinct`: tables that pass. -/
theorem witness_reset_pass : (withMove .reset (opened 1)).inbox = .reset :: [.reset] ∧
    ∀ v w : Index, cbFwd (withMove .reset (opened 1)).cfg v = cbFwd (withMove .reset (opened 1)).cfg w → v = w :=
  ⟨rfl, cbFwd_injective standardConfig test_codebook_check.1⟩

/-- `ResetRunsTheCodebookCheck`, `CodebookCheckMeansDistinct`, `FatalDiscardsEveryWord`: tables that fail. -/
theorem witness_reset_fail : (withMove .reset stuck).inbox = .reset :: [.reset] ∧
    (2#6 : Index) ≠ 3#6 ∧ cbFwd stuck.cfg 2#6 = cbFwd stuck.cfg 3#6 := by decide

/-- `ResetStateIsExactly`, `ClrRestoresResetValues`: a finished call, and `FATAL`. -/
theorem witness_clr : doneA.phase ≠ .fatal ∧ doneA.cbOk = true ∧ stuck.phase = .fatal := by decide

/-- `LegalityByPhase`: a reserved word next. -/
theorem witness_legality : (issued 0x4000000000#40 (opened 1)).inbox = .issue (.cmd 0x4000000000#40) :: [] ∧
    decode (.cmd 0x4000000000#40) = .error (.reservedOp 0x40#8) := by decide

/-- `PhaseTransitionsAreTheTable`: commands that have their effect, a token's encoding, and `FATAL`. -/
theorem witness_phase : exec .nop doneA = .next doneA ∧ exec (.cbrd 0#6) doneA = .next { doneA with lkp := wang } ∧
    exec (.encb 1#32) State.reset = .next (opened 1) ∧
    exec (.decp 0x20#8) framed = .next framed ∧
    exec .clr doneA = .next State.reset ∧ exec (.encp 0x41#8) (opened 1) = .next afterP1 ∧
    exec .ence afterP1 = .next doneA ∧ exec .decb State.reset = .next (decoding 0 0#13 0#4 [] []) ∧
    exec .dece framed = .next { doneA with dir := .decode, cnt := 5, out := [0x41#8] } ∧
    encode .tok63 = .tok 63#6 ∧ exec .tok63 (decoding 0 0#13 0#4 [] []) = .next (decoding 1 63#13 6#4 [] []) ∧
    step (issued 0x1000000000#40 stuck) = .next stuck := by
  refine ⟨?_, ?_, ?_, ?_, ?_, ?_, ?_, ?_, ?_, ?_, ?_, ?_⟩ <;> rfl

/-- `FirstErrorIsSticky`, `FatalDiscardsEveryWord`: in `ERR` a discarded instruction and a reserved word. -/
theorem witness_sticky : reported.phase = .err ∧ encode (.encb 1#32) = .cmd 0x1000000001#40 ∧ Instr.encb 1#32 ≠ .nop ∧ Instr.encb 1#32 ≠ .clr ∧
    (∀ v, Instr.encb 1#32 ≠ .cbrd v) ∧ (issued 0x4000000000#40 reported).inbox = .issue (.cmd 0x4000000000#40) :: [] ∧
    (issued 0x4000000000#40 stuck).inbox = .issue (.cmd 0x4000000000#40) :: [] :=
  ⟨rfl, rfl, nofun, nofun, nofun, rfl, rfl⟩

/-- `CbrdReadsOneEntry`: in `ERR`, and in `FATAL`. -/
theorem witness_cbrd : reported.phase ≠ .fatal ∧ stuck.phase = .fatal := by decide

/-- `InverseLookupIsExact`: the spec's tables, a string too short, one too long, a hit and a miss. -/
theorem witness_inverse : tokensDistinct standardConfig = true ∧ standardConfig.Admissible ∧
    standardConfig.core = coreTable ∧ standardConfig.tone = toneTable ∧ ([0xE6#8, 0xB1#8] : Bytes).length < 3 ∧
    9 < (wang ++ wang ++ wang ++ [0x2E#8]).length ∧ cbRev standardConfig wang = some 0#6 ∧
    cbRev standardConfig (wang ++ wang ++ wang) = none :=
  ⟨test_codebook_check.1, test_config_accepts.1, rfl, rfl, by decide, by decide, by decide, by decide⟩

/-- `Utf8CheckIsTheTable`: the default configuration. -/
theorem witness_utf8 : standardConfig.utf8 = .table := rfl

/-- `EngineIsABitQueue`: canonical engines at the ends of the range of `NB`. -/
theorem witness_engine : (Engine.mk 31#13 5#4).acc.toNat < 2 ^ (Engine.mk 31#13 5#4).nb.toNat ∧
    (Engine.mk 31#13 5#4).nb.toNat < 6 ∧ 0 < (Engine.mk 31#13 5#4).nb.toNat ∧
    (Engine.mk 127#13 7#4).acc.toNat < 2 ^ (Engine.mk 127#13 7#4).nb.toNat ∧ (Engine.mk 127#13 7#4).nb.toNat < 8 ∧
    (Engine.mk 0#13 0#4).nb = 0#4 := by decide

/-- `rg_flush(6)` as `ENCE` performs it (V61, V60): the last group leaves and the engine is empty; an empty one
emits nothing. -/
theorem test_flush_empties : (rgFlush 6 ⟨1#13, 2#4⟩, engineOf (flushGroup { opened 1 with acc := 1#13 })) =
      ([16#6], emptyEngine) ∧
    (flushGroup { opened 1 with acc := 0#13, nb := 0#4 }).ntok = 5 := by decide

/-- `EncbOpensTheCall`: the longest payload `CAP = 5` allows, one byte more, and the other phases. -/
theorem witness_encb : idleTight.phase = .idle ∧ fits (4 + (1#32).toNat) idleTight.cfg.cap = true ∧
    fits (4 + (2#32).toNat) idleTight.cfg.cap = false ∧ (opened 1).phase = .enc ∧ framed.phase = .dec ∧
    doneA.phase = .done ∧ reported.phase = .err ∧ stuck.phase = .fatal := by decide

/-- `EncpPacksOneByte`: the last byte allowed, the first too many, and the other phases. -/
theorem witness_encp : (opened 1).phase = .enc ∧ (opened 1).cnt < (opened 1).len.toNat ∧ afterP1.phase = .enc ∧
    afterP1.len.toNat ≤ afterP1.cnt ∧ idleTight.phase = .idle ∧ framed.phase = .dec ∧ doneA.phase = .done ∧
    reported.phase = .err ∧ stuck.phase = .fatal := by decide

/-- `EnceCommitsTheText`: a valid payload with the invariants, an invalid one, and a call not complete. -/
theorem witness_ence : encTight.phase = .enc ∧ encTight.cnt = encTight.len.toNat ∧
    utf8Ok encTight.cfg encTight.pay = true ∧ RegInv encTight ∧ EncTrace encTight ∧
    utf8Ok encTight.cfg { encTight with pay := [0xFF#8] }.pay = false ∧ (opened 1).cnt ≠ (opened 1).len.toNat :=
  ⟨rfl, by decide, by decide, encTight_inv, encTight_trace, by decide, by decide⟩

/-- `PaddingBitsAreZero`: three bytes. -/
theorem witness_padding : ([0x61#8, 0x62#8, 0x63#8] : Bytes).length < 4 ∧
    ([0x61#8, 0x62#8, 0x63#8, 0x64#8] : Bytes).length < 2 ^ 26 := by decide

/-- `DecbOpensTheCall`. -/
theorem witness_decb : idleTight.phase = .idle ∧ (opened 1).phase = .enc ∧ framed.phase = .dec ∧ doneA.phase = .done ∧
    reported.phase = .err ∧ stuck.phase = .fatal := by decide

/-- `DecpTakesOneByte`, an ordinary byte: the last that `TOKCAP = 10` allows, and the first too many. -/
theorem witness_decp_byte : (tight (decoding 0 0#13 0#4 [] (List.replicate 9 0x41#8))).phase = .dec ∧
    0x41#8 ∉ tightConfig.ws8 ∧
    fits ((tight (decoding 0 0#13 0#4 [] (List.replicate 9 0x41#8))).tokbuf.length + 1) tightConfig.tokCap = true ∧
    fits ((tight (decoding 0 0#13 0#4 [] (List.replicate 10 0x41#8))).tokbuf.length + 1) tightConfig.tokCap = false := by
  decide

/-- Token 0 open after `n` accepted tokens that left those bytes and that engine, under finite capacities. -/
def closing (n : Nat) (nb : BitVec 4) (bytes : Nat) : State :=
  tight (decoding n 0#13 nb (List.replicate bytes 0x00#8) wang)

/-- `DecpTakesOneByte`, a separator: nothing open, a miss, a hit without a byte, the last byte that `CAP = 5`
allows, the first too many, and the other phases. -/
theorem witness_decp_close : framed.phase = .dec ∧ 0x20#8 ∈ framed.cfg.ws8 ∧ framed.tokbuf = [] ∧
    { framed with tokbuf := [0x41#8] }.tokbuf ≠ [] ∧ cbRev framed.cfg [0x41#8] = none ∧
    (closing 4 0#4 3).phase = .dec ∧ 0x20#8 ∈ (closing 4 0#4 3).cfg.ws8 ∧ (closing 4 0#4 3).tokbuf ≠ [] ∧
    cbRev (closing 4 0#4 3).cfg (closing 4 0#4 3).tokbuf = some 0#6 ∧ (rgPush 6 8 0#6 ⟨0#13, 0#4⟩).1 = [] ∧
    (rgPush 6 8 0#6 ⟨0#13, (closing 6 4#4 4).nb⟩).1 ≠ [] ∧
    fits ((closing 6 4#4 4).buf.length + 1) (closing 6 4#4 4).cfg.cap = true ∧
    (rgPush 6 8 0#6 ⟨0#13, (closing 7 2#4 5).nb⟩).1 ≠ [] ∧
    fits ((closing 7 2#4 5).buf.length + 1) (closing 7 2#4 5).cfg.cap = false ∧
    idleTight.phase = .idle ∧ (opened 1).phase = .enc ∧ doneA.phase = .done ∧ reported.phase = .err ∧
    stuck.phase = .fatal := by decide

/-- `TkCloseLooksTheTokenUp`: nothing open, a miss, a hit. -/
theorem witness_tk_close : framed.tokbuf = [] ∧ { framed with tokbuf := [0x41#8] }.tokbuf ≠ [] ∧
    (∀ v : Index, cbFwd framed.cfg v ≠ [0x41#8]) ∧ tokensDistinct decTight.cfg = true ∧ decTight.tokbuf ≠ [] ∧
    cbFwd decTight.cfg 4#6 = decTight.tokbuf := by
  refine ⟨rfl, by decide, ?_, by decide +kernel, by decide, by decide⟩
  intro v h
  have hl := (cbFwd_length standardConfig test_config_accepts.1 v).1
  rw [show cbFwd standardConfig v = [0x41#8] from h] at hl
  exact absurd hl (by decide)

/-- A decode call with no token open and those bytes. -/
def atEnd (ntok : Nat) (buf : Bytes) : State := decoding ntok 0#13 0#4 buf []

/-- `DeceChecksAndCommits`: an error of the closing, no token, three bytes, a payload one byte short, an
ill-formed payload of exactly `N` bytes, a frame that commits, and the other phases. -/
theorem witness_dece : tkClose { framed with tokbuf := [0x41#8] } = .error (.unknownToken [0x41#8] 7) ∧
    tkClose (atEnd 0 []) = .ok (atEnd 0 []) ∧ (atEnd 0 []).ntok = 0 ∧
    tkClose (atEnd 5 [0x00#8, 0x00#8, 0x00#8]) = .ok (atEnd 5 [0x00#8, 0x00#8, 0x00#8]) ∧
    0 < (atEnd 5 [0x00#8, 0x00#8, 0x00#8]).ntok ∧ (atEnd 5 [0x00#8, 0x00#8, 0x00#8]).buf.length < 4 ∧
    (atEnd 6 [0x00#8, 0x00#8, 0x00#8, 0x01#8]).buf = 0x00#8 :: 0x00#8 :: 0x00#8 :: 0x01#8 :: [] ∧
    ([] : Bytes).length < (be32 0x00#8 0x00#8 0x00#8 0x01#8).toNat ∧
    (atEnd 7 [0x00#8, 0x00#8, 0x00#8, 0x01#8, 0xFF#8]).buf = 0x00#8 :: 0x00#8 :: 0x00#8 :: 0x01#8 :: [0xFF#8] ∧
    (be32 0x00#8 0x00#8 0x00#8 0x01#8).toNat ≤ ([0xFF#8] : Bytes).length ∧
    utf8Ok standardConfig (([0xFF#8] : Bytes).take (be32 0x00#8 0x00#8 0x00#8 0x01#8).toNat) = false ∧
    tkClose framed = .ok framed ∧ 0 < framed.ntok ∧ framed.buf = 0x00#8 :: 0x00#8 :: 0x00#8 :: 0x01#8 :: [0x41#8] ∧
    utf8Ok framed.cfg (([0x41#8] : Bytes).take (be32 0x00#8 0x00#8 0x00#8 0x01#8).toNat) = true ∧
    framed.phase = .dec ∧ idleTight.phase = .idle ∧ (opened 1).phase = .enc ∧ doneA.phase = .done ∧
    reported.phase = .err ∧ stuck.phase = .fatal := by
  refine ⟨rfl, rfl, rfl, rfl, ?_⟩
  decide

/-- `HeaderIsBigEndian`: the capacity and a header in `BUF`. -/
theorem witness_header : fits (4 + (1#32).toNat) tightConfig.cap = true ∧
    framed.buf = 0x00#8 :: 0x00#8 :: 0x00#8 :: 0x01#8 :: [0x41#8] := by decide

/-- `LeftoverBitsAreNeverExamined`, `SlackBytesAreIgnored`: a frame with no byte to spare. -/
theorem witness_leftover : framed.phase = .dec ∧ framed.tokbuf = [] ∧ 0 < framed.ntok ∧ 4 ≤ framed.buf.length ∧
    (headerOf framed.buf).toNat + 4 ≤ framed.buf.length ∧
    utf8Ok framed.cfg ((framed.buf.drop 4).take (headerOf framed.buf).toNat) = true := by decide

/-- `TokenTakesItsIndexIn`: the last token, where no byte comes out, where the last byte that `CAP = 5` allows
does, where one too many does, and the other phases. -/
theorem witness_token : encode .tok63 = .tok 63#6 ∧ (tight (atEnd 4 [0x00#8, 0x00#8, 0x00#8])).phase = .dec ∧
    (tight (atEnd 4 [0x00#8, 0x00#8, 0x00#8])).tokbuf = [] ∧ tightConfig.Admissible ∧
    tokensDistinct tightConfig = true ∧ (rgPush 6 8 63#6 ⟨0#13, 0#4⟩).1 = [] ∧
    (tight (decoding 6 4#13 4#4 [0x00#8, 0x00#8, 0x00#8, 0x01#8] [])).tokbuf = [] ∧
    (rgPush 6 8 63#6 ⟨4#13, 4#4⟩).1 ≠ [] ∧ fits (4 + 1) tightConfig.cap = true ∧
    (tight framed).tokbuf = [] ∧ (rgPush 6 8 63#6 ⟨(tight framed).acc, (tight framed).nb⟩).1 ≠ [] ∧
    fits ((tight framed).buf.length + 1) (tight framed).cfg.cap = false ∧
    idleTight.phase = .idle ∧ (opened 1).phase = .enc ∧ doneA.phase = .done ∧ reported.phase = .err ∧
    stuck.phase = .fatal :=
  ⟨rfl, rfl, rfl, tight_admissible, by decide +kernel, by decide⟩

/-- `TokenIsItsBytes`, `NoCommandWritesParameters`, `LookupAndDirectionFrame`: a token that runs. -/
theorem witness_token_runs : encode .tok20 = .tok 20#6 ∧
    exec .tok20 (decoding 5 0#13 6#4 [0x00#8, 0x00#8, 0x00#8] []) =
      .next (decoding 6 4#13 4#4 [0x00#8, 0x00#8, 0x00#8, 0x01#8] []) ∧
    (∀ v, Instr.tok20 ≠ .cbrd v) ∧ Instr.tok20 ≠ .clr ∧ (∀ L, Instr.tok20 ≠ .encb L) ∧ Instr.tok20 ≠ .decb :=
  ⟨rfl, rfl, nofun, nofun, nofun, nofun⟩

/-- `ErrorReportFrame`: a command in `ERR`, and one that stays out of it. -/
theorem witness_error_frame : exec (.encb 1#32) reported = .next reported ∧ Instr.encb 1#32 ≠ .clr ∧
    (reported.phase = .err → reported.phase = .err) ∧ exec .ence afterP1 = .next doneA ∧ Instr.ence ≠ .clr ∧
    doneA.phase ≠ .err := ⟨rfl, nofun, id, rfl, nofun, nofun⟩

/-- `OutputAppearsOnlyAtCommit`: `OUT` filled by a commit, and emptied by `CLR`. -/
theorem witness_output : exec .ence afterP1 = .next doneA ∧ readByte doneA .out 32 ≠ readByte afterP1 .out 32 ∧
    exec .clr doneA = .next State.reset ∧ readByte State.reset .out 0 ≠ readByte doneA .out 0 :=
  ⟨rfl, by decide, rfl, by decide⟩

/-- `OtherDirectionBuffersFrame`: an encoder command and a token, neither ending in `ERR`. -/
theorem witness_buffers : exec (.encp 0x41#8) (opened 1) = .next afterP1 ∧ afterP1.phase ≠ .err ∧
    exec .tok63 (decoding 0 0#13 0#4 [] []) = .next (decoding 1 63#13 6#4 [] []) ∧ encode .tok63 = .tok 63#6 ∧
    (decoding 1 63#13 6#4 [] []).phase ≠ .err := ⟨rfl, nofun, rfl, rfl, nofun⟩

/-- `StepKeepsRegisterInvariant`, `StepKeepsDataInvariant`: a call that commits, in each direction. -/
theorem witness_invariants : RegInv encTight ∧ DataInv encTight ∧ RegInv decTight ∧ DataInv decTight ∧
    (∃ t, step encTight = .next t ∧ t.phase = .done) ∧ (∃ t, step decTight = .next t ∧ t.phase = .done) :=
  ⟨encTight_inv, encTight_data, decTight_inv, decTight_data, ⟨_, rfl, rfl⟩, ⟨_, rfl, rfl⟩⟩

/-- `StepKeepsDataInvariant`, encode direction: `ENCB` at the capacity and the only byte, from states with the
invariants; `NOP` in `ENC` (`ENCE`: `witness_invariants`). -/
theorem witness_data_encode : RegInv (issued 0x1000000001#40 idleTight) ∧ DataInv (issued 0x1000000001#40 idleTight) ∧
    step (issued 0x1000000001#40 idleTight) = .next { tight (opened 1) with lkp := token20 } ∧
    decode (.cmd 0x1000000001#40) = .ok (.encb 1#32) ∧
    (∃ t, step (issued 0x1100000041#40 (tight (opened 1))) = .next t ∧ t.phase = .enc ∧ t.pay = [0x41#8]) ∧
    RegInv (issued 0x0000000000#40 encTight) ∧ DataInv (issued 0x0000000000#40 encTight) ∧
    (∃ t, step (issued 0x0000000000#40 encTight) = .next t ∧ t.phase = .enc) :=
  ⟨regInv_withInbox _ _ idleTight_inv, ⟨nofun, nofun, nofun, nofun⟩, rfl, rfl, ⟨_, rfl, rfl, rfl⟩,
    regInv_withInbox _ _ encTight_inv, dataInv_withInbox _ _ encTight_data, ⟨_, rfl, rfl⟩⟩

/-- The indices of the six tokens accepted in `decTight` (P2). -/
def sixIndices : List Index := [0#6, 0#6, 0#6, 0#6, 0#6, 20#6]

/-- `StepKeepsDataInvariant`, decode direction: `DECB`; the separator and the end of the frame that close token 4
after six tokens; an ordinary byte; and a delivered token that nothing open precedes. -/
theorem witness_data_decode : DecTraceOf sixIndices decTight ∧
    TakesIn decTight .dece [4#6] ∧ TakesIn decTight (.decp 0x20#8) [4#6] ∧ TakesIn decTight (.decp 0x41#8) [] ∧
    RegInv (issued 0x2100000020#40 decTight) ∧ DataInv (issued 0x2100000020#40 decTight) ∧
    (∃ t, step (issued 0x2100000020#40 decTight) = .next t ∧ t.phase = .dec ∧ t.buf.length = 5) ∧
    (∃ t, step (issued 0x2100000041#40 decTight) = .next t ∧ t.phase = .dec) ∧
    TakesIn (atEnd 0 []) .tok63 [63#6] ∧ DecTraceOf [] (atEnd 0 []) ∧
    TakesIn (atEnd 0 []) (.decp 0x20#8) [] ∧ TakesIn framed .dece [] ∧
    (∃ t, step { atEnd 0 [] with inbox := [.issue (.tok 63#6)] } = .next t ∧ t.phase = .dec ∧ t.ntok = 1) ∧
    (∃ t, step (issued 0x2000000000#40 idleTight) = .next t ∧ t.phase = .dec) := by
  refine ⟨by decide +kernel, .finishClose _ (by decide), .close _ _ (by decide) (by decide), .byte _ (by decide),
    regInv_withInbox _ _ decTight_inv, dataInv_withInbox _ _ decTight_data, ⟨_, rfl, rfl, rfl⟩, ⟨_, rfl, rfl⟩,
    .token _ 63#6 63#6 rfl (by decide), by decide, .separator _ (by decide) rfl, .finish rfl, ⟨_, rfl, rfl, rfl⟩, ⟨_, rfl, rfl⟩⟩

/-- `EncodeCallIsItsClosedForm`, `EncodeThenDecodeReturnsThePayload`: a payload at the capacity, valid and not. -/
theorem witness_encode : RegInv idleTight ∧ idleTight.phase = .idle ∧ ([0x41#8] : Bytes).length < 2 ^ 32 ∧
    fits (4 + ([0x41#8] : Bytes).length) idleTight.cfg.cap = true ∧ utf8Ok idleTight.cfg [0x41#8] = true ∧
    utf8Ok idleTight.cfg [0xFF#8] = false :=
  ⟨idleTight_inv, rfl, by decide, by decide, by decide, by decide⟩

/-- `IDLE` with infinite capacities and a looked-up token. -/
def idleLookedUp : State := { State.reset with lkp := token20 }

/-- `DecodeCallIsItsClosedForm`: infinite capacities. -/
theorem witness_decode : RegInv idleLookedUp ∧ idleLookedUp.phase = .idle ∧ idleLookedUp.cfg.cap = none ∧
    idleLookedUp.cfg.tokCap = none :=
  ⟨{ cfg := test_config_accepts.1
     cbOk := test_codebook_check.1.symm
     fatal := by decide
     errPhase := by decide
     collision := by decide
     accLt := by decide
     idle := fun _ => by constructor <;> rfl
     enc := fun h => absurd h (by decide)
     dec := fun h => absurd h (by decide)
     closed := fun _ _ => by constructor <;> rfl
     done := fun h => absurd h (by decide)
     out := fun _ => rfl
     etok := fun _ => ⟨rfl, rfl⟩
     ehave := fun _ => ⟨rfl, rfl⟩
     lkp := by decide }, rfl, rfl, rfl⟩

/-- `TokenCountLaw`: the call for the empty text, run from `IDLE`, ends in `DONE` (T5). -/
theorem witness_token_count : RegInv idleTight ∧ idleTight.phase = .idle ∧
    (∃ t, encodeCall [] idleTight = .next t ∧ t.phase = .done ∧ t.ntok = 6) :=
  ⟨idleTight_inv, rfl, _, rfl, rfl, rfl⟩

/-- `OversizedPayloadIsRefused`: a payload of 2^32 bytes, and a call at its declared length. -/
theorem witness_oversized : 2 ^ 32 ≤ (List.replicate (2 ^ 32) 0x41#8).length ∧ afterP1.phase = .enc ∧
    afterP1.cnt = afterP1.len.toNat := ⟨Nat.le_of_eq (List.length_replicate ..).symm, rfl, rfl⟩

/-- `HostReadsThePorts`: an address in range, one out of range, a looked-up token. -/
theorem witness_ports : readByte doneA .out 0 = some 0xE6#8 ∧ readByte doneA .out 33 = none ∧
    readByte reported .etok 0 = some 0x77#8 ∧ readByte reported .etok 1 = none ∧ idleTight.lkp.length ≤ 9 := by decide

/-! ### Runs (R5): the expected results are those of T1, T5 and 70_reset R154 -/

/-- `IDLE` with finite capacities, where the host has made those moves. -/
def moved (ms : List HostMove) : State := { idleTight with inbox := ms }

/-- The run of `ENCODE` of no bytes ends in `DONE` with its text (T5), that of `DECODE` of no bytes in `ERR`. -/
theorem test_run_results :
    runResult (moved ((encodeCommands []).map issueOf)) = some (.output (fiveWang ++ 0x20#8 :: wang)) ∧
    runResult (moved ((decodeCommands []).map issueOf)) = some (.failure .emptyInput [] 0 0#32 0#32) := by
  decide +kernel

/-- An end phase without `ENCB` or `DECB` before it is no end of a run: `ERR` after a reserved word in `IDLE`,
`FATAL` after a reset. -/
theorem test_no_run : gives (step (moved [.issue (.cmd 0x4000000000#40)])) (fun t => t.phase == .err) = true ∧
    runOf (moved [.issue (.cmd 0x4000000000#40)]) = none ∧
    gives (step { stuck with inbox := [.reset] }) (fun t => t.phase == .fatal) = true ∧
    runOf { stuck with inbox := [.reset] } = none ∧ runOf stuck = none := by decide +kernel

/-- A run abandoned by `CLR` or by reset, or still open, has no result; it ends at the first error even where
more commands follow. -/
theorem test_run_fates : runOf (moved [issueOf .decb, issueOf .clr, issueOf .dece]) = some .abandoned ∧
    runOf (moved [issueOf (.encb 1#32), .reset]) = some .abandoned ∧
    runOf (moved [issueOf .decb]) = some .unfinished ∧
    runResult (moved [issueOf .decb, issueOf .dece, issueOf .clr]) =
      some (.failure .emptyInput [] 0 0#32 0#32) := by decide +kernel


/-- `RunEndsAtTheFirstEndState`: no move, a move that opens nothing, and a run of each fate, the ones that end
in `DONE`, `ERR` and `FATAL` among them. -/
theorem witness_run : (moved []).inbox = [] ∧ (∀ L : Length, HostMove.reset ≠ issueOf (.encb L)) ∧
    HostMove.reset ≠ issueOf .decb ∧ (moved [issueOf .decb, issueOf .clr]).inbox = issueOf .decb :: [issueOf .clr] ∧
    (∃ L : Length, issueOf (.encb 0#32) = issueOf (.encb L)) ∧
    (∃ t, runOf (moved [issueOf (.encb 0#32), issueOf .ence]) = some (.ended t) ∧ t.phase = .done) ∧
    (∃ t, runOf (moved [issueOf (.encb 2#32)]) = some (.ended t) ∧ t.phase = .err) ∧
    runOf { stuck with inbox := [issueOf .decb] } = some (.ended stuck) ∧ stuck.phase = .fatal ∧
    runOf (moved [issueOf .decb, issueOf .clr]) = some .abandoned ∧ runOf (moved [issueOf .decb]) = some .unfinished :=
  ⟨rfl, nofun, nofun, rfl, ⟨_, rfl⟩, ⟨_, rfl, rfl⟩, ⟨_, rfl, rfl⟩, rfl, rfl, rfl, rfl⟩

/-- `IDLE`, where the host opens a call that the capacity refuses: 4 + 2 bytes against `CAP = 5`. -/
def refusedRun : State := moved [issueOf (.encb 2#32)]

theorem refusedRun_inv : RegInv refusedRun where
  cfg := tight_admissible
  cbOk := by decide +kernel
  fatal := by decide
  errPhase := by decide
  collision := by decide
  accLt := by decide
  idle := fun _ => by constructor <;> rfl
  enc := fun h => absurd h (by decide)
  dec := fun h => absurd h (by decide)
  closed := fun _ _ => by constructor <;> rfl
  done := fun h => absurd h (by decide)
  out := fun _ => rfl
  etok := fun _ => ⟨rfl, rfl⟩
  ehave := fun _ => ⟨rfl, rfl⟩
  lkp := by decide

/-- `RunResultIsReadAtItsEnd`: a run that ends in `ERR` from a state with the register invariant (`DONE` and
`FATAL`: `witness_run`), and `CLR` and reset right after the opening. -/
theorem witness_run_result : RegInv refusedRun ∧
    (∃ t, runOf refusedRun = some (.ended t) ∧ t.phase = .err) ∧ runOf (moved []) = none ∧
    (∃ t, step (moved [issueOf .decb, issueOf .clr]) = .next t ∧ t.phase = .dec ∧ t.inbox = issueOf .clr :: []) ∧
    (∃ t, step (moved [issueOf (.encb 1#32), .reset]) = .next t ∧ t.phase = .enc ∧ t.inbox = .reset :: []) :=
  ⟨refusedRun_inv, ⟨_, rfl, rfl⟩, rfl, ⟨_, rfl, rfl, rfl⟩, ⟨_, rfl, rfl, rfl⟩⟩

/-- `CallsEndInTheirClosedFormResult`: a payload at the capacity, valid and not, one beyond it; and infinite
capacities. -/
theorem witness_run_closed : RegInv idleTight ∧ idleTight.phase = .idle ∧ ([0x41#8] : Bytes).length < 2 ^ 32 ∧
    fits (4 + ([0x41#8] : Bytes).length) idleTight.cfg.cap = true ∧ utf8Ok idleTight.cfg [0x41#8] = true ∧
    utf8Ok idleTight.cfg [0xFF#8] = false ∧
    fits (4 + ([0x41#8, 0x41#8] : Bytes).length) idleTight.cfg.cap = false ∧
    RegInv idleLookedUp ∧ idleLookedUp.phase = .idle ∧ idleLookedUp.cfg.cap = none ∧ idleLookedUp.cfg.tokCap = none :=
  ⟨idleTight_inv, rfl, by decide, by decide, by decide, by decide, by decide, witness_decode⟩

end Sys2Proof.Tests
end

section
/-! SUPPORT. The frame header (R45, R69): a length is its four bytes side by side, most significant first, so
its value is positional in base 256, and splitting a length and joining its bytes undo each other. -/

namespace Sys2Proof.Machine

/-- The first header byte stands on top (R45). -/
theorem be32_eq_append (b0 b1 b2 b3 : Byte) : be32 b0 b1 b2 b3 = b0 ++ b1 ++ b2 ++ b3 := by
  have joined := BitVec.setWidth_append_append_append_eq_shiftLeft_setWidth_or
    (b := b0) (b' := b1) (b'' := b2) (b''' := b3) (w'''' := 32)
  rw [BitVec.setWidth_eq] at joined
  exact joined.symm

/-- A byte put below a word is one more digit in base 256. -/
theorem toNat_append_byte {w : Nat} (x : BitVec w) (b : Byte) : (x ++ b).toNat = x.toNat * 2 ^ 8 + b.toNat := by
  rw [BitVec.toNat_append, ← Nat.shiftLeft_add_eq_or_of_lt b.isLt, Nat.shiftLeft_eq]

/-- The declared length is the positional value of the header bytes (R45). -/
theorem toNat_be32 (b0 b1 b2 b3 : Byte) :
    (be32 b0 b1 b2 b3).toNat = b0.toNat * 2 ^ 24 + b1.toNat * 2 ^ 16 + b2.toNat * 2 ^ 8 + b3.toNat := by
  rw [be32_eq_append]
  simp only [toNat_append_byte]
  omega

/-- The byte of a length that starts at bit `k` is its digit there. -/
theorem toNat_byteAt (L : Length) (k : Nat) : (L.extractLsb' k 8).toNat = L.toNat / 2 ^ k % 2 ^ 8 := by
  rw [BitVec.extractLsb'_toNat, Nat.shiftRight_eq_div_pow]

@[simp] theorem toNat_lenByte3 (L : Length) : (lenByte3 L).toNat = L.toNat / 2 ^ 24 % 2 ^ 8 := toNat_byteAt L 24

@[simp] theorem toNat_lenByte2 (L : Length) : (lenByte2 L).toNat = L.toNat / 2 ^ 16 % 2 ^ 8 := toNat_byteAt L 16

@[simp] theorem toNat_lenByte1 (L : Length) : (lenByte1 L).toNat = L.toNat / 2 ^ 8 % 2 ^ 8 := toNat_byteAt L 8

@[simp] theorem toNat_lenByte0 (L : Length) : (lenByte0 L).toNat = L.toNat / 2 ^ 0 % 2 ^ 8 := toNat_byteAt L 0

/-- Splitting a declared length gives the header's bytes back (R45): each byte is a digit of the value. -/
theorem be32Bytes_be32 (b0 b1 b2 b3 : Byte) : be32Bytes (be32 b0 b1 b2 b3) = [b0, b1, b2, b3] := by
  simp only [be32Bytes, List.cons.injEq, and_true, ← BitVec.toNat_inj, toNat_lenByte3, toNat_lenByte2,
    toNat_lenByte1, toNat_lenByte0, toNat_be32]
  omega

/-- Reading the header that a length was split into gives the length back (R45): a number is its digits. -/
theorem headerOf_be32Bytes (L : Length) : headerOf (be32Bytes L) = L := by
  have joined : be32 (lenByte3 L) (lenByte2 L) (lenByte1 L) (lenByte0 L) = L := by
    apply BitVec.eq_of_toNat_eq
    rw [toNat_be32, toNat_lenByte3, toNat_lenByte2, toNat_lenByte1, toNat_lenByte0]
    omega
  exact joined

/-- With room for the frame, `ENCB` packs the four header bytes in their order, into a cleared engine and a call
with nothing counted (R45, R105). -/
theorem encbBody_packs_be32Bytes (L : Length) (s : State) (room : fits (4 + L.toNat) s.cfg.cap = true) :
    encbBody L s = .ok { (be32Bytes L).foldl (fun t x => encByte x t)
      { s with dir := .encode, len := L, cnt := 0, ntok := 0, acc := 0#13, nb := 0#4 } with phase := .enc } := by
  simp only [encbBody, room, if_true, be32Bytes, List.foldl_cons, List.foldl_nil, rgClr, setEngine, emptyEngine]

/-- With four bytes or more in `BUF`, `hdr_read` writes the length they declare, whatever follows them (R118). -/
theorem hdrRead_of_four_bytes (b0 b1 b2 b3 : Byte) (rest : Bytes) (s : State)
    (hbuf : s.buf = b0 :: b1 :: b2 :: b3 :: rest) : hdrRead s = .ok { s with len := be32 b0 b1 b2 b3 } := by
  rw [hdrRead, hbuf]

end Sys2Proof.Machine
end

section
/-! PROOF. The length header (20_memory R45). -/

namespace Sys2Proof.Proofs

open Sys2Proof.Machine

/-- Settles O34: both directions of the header are positional in base 256 with the first byte on top, and the
digits of a number determine it and are determined by it. -/
theorem headerIsBigEndian : Obligations.HeaderIsBigEndian :=
  ⟨fun _ => rfl, encbBody_packs_be32Bytes, hdrRead_of_four_bytes, toNat_be32, be32Bytes_be32, headerOf_be32Bytes⟩

end Sys2Proof.Proofs
end

section
/-! SUPPORT. The opcode map (R74) and the decoder: encoding and decoding undo each other on command words, and a
word matches a row of the map exactly when it is the encoding of an instruction that the row names. -/

namespace Sys2Proof

/-- An instruction is accepted under the check of its reserved bits when the check passes (R75). -/
theorem whenClear_eq_ok {clear : Bool} {op : Byte} {i j : Instr} (h : whenClear clear op i = .ok j) :
    clear = true ∧ i = j := by
  cases clear with
  | true => exact ⟨rfl, Except.ok.inj h⟩
  | false => cases h

/-- Every instruction's encoding decodes to it. -/
theorem decode_encode (i : Instr) : decode (encode i) = .ok i := by
  cases i with
  | nop => rfl
  | clr => rfl
  | ence => rfl
  | decb => rfl
  | dece => rfl
  | encb L =>
    simp [encode, decode, decodeCmd, opNop, opClr, opEncb]
  | encp b =>
    simp [encode, decode, decodeCmd, whenClear, byteOperand, opNop, opClr, opEncb, opEncp]
  | decp b =>
    simp [encode, decode, decodeCmd, whenClear, byteOperand, opNop, opClr, opEncb, opEncp, opEnce, opDecb, opDecp]
  | cbrd v =>
    simp [encode, decode, decodeCmd, whenClear, indexOperand, opNop, opClr, opEncb, opEncp, opEnce, opDecb, opDecp,
      opDece, opCbrd]
  | _ => rfl

/-- A command word that decodes is the encoding of its instruction: `op` and the operand are its fields, and the
reserved bits are clear. -/
theorem encode_of_decode_cmd {w : CmdWord} {i : Instr} (h : decode (.cmd w) = .ok i) : encode i = .cmd w := by
  have word : ∀ {op : Byte} {arg : BitVec 32}, cmdOp w = op → cmdArg w = arg →
      Wire.cmd (cmdOf op arg) = .cmd w := by
    rintro _ _ rfl rfl
    rw [cmdOf_fields]
  simp only [decode, decodeCmd] at h
  split_ifs at h with nop clr encb encp ence decb decp dece cbrd
  · obtain ⟨hc, rfl⟩ := whenClear_eq_ok h
    exact word nop (eq_of_beq hc)
  · obtain ⟨hc, rfl⟩ := whenClear_eq_ok h
    exact word clr (eq_of_beq hc)
  · obtain rfl := Except.ok.inj h
    exact word encb rfl
  · obtain ⟨hc, rfl⟩ := whenClear_eq_ok h
    exact word encp (setWidth_byteOperand _ (eq_of_beq hc)).symm
  · obtain ⟨hc, rfl⟩ := whenClear_eq_ok h
    exact word ence (eq_of_beq hc)
  · obtain ⟨hc, rfl⟩ := whenClear_eq_ok h
    exact word decb (eq_of_beq hc)
  · obtain ⟨hc, rfl⟩ := whenClear_eq_ok h
    exact word decp (setWidth_byteOperand _ (eq_of_beq hc)).symm
  · obtain ⟨hc, rfl⟩ := whenClear_eq_ok h
    exact word dece (eq_of_beq hc)
  · obtain ⟨hc, rfl⟩ := whenClear_eq_ok h
    exact word cbrd (setWidth_indexOperand _ (eq_of_beq hc)).symm

/-- A command word decodes to an instruction exactly when it is the instruction's encoding. -/
theorem decode_cmd_eq_ok_iff {w : CmdWord} {i : Instr} : decode (.cmd w) = .ok i ↔ encode i = .cmd w :=
  ⟨encode_of_decode_cmd, fun h => h ▸ decode_encode i⟩

/-- The instruction of a command word has the word's `arg` as its operand (R72). -/
theorem commandArg_of_encode {w : CmdWord} {i : Instr} (h : encode i = .cmd w) : commandArg i = cmdArg w := by
  cases i <;> cases h <;> exact (cmdArg_cmdOf _ _).symm

/-- A word with a mask that fixes `op` and clears the operand above its low `k` bits is built from `op` and those
bits (R72, R74). -/
theorem eq_cmdOf_of_mask (k : Nat) (op : Byte) {w : CmdWord}
    (h : w &&& cmdOf 0xFF#8 (BitVec.allOnes 32 <<< k) = cmdOf op 0#32) :
    w = cmdOf op (((cmdArg w).extractLsb' 0 k).setWidth 32) := by
  have hop : cmdOp w = op := by
    have := congrArg cmdOp h
    rwa [cmdOp_and, cmdOp_cmdOf, cmdOp_cmdOf, show 0xFF#8 = BitVec.allOnes 8 from rfl, BitVec.and_allOnes] at this
  have harg : cmdArg w &&& BitVec.allOnes 32 <<< k = 0#32 := by
    have := congrArg cmdArg h
    rwa [cmdArg_and, cmdArg_cmdOf, cmdArg_cmdOf] at this
  have low : ((cmdArg w).extractLsb' 0 k).setWidth 32 = cmdArg w := by
    ext i hi
    by_cases hk : i < k
    · simp [hk, BitVec.getLsbD_eq_getElem hi]
    · have bit := congrArg (fun a => a.getLsbD i) harg
      have clear : (cmdArg w).getLsbD i = false := by
        simpa [hk, hi, show i - k < 32 by omega, -BitVec.reduceAllOnes] using bit
      simpa [hk, BitVec.getLsbD_eq_getElem hi] using clear
  rw [low, ← hop, cmdOf_fields]

/-- A word that matches a row of the opcode map is the encoding of an instruction that the row names (R74): a row
whose mask is all ones fixes the word, the others leave an operand of 32, 8 or 6 bits free. -/
theorem encode_of_row {r : CmdRow} (hr : r ∈ cmdRows) {w : CmdWord} (h : w &&& r.mask = r.pattern) :
    ∃ i, encode i = .cmd w ∧ commandName i = some r.mnemonic := by
  have fixed : ∀ {p : CmdWord}, w &&& BitVec.allOnes 40 = p → Wire.cmd p = .cmd w := by
    rintro _ rfl
    rw [BitVec.and_allOnes]
  simp only [cmdRows, List.mem_cons, List.not_mem_nil, or_false] at hr
  rcases hr with rfl | rfl | rfl | rfl | rfl | rfl | rfl | rfl | rfl
  · exact ⟨.nop, fixed h, rfl⟩
  · exact ⟨.clr, fixed h, rfl⟩
  · exact ⟨.encb _, congrArg Wire.cmd (eq_cmdOf_of_mask 32 opEncb h).symm, rfl⟩
  · exact ⟨.encp _, congrArg Wire.cmd (eq_cmdOf_of_mask 8 opEncp h).symm, rfl⟩
  · exact ⟨.ence, fixed h, rfl⟩
  · exact ⟨.decb, fixed h, rfl⟩
  · exact ⟨.decp _, congrArg Wire.cmd (eq_cmdOf_of_mask 8 opDecp h).symm, rfl⟩
  · exact ⟨.dece, fixed h, rfl⟩
  · exact ⟨.cbrd _, congrArg Wire.cmd (eq_cmdOf_of_mask 6 opCbrd h).symm, rfl⟩

/-- The command word of an instruction matches the row that names the instruction (R74). -/
theorem row_of_encode {w : CmdWord} {i : Instr} (h : encode i = .cmd w) :
    ∃ r ∈ cmdRows, w &&& r.mask = r.pattern ∧ commandName i = some r.mnemonic := by
  have row : ∀ (r : CmdRow) (op : Byte) (arg : BitVec 32), r ∈ cmdRows → op &&& cmdOp r.mask = cmdOp r.pattern →
      arg &&& cmdArg r.mask = cmdArg r.pattern → commandName i = some r.mnemonic →
      ∃ r ∈ cmdRows, cmdOf op arg &&& r.mask = r.pattern ∧ commandName i = some r.mnemonic :=
    fun r op arg hr hop harg hname => ⟨r, hr, eq_of_beq (Laws.cmdOf_fitsWord r op arg hop harg), hname⟩
  cases i <;> cases h
  case nop => exact row ⟨"NOP", 0x0000000000#40, 0xFFFFFFFFFF#40⟩ _ _ (by decide) (by decide) (by decide) rfl
  case clr => exact row ⟨"CLR", 0x0100000000#40, 0xFFFFFFFFFF#40⟩ _ _ (by decide) (by decide) (by decide) rfl
  case encb L =>
    exact row ⟨"ENCB", 0x1000000000#40, 0xFF00000000#40⟩ _ _ (by decide) (by decide) BitVec.and_zero rfl
  case encp b =>
    exact row ⟨"ENCP", 0x1100000000#40, 0xFFFFFFFF00#40⟩ _ _ (by decide) (by decide) (Laws.byte_and_mask b) rfl
  case ence => exact row ⟨"ENCE", 0x1200000000#40, 0xFFFFFFFFFF#40⟩ _ _ (by decide) (by decide) (by decide) rfl
  case decb => exact row ⟨"DECB", 0x2000000000#40, 0xFFFFFFFFFF#40⟩ _ _ (by decide) (by decide) (by decide) rfl
  case decp b =>
    exact row ⟨"DECP", 0x2100000000#40, 0xFFFFFFFF00#40⟩ _ _ (by decide) (by decide) (Laws.byte_and_mask b) rfl
  case dece => exact row ⟨"DECE", 0x2200000000#40, 0xFFFFFFFFFF#40⟩ _ _ (by decide) (by decide) (by decide) rfl
  case cbrd v =>
    exact row ⟨"CBRD", 0x3000000000#40, 0xFFFFFFFFC0#40⟩ _ _ (by decide) (by decide) (Laws.index_and_mask v) rfl

/-- A word that matches no row of the opcode map is reserved: it decodes to no instruction (R75). -/
theorem decode_error_of_no_row {w : CmdWord} (h : ∀ r ∈ cmdRows, w &&& r.mask ≠ r.pattern) :
    ∃ e, decode (.cmd w) = .error e := by
  cases hd : decode (.cmd w) with
  | error e => exact ⟨e, rfl⟩
  | ok i =>
    obtain ⟨r, hr, hmatch, -⟩ := row_of_encode (encode_of_decode_cmd hd)
    exact absurd hmatch (h r hr)

end Sys2Proof

namespace Sys2Proof.Machine

/-- A reserved word is discarded in `ERR` and `FATAL` and raises `IllegalOp` in every other phase (R75, R130). -/
theorem reservedWord_eq (s : State) :
    reservedWord s = if s.phase = .err ∨ s.phase = .fatal then s else errorEntry .illegalOp s := by
  split_ifs with h
  · exact whenLegal_discards _ _ s h
  · obtain ⟨notErr, notFatal⟩ := not_or.mp h
    exact whenLegal_illegal _ s notErr notFatal

/-- The host issues a word that does not decode: the block takes it as a reserved word (R130). -/
theorem step_of_decode_error {s : State} {w : Wire} {rest : List HostMove} {e : DecodeError}
    (hin : s.inbox = .issue w :: rest) (hd : decode w = .error e) :
    step s = .next (reservedWord (withInbox rest s)) := by
  simp only [step, hin, hd]

end Sys2Proof.Machine
end

section
/-! PROOF. The opcode map and the words it leaves reserved (30_encoding R74, R75). -/

namespace Sys2Proof.Proofs

open Sys2Proof.Machine

/-- Settles O2: a word matches a row exactly when it is the encoding of an instruction the row names, and a word
decodes to an instruction exactly when it is its encoding. -/
theorem opcodeMapDecidesDecoding : Obligations.OpcodeMapDecidesDecoding := by
  refine fun w => ⟨fun r hr hmatch => ?_, fun i hd => ?_⟩
  · obtain ⟨i, henc, hname⟩ := encode_of_row hr hmatch
    exact ⟨i, decode_cmd_eq_ok_iff.mpr henc, hname⟩
  · have henc := encode_of_decode_cmd hd
    exact ⟨commandArg_of_encode henc, row_of_encode henc⟩

/-- Settles O3: a word without a row does not decode, so the step treats it as reserved; the all-zero word is the
encoding of `NOP`. -/
theorem reservedWordRaisesIllegalOp : Obligations.ReservedWordRaisesIllegalOp := by
  refine ⟨fun s w rest hin hno => ?_, fun w => ?_⟩
  · obtain ⟨e, hd⟩ := decode_error_of_no_row hno
    rw [step_of_decode_error hin hd, reservedWord_eq, withInbox_phase]
  · have nop_word : encode .nop = .cmd 0#40 := rfl
    rw [decode_cmd_eq_ok_iff, nop_word, Wire.cmd.injEq, eq_comm]

end Sys2Proof.Proofs
end

section
/-! SUPPORT. The groups of a frame (R64): they are what the regroup engine emits, so their bits are the frame's,
most significant first, and after them the engine's padding. -/

namespace Sys2Proof.Machine

/-! The bit string of a word built from two words, and of a word with leading zeros. -/

theorem bitsMsb_append {m n : Nat} (x : BitVec m) (y : BitVec n) :
    bitsMsb (m + n) (x ++ y) = bitsMsb m x ++ bitsMsb n y := by
  rw [bitsMsb, List.range_add, List.map_append, List.map_map]
  congr 1
  · refine List.map_congr_left fun i hi => ?_
    have hi : i < m := List.mem_range.mp hi
    simp [BitVec.getLsbD_append, show ¬ m + n - 1 - i < n by omega, show m + n - 1 - i - n = m - 1 - i by omega]
  · refine List.map_congr_left fun i hi => ?_
    have hi : i < n := List.mem_range.mp hi
    simp [BitVec.getLsbD_append, show m + n - 1 - (m + i) = n - 1 - i by omega, show n - 1 - i < n by omega]

theorem bitsMsb_zero (n : Nat) : bitsMsb n 0#n = List.replicate n false := by
  simp [bitsMsb, List.map_const']

/-- A value below `2^m` has zeros above its low `m` bits. -/
theorem bitsMsb_of_lt {k m : Nat} (v : BitVec (k + m)) (h : v.toNat < 2 ^ m) :
    bitsMsb (k + m) v = List.replicate k false ++ bitsMsb m (v.setWidth m) := by
  have split : v = 0#k ++ v.setWidth m := by
    apply BitVec.eq_of_toNat_eq
    simp [BitVec.toNat_append, Nat.mod_eq_of_lt h]
  rw [split, bitsMsb_append, bitsMsb_zero, ← split]

theorem bitsMsb_injective {n : Nat} {v w : BitVec n} (h : bitsMsb n v = bitsMsb n w) : v = w := by
  rw [← ofNat_valueMsb_bitsMsb n v, h, ofNat_valueMsb_bitsMsb]

/-- The header's bits are the declared length's, most significant first (R63). -/
theorem byteBits_be32Bytes (L : Length) : byteBits (be32Bytes L) = bitsMsb 32 L := by
  have joined : L = lenByte3 L ++ lenByte2 L ++ lenByte1 L ++ lenByte0 L :=
    (headerOf_be32Bytes L).symm.trans (be32_eq_append _ _ _ _)
  calc byteBits (be32Bytes L)
      = bitsMsb 8 (lenByte3 L) ++ bitsMsb 8 (lenByte2 L) ++ bitsMsb 8 (lenByte1 L) ++ bitsMsb 8 (lenByte0 L) := by
        simp [be32Bytes]
    _ = bitsMsb 32 (lenByte3 L ++ lenByte2 L ++ lenByte1 L ++ lenByte0 L) := by
        rw [← bitsMsb_append, ← bitsMsb_append, ← bitsMsb_append]
    _ = bitsMsb 32 L := by rw [← joined]

/-! The whole-sequence pass and the closed form. -/

/-- The number of zero bits that fill the last group of a frame of `n` bytes (R64). -/
def paddingBits (n : Nat) : Nat := if n % 3 = 0 then 0 else if n % 3 = 1 then 4 else 2

/-- The 8-to-6 pass keeps the bits in their order and pads them to whole groups with zeros (R64, R100). -/
theorem groupBits_regroupOut (xs : Bytes) :
    groupBits (regroupOut xs) = byteBits xs ++ List.replicate (paddingBits xs.length) false := by
  obtain ⟨hbits, -, hnb, hcan⟩ := pushAll_8_6 xs emptyEngine emptyEngine_canonical (by decide)
  rw [emptyEngine_nb, BitVec.toNat_zero, Nat.zero_add] at hnb
  have pad : (if 8 * xs.length % 6 = 0 then 0 else 6 - 8 * xs.length % 6) = paddingBits xs.length := by
    rw [paddingBits]; split_ifs <;> omega
  rw [regroupOut, groupBits_append, groupBits_rgFlush _ hcan (by omega), hnb, pad, ← List.append_assoc, hbits,
    bitQueue_emptyEngine, List.nil_append]

theorem regroupOut_length (xs : Bytes) : (regroupOut xs).length = (8 * xs.length + 5) / 6 := by
  have bits := congrArg List.length (groupBits_regroupOut xs)
  simp only [groupBits_length, List.length_append, byteBits_length, List.length_replicate, paddingBits] at bits
  split_ifs at bits <;> omega

theorem frameOf_length (p : Bytes) : (frameOf p).length = 4 + p.length := by
  rw [frameOf, List.length_append]
  rfl

/-- The closed form's groups are what the engine emits for the frame (R64, R100, R108). -/
theorem groupsOf_eq_regroupOut (p : Bytes) : groupsOf p = regroupOut (frameOf p) := by
  have count : (regroupOut (frameOf p)).length = tokenCount p.length := by
    rw [regroupOut_length, frameOf_length, tokenCount]
  have bits := groupBits_regroupOut (frameOf p)
  have pad : 6 * tokenCount p.length - (byteBits (frameOf p)).length = paddingBits (frameOf p).length := by
    rw [← count, ← groupBits_length, bits, List.length_append, Nat.add_sub_cancel_left, List.length_replicate]
  have cut := slices_flatMap 6 (regroupOut (frameOf p)) []
  rw [List.append_nil, count] at cut
  rw [groupsOf, pad, ← bits]
  exact cut

/-- Groups whose bits begin with zeros begin with groups of value 0. -/
theorem take_eq_of_leading_zeros {k : Nat} {gs : List Index} {rest : List Bool}
    (h : groupBits gs = List.replicate (6 * k) false ++ rest) : gs.take k = List.replicate k 0#6 := by
  induction k generalizing gs with
  | zero => rfl
  | succ k ih =>
    cases gs with
    | nil => simp [Nat.mul_succ] at h
    | cons g gs =>
      have zeros : List.replicate (6 * (k + 1)) false = bitsMsb 6 0#6 ++ List.replicate (6 * k) false := by
        rw [bitsMsb_zero, List.replicate_append_replicate, Nat.mul_succ, Nat.add_comm]
      rw [groupBits_cons, zeros, List.append_assoc] at h
      obtain ⟨hg, hgs⟩ := List.append_inj h (by simp)
      rw [List.take_succ_cons, ih hgs, bitsMsb_injective hg, List.replicate_succ]

/-- A payload so short that the header begins with `6k` zero bits has `k` leading groups of value 0 (R63, R64). -/
theorem groupsOf_take_of_short {k m : Nat} (hkm : 6 * k + m = 32) {p : Bytes} (h : p.length < 2 ^ m) :
    (groupsOf p).take k = List.replicate k 0#6 := by
  have small : (BitVec.ofNat (6 * k + m) p.length).toNat < 2 ^ m :=
    Nat.lt_of_le_of_lt (by rw [BitVec.toNat_ofNat]; exact Nat.mod_le _ _) h
  have header := bitsMsb_of_lt _ small
  have bits := groupBits_regroupOut (frameOf p)
  rw [hkm] at header
  rw [frameOf, byteBits_append, byteBits_be32Bytes, header, List.append_assoc, List.append_assoc] at bits
  rw [groupsOf_eq_regroupOut]
  exact take_eq_of_leading_zeros bits

end Sys2Proof.Machine
end

section
/-! PROOF. The groups of a frame and their padding (30_encoding R64). -/

namespace Sys2Proof.Proofs

open Sys2Proof.Machine

/-- Settles O29: the groups are the engine's output for the frame, whose pass keeps the bits and pads them; a short
payload's header begins with zero bits, so its first groups are 0. -/
theorem paddingBitsAreZero : Obligations.PaddingBitsAreZero := by
  intro p
  refine ⟨?count, ?bits, fun short g hg => ?_, fun short => ?_⟩
  case count => rw [groupsOf_eq_regroupOut, regroupOut_length, frameOf_length]
  case bits =>
    rw [groupsOf_eq_regroupOut, groupBits_regroupOut, frameOf_length, frameOf, paddingBits]
  · rw [groupsOf_take_of_short (k := 5) (m := 2) rfl short] at hg
    exact List.eq_of_mem_replicate hg
  · have first := congrArg List.head? (groupsOf_take_of_short (k := 1) (m := 26) rfl short)
    simpa [List.head?_take] using first

end Sys2Proof.Proofs
end

section
/-! SUPPORT. The regroup engine (R95 to R100): the counts of a push for every accumulator, canonical or not, and the
bit string of a whole sequence cut into the values that leave the engine. -/

namespace Sys2Proof.Machine

/-! No bit is lost or made: what leaves in values of `B` bits and what stays is what was there. -/

theorem shiftIn_nb {A : Nat} (x : BitVec A) {e : Engine} (room : e.nb.toNat + A < 16) :
    (shiftIn A x e).nb.toNat = e.nb.toNat + A := by
  simp only [shiftIn, BitVec.toNat_add, BitVec.toNat_ofNat]
  omega

/-- Each round of the loop takes `B` bits off the count for the one value it hands out (R95). -/
theorem drain_conserves_count {B : Nat} (k : Nat) (e : Engine) :
    (drain B k e).2.nb.toNat + B * (drain B k e).1.length = e.nb.toNat := by
  induction k generalizing e with
  | zero => simp [drain]
  | succ k ih =>
    by_cases full : B ≤ e.nb.toNat
    · have taken : (e.nb - BitVec.ofNat 4 B).toNat = e.nb.toNat - B := by
        simp only [BitVec.toNat_sub, BitVec.toNat_ofNat]
        omega
      have rest := ih ⟨e.acc &&& lowMask (e.nb - BitVec.ofNat 4 B), e.nb - BitVec.ofNat 4 B⟩
      simp only [taken] at rest
      simp only [drain, if_pos full, List.length_cons, Nat.mul_succ]
      omega
    · simp [drain, full]

section
variable {A B : Nat} (hB : B = 6 ∨ B = 8) (hAB : A + B ≤ 16)
include hB hAB

/-- One push, from fewer than `B` buffered bits: what leaves and what stays make up what was there and what came,
and fewer than `B` bits stay (R95, R99). -/
theorem rgPush_conserves_count (x : BitVec A) {e : Engine} (hn : e.nb.toNat < B) :
    (rgPush A B x e).2.nb.toNat + B * (rgPush A B x e).1.length = e.nb.toNat + A ∧
    (rgPush A B x e).2.nb.toNat < B := by
  refine ⟨?_, drain_exits B hB _⟩
  rw [rgPush, drain_conserves_count, shiftIn_nb x (by omega)]

/-- The same for a sequence of pushes (R99, R100). -/
theorem pushAll_conserves_count (xs : List (BitVec A)) {e : Engine} (hn : e.nb.toNat < B) :
    (pushAll A B xs e).2.nb.toNat + B * (pushAll A B xs e).1.length = e.nb.toNat + A * xs.length ∧
    (pushAll A B xs e).2.nb.toNat < B := by
  induction xs generalizing e with
  | nil => simpa [pushAll] using hn
  | cons x xs ih =>
    obtain ⟨push, stays⟩ := rgPush_conserves_count hB hAB x hn
    obtain ⟨rest, exits⟩ := ih stays
    simp only [pushAll, List.length_append, List.length_cons, Nat.mul_add, Nat.mul_one]
    omega

/-- The counts of one push, quotient and remainder by `B`, for every accumulator (R99). -/
theorem rgPush_counts (x : BitVec A) (a : BitVec 13) (nb : BitVec 4) (hn : nb.toNat < B) :
    (rgPush A B x ⟨a, nb⟩).1.length = (nb.toNat + A) / B ∧
    (rgPush A B x ⟨a, nb⟩).2.nb = BitVec.ofNat 4 ((nb.toNat + A) % B) := by
  obtain ⟨outputs, left⟩ :=
    (Nat.div_mod_unique (Nat.zero_lt_of_lt hn)).mpr (rgPush_conserves_count hB hAB x (e := ⟨a, nb⟩) hn)
  exact ⟨outputs.symm, by rw [left, BitVec.ofNat_toNat, BitVec.setWidth_eq]⟩

/-- The counts after a sequence of pushes into no buffered bit, for every accumulator (R99). -/
theorem pushAll_counts (xs : List (BitVec A)) (a : BitVec 13) :
    (pushAll A B xs ⟨a, 0#4⟩).1.length = A * xs.length / B ∧
    (pushAll A B xs ⟨a, 0#4⟩).2.nb.toNat = A * xs.length % B := by
  have hn : (Engine.mk a 0#4).nb.toNat < B := by rcases hB with rfl | rfl <;> simp
  obtain ⟨outputs, left⟩ :=
    (Nat.div_mod_unique (Nat.zero_lt_of_lt hn)).mpr (pushAll_conserves_count hB hAB xs hn)
  rw [BitVec.toNat_zero, Nat.zero_add] at outputs left
  exact ⟨outputs.symm, left.symm⟩

end

/-! The flush and the drop leave an empty engine. -/

theorem rgFlush_of_nonempty {B : Nat} {e : Engine} (h : 0 < e.nb.toNat) :
    rgFlush B e = [(e.acc <<< (B - e.nb.toNat)).setWidth B] := by
  rw [rgFlush, if_neg]
  intro empty
  simp [empty] at h

theorem rgFlush_of_empty {B : Nat} {e : Engine} (h : e.nb = 0#4) : rgFlush B e = [] := if_pos h

theorem engineOf_flushGroup (s : State) : engineOf (flushGroup s) = emptyEngine := by
  rw [flushGroup_eq]
  rfl

theorem engineOf_rgDrop (s : State) : engineOf (rgDrop s) = emptyEngine := rfl

/-! A bit string that begins with the bits of values: the values are its slices. -/

/-- The bits of values and then a rest determine the values as slices and the rest as what follows them (R100). -/
theorem eq_slices_of_bits {B : Nat} {vs : List (BitVec B)} {rest bits : List Bool}
    (h : vs.flatMap (bitsMsb B) ++ rest = bits) :
    vs = slices B vs.length bits ∧ rest = bits.drop (B * vs.length) := by
  subst h
  refine ⟨(slices_flatMap B vs rest).symm, ?_⟩
  rw [← flatMap_bitsMsb_length, List.drop_left]

theorem paddingBits_cases (n : Nat) : paddingBits n = 0 ∨ paddingBits n = 2 ∨ paddingBits n = 4 := by
  rw [paddingBits]
  split_ifs <;> simp

/-- Regrouping back: the whole bytes of the groups are the bytes, and the padding is what stays queued (R100). -/
theorem pushAll_regroupOut (xs : Bytes) :
    (pushAll 6 8 (regroupOut xs) emptyEngine).1 = xs ∧
    bitQueue (pushAll 6 8 (regroupOut xs) emptyEngine).2 = List.replicate (paddingBits xs.length) false := by
  obtain ⟨bits, count, -, -⟩ := pushAll_6_8 (regroupOut xs) emptyEngine emptyEngine_canonical (by decide)
  rw [bitQueue_emptyEngine, List.nil_append, groupBits_regroupOut] at bits
  have same : (pushAll 6 8 (regroupOut xs) emptyEngine).1.length = xs.length := by
    rw [count, regroupOut_length, emptyEngine_nb, BitVec.toNat_zero]
    omega
  obtain ⟨bytes, queued⟩ := List.append_inj bits (by rw [byteBits_length, byteBits_length, same])
  exact ⟨flatMap_bitsMsb_injective 8 _ _ same bytes, queued⟩

end Sys2Proof.Machine
end

section
/-! PROOF. The regroup engine (41_regroup R98, R99, R100). -/

namespace Sys2Proof.Proofs

open Sys2Proof.Machine

/-- Settles O23: a push queues the new bits behind the buffered ones and hands out whole values from the front; a
flush hands out the rest padded, and a flush and a drop leave the empty engine. -/
theorem engineIsABitQueue : Obligations.EngineIsABitQueue := by
  refine ⟨fun e x hc hn => ?push86, fun e v hc hn => ?push68, fun e hc pos hn => ?flush, fun _ => rgFlush_of_empty,
    fun s => ?performed, fun s => ⟨?dropped, rfl⟩⟩
  case push86 =>
    have push := rgPush_8_6 e x hc hn
    exact ⟨push.bits, drain_exits 6 (.inl rfl) _, push.canonical⟩
  case push68 =>
    have push := rgPush_6_8 e v hc hn
    exact ⟨push.bits, drain_exits 8 (.inr rfl) _, push.canonical⟩
  case flush =>
    refine ⟨_, rgFlush_of_nonempty pos, ?_⟩
    have bits := groupBits_rgFlush e hc hn
    rwa [rgFlush_of_nonempty pos, groupBits_cons, groupBits_nil, List.append_nil, if_neg pos.ne'] at bits
  case performed =>
    have empty := engineOf_flushGroup s
    exact ⟨rfl, by rw [empty, bitQueue_emptyEngine], congrArg Engine.acc empty, congrArg Engine.nb empty⟩
  case dropped => rw [engineOf_rgDrop, bitQueue_emptyEngine]

/-- Settles O24: no bit is lost or made and fewer than `B` stay, so the counts are a quotient and a remainder. -/
theorem engineCounts : Obligations.EngineCounts := by
  refine ⟨fun a x => ?rows86, fun a v => ?rows68, fun xs a => ?total86, fun vs a => ?total68⟩
  case rows86 =>
    have row := rgPush_counts (B := 6) (.inl rfl) (by decide) x a
    simpa using And.intro (row 0#4 (by decide)) (And.intro (row 2#4 (by decide)) (row 4#4 (by decide)))
  case rows68 =>
    have row := rgPush_counts (B := 8) (.inr rfl) (by decide) v a
    simpa using And.intro (row 0#4 (by decide)) (And.intro (row 6#4 (by decide))
      (And.intro (row 4#4 (by decide)) (row 2#4 (by decide))))
  case total86 =>
    obtain ⟨outputs, left⟩ := pushAll_counts (.inl rfl) (by decide) xs a
    exact ⟨outputs, left, by omega⟩
  case total68 =>
    obtain ⟨outputs, left⟩ := pushAll_counts (.inr rfl) (by decide) vs a
    exact ⟨outputs, left, by omega⟩

/-- Settles O25: the outputs and the queue are, bit for bit, what was pushed, so cutting that bit string gives the
outputs; the groups of a byte string hold its bits and a padding shorter than a byte, which the way back leaves. -/
theorem regroupingRoundTrips : Obligations.RegroupingRoundTrips := by
  refine ⟨fun xs => ?out, fun vs => ?back, fun xs => ?trip⟩
  case out =>
    obtain ⟨bits, -, -, -⟩ := pushAll_8_6 xs emptyEngine emptyEngine_canonical (by decide)
    have count := (pushAll_counts (B := 6) (.inl rfl) (by decide) xs 0#13).1
    exact count ▸ eq_slices_of_bits bits
  case back =>
    obtain ⟨bits, -, -, -⟩ := pushAll_6_8 vs emptyEngine emptyEngine_canonical (by decide)
    have count := (pushAll_counts (B := 8) (.inr rfl) (by decide) vs 0#13).1
    exact count ▸ eq_slices_of_bits bits
  case trip =>
    obtain ⟨bytes, queued⟩ := pushAll_regroupOut xs
    refine ⟨paddingBits xs.length, paddingBits_cases _, regroupOut_length xs, groupBits_regroupOut xs, bytes, ?_⟩
    rw [← bitQueue_length, queued, List.length_replicate]

end Sys2Proof.Proofs
end

section
/-! SUPPORT. The encoder's engine (R98, R104, R105): a canonical engine is its queue, what the four header bytes
leave in it, and a payload byte pushed after the others. -/

namespace Sys2Proof.Machine

/-- A canonical engine is determined by its buffered bits (R23, R24). -/
theorem Canonical.eq_of_bitQueue {e f : Engine} (he : Canonical e) (hf : Canonical f)
    (h : bitQueue e = bitQueue f) : e = f := by
  have count : e.nb.toNat = f.nb.toNat := by simpa using congrArg List.length h
  have acc : e.acc = f.acc := by
    refine BitVec.eq_of_getLsbD_eq fun i _ => ?_
    rcases Nat.lt_or_ge i e.nb.toNat with buffered | above
    · have bits := List.map_inj_left.mp (h.trans (by rw [bitQueue, ← count])) (e.nb.toNat - 1 - i)
        (List.mem_range.mpr (by omega))
      rwa [show e.nb.toNat - 1 - (e.nb.toNat - 1 - i) = i by omega] at bits
    · rw [he.getLsbD_eq_false above, hf.getLsbD_eq_false (count ▸ above)]
  exact congrArg₂ Engine.mk acc (BitVec.eq_of_toNat_eq count)

/-- The five groups of a header that are whole before the payload begins (R105). -/
def headerGroups (L : Length) : List Index :=
  [L.extractLsb' 26 6, L.extractLsb' 20 6, L.extractLsb' 14 6, L.extractLsb' 8 6, L.extractLsb' 2 6]

/-- The engine that a header leaves: its last two bits (R105). -/
def headerEngine (L : Length) : Engine := ⟨(L.extractLsb' 0 2).setWidth 13, 2#4⟩

theorem headerEngine_canonical (L : Length) : Canonical (headerEngine L) := by
  rw [Canonical, headerEngine, BitVec.toNat_setWidth]
  exact Nat.lt_of_le_of_lt (Nat.mod_le _ _) (L.extractLsb' 0 2).isLt

/-- The 32 bits of a length are those of the five groups and of the engine left. -/
theorem bitsMsb_eq_header (L : Length) : bitsMsb 32 L = groupBits (headerGroups L) ++ bitQueue (headerEngine L) := by
  simp [headerGroups, headerEngine, bitQueue, bitsMsb, List.range, List.range.loop]

/-- Packing the header from an empty engine: five groups leave it, two bits stay (R105). -/
theorem pushAll_be32Bytes (L : Length) :
    pushAll 8 6 (be32Bytes L) emptyEngine = (headerGroups L, headerEngine L) := by
  obtain ⟨bits, count, -, canonical⟩ := pushAll_8_6 (be32Bytes L) emptyEngine emptyEngine_canonical (by decide)
  have five : (pushAll 8 6 (be32Bytes L) emptyEngine).1.length = (headerGroups L).length := by
    rw [count]
    simp [be32Bytes, headerGroups]
  rw [bitQueue_emptyEngine, List.nil_append, byteBits_be32Bytes, bitsMsb_eq_header] at bits
  obtain ⟨groups, queue⟩ := List.append_inj bits (by rw [groupBits_length, groupBits_length, five])
  exact Prod.ext (flatMap_bitsMsb_injective 6 _ _ five groups)
    (canonical.eq_of_bitQueue (headerEngine_canonical L) queue)

/-- One more value pushed after the others (R100). -/
theorem pushAll_concat {A B : Nat} (xs : List (BitVec A)) (x : BitVec A) (e : Engine) :
    pushAll A B (xs ++ [x]) e =
      ((pushAll A B xs e).1 ++ (rgPush A B x (pushAll A B xs e).2).1, (rgPush A B x (pushAll A B xs e).2).2) := by
  induction xs generalizing e with
  | nil => simp [pushAll]
  | cons y ys ih => simp only [List.cons_append, pushAll, ih, List.append_assoc]

end Sys2Proof.Machine
end

section
/-! SUPPORT. The commands of an encode call, each in the cases of its rule (R105 to R107, R130, R131), and the call
step by step: from the state after the payload bytes `q` to the one after one byte more. -/

namespace Sys2Proof.Machine

theorem exec_encb (L : Length) (s : State) :
    exec (.encb L) s = .next (whenLegal (s.phase == .idle) (encbBody L) s) := rfl

theorem exec_encp (b : Byte) (s : State) :
    exec (.encp b) s = .next (whenLegal (s.phase == .enc && decide (s.cnt < s.len.toNat)) (encpBody b) s) := rfl

theorem exec_ence (s : State) :
    exec .ence s = .next (whenLegal (s.phase == .enc && decide (s.cnt = s.len.toNat)) enceBody s) := rfl

/-- `ENCB` where it is legal (R105). -/
theorem exec_encb_idle (L : Length) {s : State} (h : s.phase = .idle) :
    exec (.encb L) s = .next (settle s (encbBody L s)) := by
  rw [exec_encb, show (s.phase == .idle) = true by simp [h], whenLegal_legal _ _ (by simp [h]) (by simp [h])]

/-- Without room for the frame `ENCB` raises `CapacityExceeded` (R105). -/
theorem exec_encb_beyond {L : Length} {s : State} (h : s.phase = .idle)
    (full : fits (4 + L.toNat) s.cfg.cap = false) : exec (.encb L) s = .next (errorEntry .capacityExceeded s) := by
  rw [exec_encb_idle L h, encbBody, full]
  rfl

/-- `ENCP` where it is legal (R106). -/
theorem exec_encp_enc (b : Byte) {s : State} (h : s.phase = .enc) (more : s.cnt < s.len.toNat) :
    exec (.encp b) s = .next (encByte b { s with pay := s.pay ++ [b], cnt := s.cnt + 1 }) := by
  have legal : (s.phase == .enc && decide (s.cnt < s.len.toNat)) = true := by simp [h, more]
  rw [exec_encp, legal, whenLegal_legal _ _ (by simp [h]) (by simp [h])]
  rfl

/-- The excess byte is refused (R106, R111). -/
theorem exec_encp_excess (b : Byte) {s : State} (h : s.phase = .enc) (ended : s.len.toNat ≤ s.cnt) :
    exec (.encp b) s = .next (errorEntry .illegalOp s) := by
  have illegal : (s.phase == .enc && decide (s.cnt < s.len.toNat)) = false := by simp [ended]
  rw [exec_encp, illegal, whenLegal_illegal _ _ (by simp [h]) (by simp [h])]

/-- `ENCE` where it is legal (R107). -/
theorem exec_ence_enc {s : State} (h : s.phase = .enc) (ended : s.cnt = s.len.toNat) :
    exec .ence s = .next (settle s (enceBody s)) := by
  have legal : (s.phase == .enc && decide (s.cnt = s.len.toNat)) = true := by simp [h, ended]
  rw [exec_ence, legal, whenLegal_legal _ _ (by simp [h]) (by simp [h])]

/-- The state of the call of declared length `L`, opened from `s`, after the payload bytes `q` (R105, R106): the
engine has taken in the header and `q`, and the groups that came out of it stand in `PEND`. -/
def encodingState (L : Length) (q : Bytes) (s : State) : State :=
  { s with
    phase := .enc, dir := .encode, len := L, cnt := q.length, pay := q
    acc := (pushAll 8 6 (be32Bytes L ++ q) emptyEngine).2.acc
    nb := (pushAll 8 6 (be32Bytes L ++ q) emptyEngine).2.nb
    ntok := (pushAll 8 6 (be32Bytes L ++ q) emptyEngine).1.length
    pend := joinTokens s.cfg (pushAll 8 6 (be32Bytes L ++ q) emptyEngine).1 }

theorem engineOf_encodingState (L : Length) (q : Bytes) (s : State) :
    engineOf (encodingState L q s) = (pushAll 8 6 (be32Bytes L ++ q) emptyEngine).2 := rfl

/-- `ENCB` opens the call with no payload byte taken (R105). -/
theorem exec_encb_opens {L : Length} {s : State} (h : s.phase = .idle) (quiet : Quiet s)
    (room : fits (4 + L.toNat) s.cfg.cap = true) : exec (.encb L) s = .next (encodingState L [] s) := by
  rw [exec_encb_idle L h, encbBody_eq L s room]
  simp only [settle, encodingState, quiet.pend, quiet.pay, List.append_nil, List.nil_append, List.length_nil]

/-- `ENCP` takes one payload byte more (R106). -/
theorem exec_encp_encodingState {L : Length} {q : Bytes} (b : Byte) (s : State) (more : q.length < L.toNat) :
    exec (.encp b) (encodingState L q s) = .next (encodingState L (q ++ [b]) s) := by
  rw [exec_encp_enc b rfl more, encByte_eq]
  simp only [encodingState, engineOf, ← List.append_assoc, pushAll_concat, joinTokens_append, List.length_append,
    List.length_singleton]

/-- The run of the remaining `ENCP`s takes the remaining payload (R80, R106). -/
theorem runCommands_encps {L : Length} (p : Bytes) (is : List Instr) (s : State) {q : Bytes}
    (fitsLen : q.length + p.length ≤ L.toNat) :
    runCommands (p.map Instr.encp ++ is) (encodingState L q s) = runCommands is (encodingState L (q ++ p) s) := by
  induction p generalizing q with
  | nil => rw [List.append_nil]; rfl
  | cons b p ih =>
    rw [List.length_cons] at fitsLen
    have more : q.length < L.toNat := by omega
    have rest : (q ++ [b]).length + p.length ≤ L.toNat := by rw [List.length_append, List.length_singleton]; omega
    rw [List.map_cons, List.cons_append, runCommands_cons _ _ _ _ (decode_encode _)
      (exec_encp_encodingState b s more) rfl, ih rest, List.append_assoc, List.singleton_append]

/-- `ENCE` commits a valid payload: the groups before the flush and the flushed one are those of the frame, and
their tokens are the output (R107). -/
theorem exec_ence_encodingState {L : Length} {p : Bytes} {s : State} (ended : p.length = L.toNat)
    (valid : utf8Ok s.cfg p = true) :
    exec .ence (encodingState L p s) = .next { s with
      phase := .done, dir := .encode, len := L, cnt := p.length, acc := 0#13, nb := 0#4, pay := [], pend := []
      ntok := (regroupOut (be32Bytes L ++ p)).length
      out := joinTokens s.cfg (regroupOut (be32Bytes L ++ p)) } := by
  have body : enceBody (encodingState L p s) = .ok (commitText (flushGroup (encodingState L p s))) := if_pos valid
  rw [exec_ence_enc (s := encodingState L p s) rfl ended, body, flushGroup_eq, engineOf_encodingState]
  simp only [settle, commitText, encodingState, regroupOut, joinTokens_append, List.length_append]

/-- `ENCE` with an invalid payload raises `InvalidInput`, and nothing of the call is left (R107, R145). -/
theorem exec_ence_invalid {L : Length} {p : Bytes} {s : State} (quiet : Quiet s) (ended : p.length = L.toNat)
    (invalid : utf8Ok s.cfg p = false) :
    exec .ence (encodingState L p s) = .next (errorEntry .invalidInput s) := by
  have body : enceBody (encodingState L p s) = .error .invalidInput := if_neg (ne_true_of_eq_false invalid)
  rw [exec_ence_enc (s := encodingState L p s) rfl ended, body]
  simp only [settle, errorEntry, encodingState, quiet.dir]

/-- A payload below 2^32 bytes has a header that declares its length (R63, R111). -/
theorem toNat_declaredLength {p : Bytes} (short : p.length < 2 ^ 32) : (BitVec.ofNat 32 p.length).toNat = p.length := by
  rw [BitVec.toNat_ofNat, Nat.mod_eq_of_lt short]

/-- A payload of 2^32 bytes or more has no encode call (R111). -/
theorem encodeCall_of_long {p : Bytes} (long : 2 ^ 32 ≤ p.length) (s : State) :
    encodeCall p s = .refused .payloadOutOfContract := if_neg (Nat.not_lt.mpr long)

/-- An encode call with room for its frame comes to its `ENCE` with the whole payload taken (R80, R105, R106). -/
theorem encodeCall_of_fits {p : Bytes} {s : State} (h : s.phase = .idle) (quiet : Quiet s)
    (short : p.length < 2 ^ 32) (room : fits (4 + p.length) s.cfg.cap = true) :
    encodeCall p s = runCommands [.ence] (encodingState (BitVec.ofNat 32 p.length) p s) := by
  have declared := toNat_declaredLength short
  rw [encodeCall, if_pos short, encodeCommands, runCommands_cons _ _ _ _ (decode_encode _)
    (exec_encb_opens h quiet (declared.symm ▸ room)) rfl, runCommands_encps p _ s (by simp [declared]),
    List.nil_append]

/-- A run of commands that the state discards leaves it (R130). -/
theorem runCommands_discarded {is : List Instr} {s : State} (h : ∀ i ∈ is, exec i s = .next s) :
    runCommands is s = .next s := by
  induction is with
  | nil => rfl
  | cons i is ih =>
    rw [runCommands_cons _ _ _ _ (decode_encode i) (h i List.mem_cons_self) rfl,
      ih fun j hj => h j (List.mem_cons_of_mem _ hj)]

/-- Without room for its frame an encode call ends in `CapacityExceeded`: its `ENCB` raises it and the later
commands are discarded (R105, R131). -/
theorem encodeCall_of_not_fits {p : Bytes} {s : State} (h : s.phase = .idle) (short : p.length < 2 ^ 32)
    (full : fits (4 + p.length) s.cfg.cap = false) : encodeCall p s = .next (errorEntry .capacityExceeded s) := by
  have declared := toNat_declaredLength short
  rw [encodeCall, if_pos short, encodeCommands, runCommands_cons _ _ _ _ (decode_encode _)
    (exec_encb_beyond h (declared.symm ▸ full)) rfl]
  refine runCommands_discarded fun i hi => ?_
  rcases List.mem_append.mp hi with payload | last
  · obtain ⟨b, -, rfl⟩ := List.mem_map.mp payload
    rw [exec_encp, whenLegal_discards _ _ _ (.inl rfl)]
  · rw [List.mem_singleton.mp last, exec_ence, whenLegal_discards _ _ _ (.inl rfl)]

end Sys2Proof.Machine
end

section
/-! PROOF. The encoder's commands and the whole encode call (42_encoder R105, R108, R109, R111). -/

namespace Sys2Proof.Proofs

open Sys2Proof.Machine

/-- Settles O26: the engine's output and rest for the four header bytes are the groups and the two bits, and the
dispatch by phase gives the other cases. -/
theorem encbOpensTheCall : Obligations.EncbOpensTheCall := by
  refine ⟨fun L => decode_encode (.encb L), fun L s => ⟨fun idle room => ?opens, exec_encb_beyond,
    fun inCall => ?illegal, fun dead => ?discarded⟩⟩
  case opens =>
    rw [exec_encb_idle L idle, encbBody_eq L s room, pushAll_be32Bytes]
    rfl
  case illegal =>
    have no : (s.phase == .idle) = false := by rcases inCall with h | h | h <;> rw [h] <;> rfl
    rw [exec_encb, no, whenLegal_illegal] <;> rcases inCall with h | h | h <;> rw [h] <;> nofun
  case discarded => rw [exec_encb, whenLegal_discards _ _ _ dead]

/-- Settles O48: the call comes to its `ENCE` with the whole frame packed, and `ENCE` commits or raises. -/
theorem encodeCallIsItsClosedForm : Obligations.EncodeCallIsItsClosedForm := by
  intro p s inv idle short room
  have quiet := inv.idle idle
  have declared := (toNat_declaredLength short).symm
  rw [encodeCall_of_fits idle quiet short room]
  refine ⟨fun valid => ?done, fun invalid => ?raised⟩
  case done =>
    rw [runCommands_cons _ _ _ _ rfl (exec_ence_encodingState declared valid) rfl, runCommands_nil,
      groupsOf_eq_regroupOut, ← frameOf, regroupOut_length, frameOf_length]
    simp only [quiet.acc, quiet.nb, quiet.pay, quiet.pend]
  case raised =>
    rw [runCommands_cons _ _ _ _ rfl (exec_ence_invalid quiet declared invalid) rfl, runCommands_nil]

/-- Settles O51: the call that ends in `DONE` is the one with room for its frame and a valid payload, whose closed
form gives the count. -/
theorem tokenCountLaw : Obligations.TokenCountLaw := by
  refine ⟨fun p s t inv idle run done => ?_, rfl⟩
  have count : t.ntok = (8 * (4 + p.length) + 5) / 6 := by
    rcases Nat.lt_or_ge p.length (2 ^ 32) with short | long
    · cases room : fits (4 + p.length) s.cfg.cap with
      | false =>
        rw [encodeCall_of_not_fits idle short room] at run
        cases run
        cases done
      | true =>
        obtain ⟨ends, raises⟩ := encodeCallIsItsClosedForm p s inv idle short room
        cases valid : utf8Ok s.cfg p with
        | false =>
          rw [raises valid] at run
          cases run
          cases done
        | true =>
          rw [ends valid] at run
          cases run
          rfl
    · rw [encodeCall_of_long long] at run
      cases run
  refine ⟨by omega, ?_, by omega⟩
  split_ifs <;> omega

/-- Settles O52: a payload without an encode call is refused, and so is the byte after the last declared one. -/
theorem oversizedPayloadIsRefused : Obligations.OversizedPayloadIsRefused :=
  ⟨fun _ s long => encodeCall_of_long long s, fun b _ enc ended => exec_encp_excess b enc ended.ge⟩

end Sys2Proof.Proofs
end

section
/-! SUPPORT. The inverse lookup (R87): under distinct tokens a hit on an index is the same as being its token, and a
miss is being no token; and a sequence of lookups, cut into two. -/

namespace Sys2Proof.Machine

/-- A string that is no token misses (R87). -/
theorem cbRev_of_no_token {c : Config} {t : Bytes} (noToken : ∀ v : Index, cbFwd c v ≠ t) : cbRev c t = none := by
  rw [cbRev, List.find?_eq_none]
  intro v _
  simpa using noToken v

/-- Looking a token up gives its index back: another hit would be an equal token (R81, R87). -/
theorem cbRev_cbFwd {c : Config} (distinct : tokensDistinct c = true) (v : Index) : cbRev c (cbFwd c v) = some v := by
  cases hit : cbRev c (cbFwd c v) with
  | none =>
    have miss := List.find?_eq_none.mp hit v (mem_allIndices v)
    simp at miss
  | some w => rw [cbFwd_injective c distinct w v (cbFwd_of_cbRev c _ w hit)]

theorem lookUpAll_length {c : Config} {k : Nat} {ts : List Bytes} {vs : List Index}
    (h : lookUpAll c k ts = .ok vs) : vs.length = ts.length := by
  induction ts generalizing k vs with
  | nil =>
    cases h
    rfl
  | cons t ts ih =>
    rw [lookUpAll] at h
    split at h
    · cases h
    · split at h
      · cases h
      · next rest =>
        cases h
        rw [List.length_cons, List.length_cons, ih rest]

/-- Lookups go on at the position that the tokens before have reached (R121). -/
theorem lookUpAll_append (c : Config) (k : Nat) (as bs : List Bytes) :
    lookUpAll c k (as ++ bs) =
      (lookUpAll c k as).bind fun vs => (lookUpAll c (k + as.length) bs).map (vs ++ ·) := by
  induction as generalizing k with
  | nil =>
    rw [List.nil_append, lookUpAll, List.length_nil, Nat.add_zero]
    cases lookUpAll c k bs <;> rfl
  | cons a as ih =>
    rw [List.cons_append, lookUpAll, lookUpAll, ih, List.length_cons, Nat.add_comm as.length 1, ← Nat.add_assoc]
    cases cbRev c a with
    | none => rfl
    | some v =>
      cases lookUpAll c (k + 1) as with
      | error e => rfl
      | ok vs => cases lookUpAll c (k + 1 + as.length) bs <;> rfl

/-- The tokens of indices look up to the indices (R81, R121). -/
theorem lookUpAll_map_cbFwd {c : Config} (distinct : tokensDistinct c = true) (k : Nat) (vs : List Index) :
    lookUpAll c k (vs.map (cbFwd c)) = .ok vs := by
  induction vs generalizing k with
  | nil => rfl
  | cons v vs ih => rw [List.map_cons, lookUpAll, cbRev_cbFwd distinct, ih]

end Sys2Proof.Machine
end

section
/-! SUPPORT. The token stream (R66, R67): the runs between separators, run by run. -/

namespace Sys2Proof.Machine

/-- A text is ordinary bytes only, or a run of them, a separator and a text. -/
theorem text_induction {c : Config} {motive : Bytes → Prop}
    (last : ∀ w : Bytes, (∀ b ∈ w, c.ws8.contains b = false) → motive w)
    (run : ∀ (w : Bytes) (b : Byte) (rest : Bytes), (∀ b ∈ w, c.ws8.contains b = false) →
      c.ws8.contains b = true → motive rest → motive (w ++ b :: rest))
    (text : Bytes) : motive text := by
  suffices generalized : ∀ w : Bytes, (∀ b ∈ w, c.ws8.contains b = false) → motive (w ++ text) from
    generalized [] (List.forall_mem_nil _)
  induction text with
  | nil => simpa using last
  | cons b text ih =>
    intro w ordinary
    cases hb : c.ws8.contains b with
    | true => exact run w b text ordinary hb (ih [] (List.forall_mem_nil _))
    | false =>
      rw [List.append_cons]
      exact ih (w ++ [b]) (List.forall_mem_append.mpr ⟨ordinary, by simpa using hb⟩)

/-- A run that nothing ends is one token, or none when it is empty (R67). -/
theorem tokensOf_ordinary {c : Config} {w : Bytes} (ordinary : ∀ b ∈ w, c.ws8.contains b = false) :
    tokensOf c w = if w = [] then [] else [w] := by
  rw [tokensOf, List.splitOnP_eq_singleton ordinary]
  cases w <;> rfl

/-- A separator ends the token before it (R67). -/
theorem tokensOf_separator {c : Config} (w : Bytes) {b : Byte} (hb : c.ws8.contains b = true) (rest : Bytes) :
    tokensOf c (w ++ b :: rest) = tokensOf c w ++ tokensOf c rest := by
  rw [tokensOf, List.splitOnP_append_cons _ _ hb, List.filter_append]
  rfl

/-- The token stream of a token text is its tokens: none holds a separator, none is empty (R66, R67, R90). -/
theorem tokensOf_joinTokens {c : Config} (adm : c.Admissible) (vs : List Index) :
    tokensOf c (joinTokens c vs) = vs.map (cbFwd c) := by
  have single : ∀ v, tokensOf c (cbFwd c v) = [cbFwd c v] := fun v => by
    rw [tokensOf_ordinary (admissible_apart c adm v), if_neg (cbFwd_ne_nil c adm v)]
  induction vs with
  | nil => rfl
  | cons v vs ih =>
    cases vs with
    | nil => simpa [joinTokens] using single v
    | cons w vs =>
      have text : joinTokens c (v :: w :: vs) = cbFwd c v ++ sep :: joinTokens c (w :: vs) := by
        simp [joinTokens, List.intercalate_cons_cons]
      rw [text, tokensOf_separator _ (admissible_sep c adm), single, ih]
      rfl

end Sys2Proof.Machine
end

section
/-! SUPPORT. The closed form of a decode call (R121): the indices of its tokens, then the checks of their frame; and
what it is for the text of an encode call (R125). -/

namespace Sys2Proof.Machine

/-- The closed form after the lookups (R117 to R121): no index at all, or the checks of the frame they carry. -/
def closedOfIndices (c : Config) (vs : List Index) : Except Raise (List Index × Bytes) :=
  if vs = [] then .error .emptyInput else (frameClosed c (wholeBytes vs)).map fun P => (vs, P)

theorem decodeClosed_eq (c : Config) (text : Bytes) :
    decodeClosed c text = (lookUpAll c 0 (tokensOf c text)).bind (closedOfIndices c) := by
  by_cases empty : tokensOf c text = []
  · rw [decodeClosed, if_pos empty, empty]
    rfl
  · rw [decodeClosed, if_neg empty]
    cases found : lookUpAll c 0 (tokensOf c text) with
    | error e => rfl
    | ok vs =>
      have indices : vs ≠ [] := by
        rw [← List.length_pos_iff, lookUpAll_length found, List.length_pos_iff]
        exact empty
      simp only [Except.bind, closedOfIndices, if_neg indices]
      cases frameClosed c (wholeBytes vs) <;> rfl

theorem regroupIn_length (vs : List Index) : (regroupIn vs).length = 6 * vs.length / 8 :=
  (pushAll_counts (.inr rfl) (by decide) vs 0#13).1

/-- The whole bytes of indices are what the engine hands out for them (R51, R100). -/
theorem wholeBytes_eq_regroupIn (vs : List Index) : wholeBytes vs = regroupIn vs := by
  obtain ⟨bits, -, -, -⟩ := pushAll_6_8 vs emptyEngine emptyEngine_canonical (by decide)
  exact wholeBytes_of_trace vs _ _ (regroupIn_length vs) bits.symm

theorem wholeBytes_groupsOf (p : Bytes) : wholeBytes (groupsOf p) = frameOf p := by
  rw [wholeBytes_eq_regroupIn, groupsOf_eq_regroupOut]
  exact (pushAll_regroupOut (frameOf p)).1

/-- The frame of a valid payload passes the checks, and what follows its header is the payload (R63, R118 to R120). -/
theorem frameClosed_frameOf {c : Config} {p : Bytes} (short : p.length < 2 ^ 32) (valid : utf8Ok c p = true) :
    frameClosed c (frameOf p) = .ok p := by
  have declared : (headerOf (frameOf p)).toNat = p.length := by
    rw [show headerOf (frameOf p) = _ from headerOf_be32Bytes (BitVec.ofNat 32 p.length), toNat_declaredLength short]
  have payload : ((frameOf p).drop hdrBytes).take p.length = p := List.take_length
  have header : ¬ (frameOf p).length < hdrBytes := by rw [frameOf_length, hdrBytes]; omega
  have whole : ¬ (frameOf p).length - hdrBytes < p.length := by rw [frameOf_length, hdrBytes]; omega
  rw [frameClosed, declared, payload, if_neg header, if_neg whole, if_pos valid]

/-- The text of an encode call has a frame that decodes to the payload (R125). -/
theorem decodeClosed_joinTokens_groupsOf {c : Config} (adm : c.Admissible) (distinct : tokensDistinct c = true)
    {p : Bytes} (short : p.length < 2 ^ 32) (valid : utf8Ok c p = true) :
    decodeClosed c (joinTokens c (groupsOf p)) = .ok (groupsOf p, p) := by
  have groups : groupsOf p ≠ [] := fun empty => by
    have frame := wholeBytes_groupsOf p
    rw [empty] at frame
    cases frame
  rw [decodeClosed_eq, tokensOf_joinTokens adm, lookUpAll_map_cbFwd distinct, Except.bind, closedOfIndices,
    if_neg groups, wholeBytes_groupsOf, frameClosed_frameOf short valid]
  rfl

end Sys2Proof.Machine
end

section
/-! SUPPORT. A decode call step by step (R114 to R117, R121): from the state that has taken certain indices in, through
one run of ordinary bytes and its separator, to the one that has taken in one index more. -/

namespace Sys2Proof.Machine

theorem exec_decb (s : State) : exec .decb s = .next (whenLegal (s.phase == .idle) decbBody s) := rfl

theorem exec_decp (b : Byte) (s : State) : exec (.decp b) s = .next (putByte b s) := rfl

theorem exec_dece (s : State) : exec .dece s = .next (whenLegal (s.phase == .dec) deceBody s) := rfl

/-- `DECE` where it is legal (R117). -/
theorem exec_dece_dec {s : State} (h : s.phase = .dec) : exec .dece s = .next (settle s (deceBody s)) := by
  rw [exec_dece, show (s.phase == .dec) = true by simp [h], whenLegal_legal _ _ (by simp [h]) (by simp [h])]

/-- An instruction leaves the host's later moves (R55). -/
theorem exec_keeps_inbox {i : Instr} {s t : State} (h : exec i s = .next t) : t.inbox = s.inbox := by
  have again : exec i s = .next (withInbox s.inbox t) := exec_withInbox i s.inbox s t h
  have same : t = withInbox s.inbox t := Host.Outcome.next.inj (h.symm.trans again)
  rw [same, withInbox_inbox]

/-- The `DECP`s of a text deliver it (R80). -/
theorem runCommands_decps (text : Bytes) (is : List Instr) (s : State) :
    runCommands (text.map Instr.decp ++ is) s = runCommands is (deliver text s) := by
  induction text generalizing s with
  | nil => rfl
  | cons b text ih =>
    rw [List.map_cons, List.cons_append, runCommands_cons _ _ _ _ (decode_encode _) (exec_decp b s)
      (exec_keeps_inbox (exec_decp b s)), ih, deliver_cons]

/-- The state of the decode call, opened from `s`, that has taken the indices `vs` in and has the bytes `w` of a token
open (R113 to R116): the bytes that came out of the engine stand in `BUF`. -/
def decodingState (vs : List Index) (w : Bytes) (s : State) : State :=
  { s with
    phase := .dec, dir := .decode, ntok := vs.length, tokbuf := w
    acc := (pushAll 6 8 vs emptyEngine).2.acc
    nb := (pushAll 6 8 vs emptyEngine).2.nb
    buf := regroupIn vs, cnt := (regroupIn vs).length }

@[simp] theorem decodingState_cfg (vs : List Index) (w : Bytes) (s : State) : (decodingState vs w s).cfg = s.cfg := rfl
@[simp] theorem decodingState_phase (vs : List Index) (w : Bytes) (s : State) :
    (decodingState vs w s).phase = .dec := rfl
@[simp] theorem decodingState_ntok (vs : List Index) (w : Bytes) (s : State) :
    (decodingState vs w s).ntok = vs.length := rfl
@[simp] theorem decodingState_tokbuf (vs : List Index) (w : Bytes) (s : State) :
    (decodingState vs w s).tokbuf = w := rfl
@[simp] theorem decodingState_buf (vs : List Index) (w : Bytes) (s : State) :
    (decodingState vs w s).buf = regroupIn vs := rfl

/-- An error entry from an open decode call shows nothing of the call but its direction (R145). -/
theorem errorEntry_decodingState (e : Raise) (vs : List Index) (w : Bytes) (s : State) :
    errorEntry e (decodingState vs w s) = errorEntry e { s with dir := .decode } := rfl

/-- `DECB` opens the call with no index taken in (R115). -/
theorem exec_decb_opens {s : State} (h : s.phase = .idle) (quiet : Quiet s) :
    exec .decb s = .next (decodingState [] [] s) := by
  rw [exec_decb, show (s.phase == .idle) = true by simp [h], whenLegal_legal _ _ (by simp [h]) (by simp [h])]
  simp only [settle, decbBody, rgClr, setEngine, emptyEngine, decodingState, pushAll, regroupIn, List.length_nil,
    quiet.ntok, quiet.tokbuf, quiet.buf, quiet.cnt]

theorem fits_of_le {m n : Nat} {cap : Option Nat} (h : m ≤ n) (room : fits n cap = true) : fits m cap = true := by
  cases cap with
  | none => rfl
  | some c => exact decide_eq_true (h.trans (of_decide_eq_true room))

theorem regroupIn_concat (vs : List Index) (v : Index) :
    regroupIn (vs ++ [v]) = regroupIn vs ++ (rgPush 6 8 v (pushAll 6 8 vs emptyEngine).2).1 := by
  rw [regroupIn, pushAll_concat]
  rfl

/-- Taking one index more in, with room for the bytes (R113, R114). -/
theorem decSym_decodingState (vs : List Index) (v : Index) (s : State)
    (room : fits (6 * (vs.length + 1) / 8) s.cfg.cap = true) :
    decSym v { decodingState vs [] s with ntok := vs.length + 1 } = .ok (decodingState (vs ++ [v]) [] s) := by
  have count : (regroupIn (vs ++ [v])).length = 6 * (vs.length + 1) / 8 := by simp [regroupIn_length]
  have allowed : (rgPush 6 8 v (pushAll 6 8 vs emptyEngine).2).1 = [] ∨
      fits ((regroupIn vs).length + 1) s.cfg.cap = true := by
    refine or_iff_not_imp_left.mpr fun out => fits_of_le ?_ room
    rw [← count, regroupIn_concat, List.length_append]
    exact Nat.add_le_add_left (List.length_pos_iff.mpr out) _
  rw [decSym_eq]
  refine (if_pos allowed).trans ?_
  simp only [decodingState, engineOf, regroupIn_concat, pushAll_concat, List.length_append, List.length_singleton]

/-- Closing a run of ordinary bytes looks its token up, if it has one, and takes the index in (R114). -/
theorem tkClose_decodingState (vs : List Index) {w : Bytes} (s : State)
    (ordinary : ∀ b ∈ w, s.cfg.ws8.contains b = false)
    (room : fits (6 * (vs.length + (tokensOf s.cfg w).length) / 8) s.cfg.cap = true) :
    tkClose (decodingState vs w s) =
      (lookUpAll s.cfg vs.length (tokensOf s.cfg w)).map fun ws => decodingState (vs ++ ws) [] s := by
  rw [tokensOf_ordinary ordinary] at room ⊢
  have close := tkClose_cases (decodingState vs w s)
  simp only [decodingState_tokbuf, decodingState_cfg, decodingState_ntok] at close
  rcases close with ⟨rfl, close⟩ | ⟨opened, miss, close⟩ | ⟨v, opened, hit, close⟩
  · rw [close, if_pos rfl, lookUpAll, Except.map, List.append_nil]
  · rw [close, if_neg opened, lookUpAll, miss]
    rfl
  · rw [if_neg opened] at room
    rw [close, if_neg opened, lookUpAll, hit]
    exact decSym_decodingState vs v s room

/-- The end state of a decode call from `s` for the closed form's answer (R117, R121, R145). -/
def decodeEnd (s : State) : Except Raise (List Index × Bytes) → State
  | .error e => errorEntry e { s with dir := .decode }
  | .ok (vs, P) => { s with
      phase := .done, dir := .decode, len := headerOf (wholeBytes vs), cnt := (wholeBytes vs).length
      ntok := vs.length, out := P }

/-- Room for the text of a decode call that has taken `n` indices in: for each token, and for the bytes of the frame. -/
structure DecodeRoom (c : Config) (n : Nat) (text : Bytes) : Prop where
  tokens : ∀ t ∈ tokensOf c text, fits t.length c.tokCap = true
  frame : fits (6 * (n + (tokensOf c text).length) / 8) c.cap = true

/-- Room for a text is room for its first run. -/
theorem DecodeRoom.run {c : Config} {n : Nat} {w : Bytes} {b : Byte} {rest : Bytes} (hb : c.ws8.contains b = true)
    (room : DecodeRoom c n (w ++ b :: rest)) : DecodeRoom c n w := by
  obtain ⟨tokens, frame⟩ := room
  rw [tokensOf_separator w hb] at tokens frame
  refine ⟨fun t ht => tokens t (List.mem_append_left _ ht), fits_of_le (Nat.div_le_div_right ?_) frame⟩
  rw [List.length_append]
  omega

/-- Room for a text is room for what follows its first run. -/
theorem DecodeRoom.rest {c : Config} {n : Nat} {w : Bytes} {b : Byte} {rest : Bytes} (hb : c.ws8.contains b = true)
    (room : DecodeRoom c n (w ++ b :: rest)) : DecodeRoom c (n + (tokensOf c w).length) rest := by
  obtain ⟨tokens, frame⟩ := room
  rw [tokensOf_separator w hb] at tokens frame
  rw [List.length_append, ← Nat.add_assoc] at frame
  exact ⟨fun t ht => tokens t (List.mem_append_right _ ht), frame⟩

/-- Delivering a run of ordinary bytes opens its token (R116). -/
theorem deliver_run (vs : List Index) {w : Bytes} (s : State) (ordinary : ∀ b ∈ w, s.cfg.ws8.contains b = false)
    (room : DecodeRoom s.cfg vs.length w) : deliver w (decodingState vs [] s) = decodingState vs w s := by
  by_cases empty : w = []
  · rw [empty, deliver_nil]
  · have token : w ∈ tokensOf s.cfg w := by simp [tokensOf_ordinary ordinary, empty]
    refine deliver_ordinary w (decodingState vs [] s) rfl ordinary ?_
    rw [decodingState_tokbuf, List.length_nil, Nat.zero_add]
    exact room.tokens w token

section
variable {vs : List Index} {w : Bytes} {b : Byte} {s : State} (hb : s.cfg.ws8.contains b = true)
  (ordinary : ∀ b ∈ w, s.cfg.ws8.contains b = false) (room : DecodeRoom s.cfg vs.length w)
include hb ordinary room

/-- The separator after a run whose token is a miss raises the error (R114, R116). -/
theorem putByte_separator_misses {e : Raise} (miss : lookUpAll s.cfg vs.length (tokensOf s.cfg w) = .error e) :
    putByte b (decodingState vs w s) = errorEntry e { s with dir := .decode } := by
  rw [putByte_separator b _ (decodingState_phase vs w s) hb, tkClose_decodingState vs s ordinary room.frame, miss]
  exact errorEntry_decodingState e vs w s

/-- The separator after a run takes the index of its token in, if the run is a token's (R114, R116). -/
theorem putByte_separator_takes {ws : List Index} (hit : lookUpAll s.cfg vs.length (tokensOf s.cfg w) = .ok ws) :
    putByte b (decodingState vs w s) = decodingState (vs ++ ws) [] s := by
  rw [putByte_separator b _ (decodingState_phase vs w s) hb, tkClose_decodingState vs s ordinary room.frame, hit]
  rfl

end

/-- `DECE` after a last run of ordinary bytes: its token is closed, and the indices are checked (R117 to R121). -/
theorem exec_dece_decodingState (vs : List Index) {w : Bytes} {s : State} (quiet : Quiet s)
    (ordinary : ∀ b ∈ w, s.cfg.ws8.contains b = false) (room : DecodeRoom s.cfg vs.length w) :
    exec .dece (decodingState vs w s) = .next (decodeEnd s
      ((lookUpAll s.cfg vs.length (tokensOf s.cfg w)).bind fun ws => closedOfIndices s.cfg (vs ++ ws))) := by
  rw [exec_dece_dec (decodingState_phase vs w s), deceBody_eq, tkClose_decodingState vs s ordinary room.frame]
  cases lookUpAll s.cfg vs.length (tokensOf s.cfg w) with
  | error e => exact congrArg Host.Outcome.next (errorEntry_decodingState e vs w s)
  | ok ws =>
    simp only [Except.map, Except.bind, closedOfIndices, wholeBytes_eq_regroupIn, decodingState_ntok,
      decodingState_cfg, decodingState_buf, List.length_pos_iff, ite_not]
    by_cases empty : vs ++ ws = []
    · rw [if_pos empty, if_pos empty]
      exact congrArg Host.Outcome.next (errorEntry_decodingState .emptyInput vs w s)
    · rw [if_neg empty, if_neg empty]
      cases frameClosed s.cfg (regroupIn (vs ++ ws)) with
      | error e => exact congrArg Host.Outcome.next (errorEntry_decodingState e vs w s)
      | ok P =>
        simp only [settle, decodeEnd, decodingState, wholeBytes_eq_regroupIn, quiet.acc, quiet.nb, quiet.buf,
          quiet.tokbuf]

/-- The rest of a decode call, from the state that has taken the indices `vs` in: the tokens of the rest are looked up
in turn, and all the indices are checked at its end (R114 to R121). -/
theorem exec_dece_deliver {s : State} (quiet : Quiet s) (text : Bytes) (vs : List Index)
    (room : DecodeRoom s.cfg vs.length text) :
    exec .dece (deliver text (decodingState vs [] s)) = .next (decodeEnd s
      ((lookUpAll s.cfg vs.length (tokensOf s.cfg text)).bind fun ws => closedOfIndices s.cfg (vs ++ ws))) := by
  induction text using text_induction (c := s.cfg) generalizing vs with
  | last w ordinary =>
    rw [deliver_run vs s ordinary room]
    exact exec_dece_decodingState vs quiet ordinary room
  | run w b rest ordinary hb ih =>
    have head := room.run hb
    have tail := room.rest hb
    rw [deliver_append, deliver_run vs s ordinary head, deliver_cons, tokensOf_separator w hb, lookUpAll_append]
    cases found : lookUpAll s.cfg vs.length (tokensOf s.cfg w) with
    | error e =>
      rw [putByte_separator_misses hb ordinary head found, deliver_discards rest _ (.inl rfl), exec_dece,
        whenLegal_discards _ _ _ (.inl rfl)]
      rfl
    | ok ws =>
      rw [← lookUpAll_length found, ← List.length_append] at tail
      rw [putByte_separator_takes hb ordinary head found, ih (vs ++ ws) tail, List.length_append,
        lookUpAll_length found]
      cases lookUpAll s.cfg (vs.length + (tokensOf s.cfg w).length) (tokensOf s.cfg rest) with
      | error e => rfl
      | ok us => simp only [Except.bind, Except.map, List.append_assoc]

/-- With room for its text a decode call ends as its closed form says (R121). -/
theorem decodeCall_eq {s : State} (h : s.phase = .idle) (quiet : Quiet s) {text : Bytes}
    (room : DecodeRoom s.cfg 0 text) : decodeCall text s = .next (decodeEnd s (decodeClosed s.cfg text)) := by
  have ends := exec_dece_deliver quiet text [] room
  rw [decodeCall, decodeCommands, runCommands_cons _ _ _ _ (decode_encode _) (exec_decb_opens h quiet) rfl,
    runCommands_decps, runCommands_cons _ _ _ _ (decode_encode _) ends (exec_keeps_inbox ends), runCommands_nil,
    decodeClosed_eq]
  rfl

/-- There is room for every text under infinite capacities. -/
theorem decodeRoom_of_infinite {c : Config} (cap : c.cap = none) (tokCap : c.tokCap = none) (n : Nat) (text : Bytes) :
    DecodeRoom c n text :=
  ⟨fun _ _ => by rw [tokCap]; rfl, by rw [cap]; rfl⟩

/-- Where there was room to encode a payload there is room to decode its text: a token has at most 9 bytes, and the
whole bytes of the groups are the frame's (R8, R9, R125). -/
theorem decodeRoom_joinTokens_groupsOf {c : Config} (adm : c.Admissible) {p : Bytes}
    (room : fits (4 + p.length) c.cap = true) : DecodeRoom c 0 (joinTokens c (groupsOf p)) := by
  constructor <;> rw [tokensOf_joinTokens adm]
  · intro t ht
    obtain ⟨v, -, rfl⟩ := List.mem_map.mp ht
    exact admissible_tokCap c adm _ ((cbFwd_length c adm v).2.trans (by decide))
  · rw [List.length_map, Nat.zero_add, ← regroupIn_length, ← wholeBytes_eq_regroupIn, wholeBytes_groupsOf,
      frameOf_length]
    exact room

end Sys2Proof.Machine
end

section
/-! PROOF. Closing a token, the whole decode call and the round trip (43_decoder R114, R121, R125). -/

namespace Sys2Proof.Proofs

open Sys2Proof.Machine

/-- Settles O32: nothing is looked up when nothing is open; a string is a miss when it is no token, and a hit on
exactly the index whose token it is when the tokens are distinct. -/
theorem tkCloseLooksTheTokenUp : Obligations.TkCloseLooksTheTokenUp := by
  intro s
  refine ⟨fun nothing => ?empty, fun opened noToken => ?miss, fun v distinct opened token => ?hit⟩
  case empty => rw [tkClose, if_pos nothing]
  case miss => rw [tkClose, if_neg opened, cbRev_of_no_token noToken]
  case hit => rw [tkClose, if_neg opened, ← token, cbRev_cbFwd distinct]

/-- Settles O49: infinite capacities have room for every text. -/
theorem decodeCallIsItsClosedForm : Obligations.DecodeCallIsItsClosedForm := by
  intro text s inv idle cap tokCap
  rw [decodeCall_eq idle (inv.idle idle) (decodeRoom_of_infinite cap tokCap 0 text)]
  cases decodeClosed s.cfg text <;> rfl

/-- Settles O50: the encode call ends with the text of the frame's groups; there is room to decode it, and its closed
form is the payload. The tokens are distinct because the block is not in `FATAL`. -/
theorem encodeThenDecodeReturnsThePayload : Obligations.EncodeThenDecodeReturnsThePayload := by
  intro p s inv idle short room valid
  have distinct : tokensDistinct s.cfg = true := by
    rw [← inv.cbOk, ← Bool.not_eq_false, ← inv.fatal, idle]
    nofun
  refine ⟨_, (encodeCallIsItsClosedForm p s inv idle short room).1 valid, rfl, ?_⟩
  refine ⟨_, decodeCall_eq idle (inv.idle idle) (decodeRoom_joinTokens_groupsOf inv.cfg room), ?_⟩
  rw [decodeClosed_joinTokens_groupsOf inv.cfg distinct short valid]
  exact ⟨rfl, rfl⟩

end Sys2Proof.Proofs
end

section
/-! SUPPORT. The dispatch of a command by phase as one equation (R130), and the three commands that execute in every
phase but `FATAL`. -/

namespace Sys2Proof.Machine

theorem exec_nop (s : State) : exec .nop s = .next (inAnyPhase (fun t => t) s) := rfl

theorem exec_clr (s : State) : exec .clr s = .next (inAnyPhase clear s) := rfl

theorem exec_cbrd (v : Index) (s : State) : exec (.cbrd v) s = .next (inAnyPhase (lookUp v) s) := rfl

/-- A command of every phase is discarded in `FATAL` only (R130 test 1). -/
theorem inAnyPhase_eq (body : State → State) (s : State) :
    inAnyPhase body s = if s.phase = .fatal then s else body s := by
  split_ifs with h
  · exact inAnyPhase_fatal body s h
  · exact inAnyPhase_ok body s h

/-- The tests of R130 in order: discarded in `ERR` and `FATAL`, executed where legal, else `IllegalOp`. -/
theorem whenLegal_eq (legal : Bool) (body : State → Except Raise State) (s : State) :
    whenLegal legal body s =
      if s.phase = .err ∨ s.phase = .fatal then s
      else if legal then settle s (body s) else errorEntry .illegalOp s := by
  split_ifs with dead isLegal
  · exact whenLegal_discards legal body s dead
  · obtain ⟨notErr, notFatal⟩ := not_or.mp dead
    rw [isLegal, whenLegal_legal body s notErr notFatal]
  · obtain ⟨notErr, notFatal⟩ := not_or.mp dead
    rw [Bool.eq_false_iff.mpr isLegal, whenLegal_illegal body s notErr notFatal]

end Sys2Proof.Machine
end

section
/-! PROOF. The legality table (44_control R131). -/

namespace Sys2Proof.Proofs

open Sys2Proof.Machine

/-- Settles O11: each row is the command's dispatch read off phase by phase; in `ENC`, the rows of `ENCP` and `ENCE`
still ask how much of the payload has come. -/
theorem legalityByPhase : Obligations.LegalityByPhase := by
  refine fun s => ⟨?nop, ?clr, fun v => ?cbrd, fun L => ?encb, fun b => ?encp, ?ence, ?decb, fun b => ?decp, ?dece,
    fun w rest e hin hd => ?reserved⟩
  case nop => rw [exec_nop, inAnyPhase_eq, ite_self]
  case clr => rw [exec_clr, inAnyPhase_eq]
  case cbrd => rw [exec_cbrd, inAnyPhase_eq]
  case encb => rw [exec_encb, whenLegal_eq]; cases s.phase <;> rfl
  case encp =>
    rw [exec_encp, whenLegal_eq]
    cases s.phase with
    | enc => simp
    | _ => rfl
  case ence =>
    rw [exec_ence, whenLegal_eq]
    cases s.phase with
    | enc => simp
    | _ => rfl
  case decb => rw [exec_decb, whenLegal_eq]; cases s.phase <;> rfl
  case decp => rw [exec_decp, putByte, whenLegal_eq]; cases s.phase <;> rfl
  case dece => rw [exec_dece, whenLegal_eq]; cases s.phase <;> rfl
  case reserved => rw [step_of_decode_error hin hd, reservedWord_eq, withInbox_phase]; cases s.phase <;> rfl

end Sys2Proof.Proofs
end

section
/-! SUPPORT. The phases that discard (R130 test 1, R144, R149): in `ERR` and `FATAL` every command with a legal phase and
every token is discarded, in `FATAL` every word. Reset with two equal tokens, and `CLR` as the reset values. -/

namespace Sys2Proof.Machine

/-- The host issues a word that decodes: the block executes its instruction (R130). -/
theorem step_of_decode_ok {s : State} {w : Wire} {rest : List HostMove} {i : Instr}
    (hin : s.inbox = .issue w :: rest) (hd : decode w = .ok i) : step s = exec i (withInbox rest s) := by
  simp only [step, hin, hd]

/-- In `ERR` and `FATAL` only `CLR` and `CBRD` can change anything: a command with a legal phase is discarded, and so is
each byte of a token (R130, R149). -/
theorem exec_discards {i : Instr} {s : State} (dead : s.phase = .err ∨ s.phase = .fatal) (notClr : i ≠ .clr)
    (notCbrd : ∀ v, i ≠ .cbrd v) : exec i s = .next s := by
  rcases command_or_token i with rfl | rfl | ⟨L, rfl⟩ | ⟨b, rfl⟩ | rfl | rfl | ⟨b, rfl⟩ | rfl | ⟨v, rfl⟩ | ⟨v, rfl, -⟩
  · rw [exec_nop, inAnyPhase_eq, ite_self]
  · exact absurd rfl notClr
  · rw [exec_encb, whenLegal_discards _ _ _ dead]
  · rw [exec_encp, whenLegal_discards _ _ _ dead]
  · rw [exec_ence, whenLegal_discards _ _ _ dead]
  · rw [exec_decb, whenLegal_discards _ _ _ dead]
  · rw [exec_decp, putByte_discards _ _ dead]
  · rw [exec_dece, whenLegal_discards _ _ _ dead]
  · exact absurd rfl (notCbrd v)
  · rw [exec_tokenInstr, deliverToken, deliver_discards _ _ dead]

/-- In `FATAL` every instruction is discarded (R130 test 1, R144). -/
theorem exec_fatal (i : Instr) {s : State} (fatal : s.phase = .fatal) : exec i s = .next s := by
  by_cases clr : i = .clr
  · rw [clr, exec_clr, inAnyPhase_fatal _ _ fatal]
  by_cases cbrd : ∃ v, i = .cbrd v
  · obtain ⟨v, rfl⟩ := cbrd
    rw [exec_cbrd, inAnyPhase_fatal _ _ fatal]
  · exact exec_discards (.inr fatal) clr (not_exists.mp cbrd)

/-- In `ERR` and `FATAL` a reserved word is taken and discarded (R130 tests 1 and 2). -/
theorem step_discards_reserved {s : State} {w : Wire} {rest : List HostMove} {e : DecodeError}
    (dead : s.phase = .err ∨ s.phase = .fatal) (hin : s.inbox = .issue w :: rest) (hd : decode w = .error e) :
    step s = .next (withInbox rest s) := by
  rw [step_of_decode_error hin hd, reservedWord_eq, withInbox_phase, if_pos dead]

/-- In `FATAL` a word that the host issues is taken and changes nothing else, reserved or not (R144). -/
theorem step_fatal {s : State} {w : Wire} {rest : List HostMove} (fatal : s.phase = .fatal)
    (hin : s.inbox = .issue w :: rest) : step s = .next (withInbox rest s) := by
  cases hd : decode w with
  | ok i => rw [step_of_decode_ok hin hd, exec_fatal i ((withInbox_phase rest s).trans fatal)]
  | error e => exact step_discards_reserved (.inr fatal) hin hd

/-- `CLR` leaves the reset values with the block's own tables, moves and `CB_OK` (R129, R149). -/
theorem clear_eq_reset (s : State) :
    clear s = { State.reset with cfg := s.cfg, inbox := s.inbox, cbOk := s.cbOk } := rfl

/-- Two indices with the same token fail the check of the tables (R81). -/
theorem tokensDistinct_of_collision {c : Config} {v w : Index} (ne : v ≠ w) (same : cbFwd c v = cbFwd c w) :
    tokensDistinct c = false :=
  Bool.eq_false_iff.mpr fun distinct => ne (cbFwd_injective c distinct v w same)

/-- The spec's tables pass the check (R81, R85). -/
theorem tokensDistinct_standardConfig : tokensDistinct standardConfig = true := by decide +kernel

/-- Reset keeps the tables (R154). -/
@[simp] theorem resetBlock_cfg (s : State) : (resetBlock s).cfg = s.cfg := by
  cases h : tokensDistinct s.cfg with
  | true => rw [resetBlock_pass s h, clear_cfg]
  | false => rw [resetBlock_fail s h, clear_cfg]

/-- With tables that fail the check, reset ends in `FATAL` (R144). -/
theorem resetBlock_phase_fail {s : State} (h : tokensDistinct s.cfg = false) : (resetBlock s).phase = .fatal := by
  rw [resetBlock_fail s h]

end Sys2Proof.Machine
end

section
/-! PROOF. Error entry, the sticky first error and the codebook collision (60_exceptions R144, R145, R149). -/

namespace Sys2Proof.Proofs

open Sys2Proof.Machine

/-- Settles O14: every field but the four of the error's information is the same for all errors; those four are read off
error by error. -/
theorem errorEntryRecordsAndClears : Obligations.ErrorEntryRecordsAndClears := by
  intro e s
  cases e with
  | unknownToken etok epos => rfl
  | truncatedPayload expected present => rfl
  | _ => rfl

/-- Settles O16: `ERR` discards what it does not execute, and `CLR` executes there. -/
theorem firstErrorIsSticky : Obligations.FirstErrorIsSticky := by
  refine ⟨fun i w s _ inErr _ notClr notCbrd => ?command, fun s w rest e inErr hin hd => ?reserved,
    fun s inErr => ?clr⟩
  case command => exact exec_discards (.inl inErr) notClr notCbrd
  case reserved => exact step_discards_reserved (.inl inErr) hin hd
  case clr =>
    have notFatal : s.phase ≠ .fatal := by rw [inErr]; nofun
    rw [exec_clr, inAnyPhase_ok _ _ notFatal, clear_eq_reset]

/-- Settles O17: equal tokens fail the check at each reset, since reset keeps the tables; `FATAL` discards every
instruction and every word; the spec's tables pass the check. -/
theorem fatalDiscardsEveryWord : Obligations.FatalDiscardsEveryWord := by
  refine ⟨fun s v w ne same => ?collision, fun i _ s _ fatal => exec_fatal i fatal,
    fun s w rest fatal hin => step_fatal fatal hin,
    cbFwd_injective standardConfig tokensDistinct_standardConfig⟩
  case collision =>
    have fails : tokensDistinct s.cfg = false := tokensDistinct_of_collision ne same
    have again : tokensDistinct (resetBlock s).cfg = false := by rw [resetBlock_cfg, fails]
    refine ⟨?_, resetBlock_phase_fail fails, ?_, resetBlock_phase_fail again⟩ <;> rw [resetBlock_fail s fails]

end Sys2Proof.Proofs
end

section
/-! SUPPORT. Asserting reset as one step (R154): the check of the tables passes for different tokens, and reset then
leaves the reset state, or that state with the collision recorded. -/

namespace Sys2Proof.Machine

/-- Tables with different tokens for different indices pass the check (R81): the converse of `cbFwd_injective`. -/
theorem tokensDistinct_of_injective {c : Config} (inj : ∀ v w : Index, cbFwd c v = cbFwd c w → v = w) :
    tokensDistinct c = true := by
  simp only [tokensDistinct, List.all_eq_true]
  intro v _ w _
  by_cases same : v = w
  · simp [same]
  · have differ : cbFwd c v ≠ cbFwd c w := mt (inj v w) same
    simp [differ]

/-- Asserting reset is taken in every phase, `FATAL` included (R154). -/
theorem step_of_reset {s : State} {rest : List HostMove} (hin : s.inbox = .reset :: rest) :
    step s = .next (resetBlock (withInbox rest s)) := by
  simp only [step, hin]

/-- With tables that pass, reset leaves the reset state with the block's own tables and moves (R154, R155). -/
theorem resetBlock_eq_reset {s : State} (h : tokensDistinct s.cfg = true) :
    resetBlock s = { State.reset with cfg := s.cfg, inbox := s.inbox } := by
  rw [resetBlock_pass s h, clear_eq_reset]; rfl

/-- With tables that fail, reset leaves the reset state but for `CB_OK`, `PHASE` and `ERR` (R144, R154). -/
theorem resetBlock_eq_collision {s : State} (h : tokensDistinct s.cfg = false) :
    resetBlock s = { State.reset with
      cfg := s.cfg, inbox := s.inbox, cbOk := false, phase := .fatal, err := .codebookCollision } := by
  rw [resetBlock_fail s h, clear_eq_reset]

end Sys2Proof.Machine
end

section
/-! PROOF. Reset and the reset state (70_reset_and_hazards R154, R155). -/

namespace Sys2Proof.Proofs

open Sys2Proof.Machine

/-- Settles O7: different tokens pass the check, a pair of equal ones fails it; either way reset starts from the cleared
registers. -/
theorem resetRunsTheCodebookCheck : Obligations.ResetRunsTheCodebookCheck := by
  refine fun s rest hin => ⟨fun inj => ?pass, fun ⟨v, w, ne, same⟩ => ?fail⟩
  case pass =>
    have passes : tokensDistinct (withInbox rest s).cfg = true := tokensDistinct_of_injective inj
    rw [step_of_reset hin, resetBlock_eq_reset passes, withInbox_cfg, withInbox_inbox]
  case fail =>
    have fails : tokensDistinct (withInbox rest s).cfg = false := tokensDistinct_of_collision ne same
    rw [step_of_reset hin, resetBlock_eq_collision fails, withInbox_cfg, withInbox_inbox]

/-- Settles O8: the fields are read off the reset state; outside `FATAL` `CLR` clears to the reset values and keeps
`CB_OK`, which is 1 there by hypothesis. -/
theorem resetStateIsExactly : Obligations.ResetStateIsExactly := by
  refine ⟨?fields, rfl, rfl, tokensDistinct_standardConfig, fun s notFatal ok => ?clr⟩
  case fields => and_intros <;> rfl
  case clr => rw [exec_clr, inAnyPhase_ok _ _ notFatal, clear_eq_reset, ok]; rfl

end Sys2Proof.Proofs
end

section
/-! PROOF. Decoding and encoding undo each other (30_encoding R62, R71 to R75). -/

namespace Sys2Proof.Proofs

open Sys2Proof.Machine

/-- Settles O1: a command word decodes to an instruction exactly when it is its encoding, and so does a token index,
each of which has one token instruction. -/
theorem decodeEncodeAgree : Obligations.DecodeEncodeAgree := by
  intro m i
  cases m with
  | cmd w => exact decode_cmd_eq_ok_iff
  | tok v =>
    constructor
    · intro h
      rw [← Except.ok.inj h]
      exact encode_tokenInstr v
    · intro h
      rw [eq_tokenInstr_of_encode i v h]
      rfl

/-- Settles O4: each word is the encoding of its instruction but the last two, which are reserved. -/
theorem sampleWordsDecode : Obligations.SampleWordsDecode := by
  unfold Obligations.SampleWordsDecode
  and_intros <;> rfl

end Sys2Proof.Proofs
end

section
/-! SUPPORT. What an instruction can do, said once for all of them (R128 to R132, R145): be discarded, raise an error,
or have its effect. Frames, phase changes and the invariants are read off the cases. -/

namespace Sys2Proof.Machine

/-- An open decode call goes on: only the engine, the counts, `BUF` and `TOKBUF` are written (R113, R114, R116). -/
def DecoderWrites (s t : State) : Prop :=
  s.phase = .dec ∧ ∃ acc nb cnt ntok buf tokbuf,
    t = { s with acc := acc, nb := nb, cnt := cnt, ntok := ntok, buf := buf, tokbuf := tokbuf }

theorem DecoderWrites.refl {s : State} (dec : s.phase = .dec) : DecoderWrites s s :=
  ⟨dec, s.acc, s.nb, s.cnt, s.ntok, s.buf, s.tokbuf, rfl⟩

theorem DecoderWrites.phase {s t : State} (h : DecoderWrites s t) : t.phase = .dec := by
  obtain ⟨dec, _, _, _, _, _, _, rfl⟩ := h
  exact dec

theorem DecoderWrites.trans {s t u : State} (h : DecoderWrites s t) (h' : DecoderWrites t u) : DecoderWrites s u := by
  obtain ⟨dec, _, _, _, _, _, _, rfl⟩ := h
  obtain ⟨-, acc, nb, cnt, ntok, buf, tokbuf, rfl⟩ := h'
  exact ⟨dec, acc, nb, cnt, ntok, buf, tokbuf, rfl⟩

/-- An error entry leaves nothing of what the decoder wrote (R145). -/
theorem DecoderWrites.errorEntry_eq {s t : State} (h : DecoderWrites s t) (e : Raise) :
    errorEntry e t = errorEntry e s := by
  obtain ⟨-, _, _, _, _, _, _, rfl⟩ := h
  rfl

/-- Closing the open token writes the decoder's registers only (R113, R114). -/
theorem decoderWrites_of_tkClose {s t : State} (dec : s.phase = .dec) (h : tkClose s = .ok t) : DecoderWrites s t := by
  rcases tkClose_ok s t h with ⟨-, rfl⟩ | ⟨v, -, -, -, rfl⟩
  · exact .refl dec
  · exact ⟨dec, _, _, _, _, _, _, rfl⟩

/-- `DECP` is rejected, or the call goes on (R116). -/
theorem putByte_outcome (b : Byte) (s : State) : Rejected s (putByte b s) ∨ DecoderWrites s (putByte b s) := by
  rcases putByte_cases b s with rejected | ⟨dec, -, -, put⟩ | ⟨dec, -, close⟩
  · exact .inl rejected
  · exact .inr (put ▸ ⟨dec, s.acc, s.nb, s.cnt, s.ntok, s.buf, _, rfl⟩)
  · exact .inr (decoderWrites_of_tkClose dec close)

/-- A rejected command leaves a phase that discards `DECP` (R130, R145). -/
theorem Rejected.dead {s t : State} (h : Rejected s t) : t.phase = .err ∨ t.phase = .fatal := by
  rcases h with ⟨rfl, dead⟩ | ⟨e, rfl, -⟩
  · exact dead
  · exact .inl rfl

/-- A rejected command leads into no other phase. -/
theorem Rejected.phase_ne {s t : State} {p : Phase} (h : Rejected s t) (notErr : p ≠ .err) (notFatal : p ≠ .fatal) :
    t.phase ≠ p := by
  rcases h.dead with dead | dead <;> rw [dead]
  · exact notErr.symm
  · exact notFatal.symm

/-- What a rejection does after the decoder has written, it does from the state before (R145). -/
theorem DecoderWrites.rejected {s t u : State} (h : DecoderWrites s t) (h' : Rejected t u) : Rejected s u := by
  rcases h' with ⟨-, dead⟩ | ⟨e, rfl, -⟩
  · rcases dead with dead | dead <;> cases h.phase.symm.trans dead
  · exact .inr ⟨e, h.errorEntry_eq e, by rw [h.1]; nofun, by rw [h.1]; nofun⟩

/-- Bytes put to an open decode call: the call goes on, or the first error ends it and the rest are discarded. -/
theorem deliver_dec_outcome (bs : Bytes) {s : State} (dec : s.phase = .dec) :
    Rejected s (deliver bs s) ∨ DecoderWrites s (deliver bs s) := by
  induction bs generalizing s with
  | nil => exact .inr (.refl dec)
  | cons b bs ih =>
    rw [deliver_cons]
    rcases putByte_outcome b s with rejected | writes
    · rw [deliver_discards bs _ rejected.dead]
      exact .inl rejected
    · rcases ih writes.phase with rejected | more
      · exact .inl (writes.rejected rejected)
      · exact .inr (writes.trans more)

/-- Bytes put to the decoder in any phase. -/
theorem deliver_outcome {bs : Bytes} (nonempty : bs ≠ []) (s : State) :
    Rejected s (deliver bs s) ∨ DecoderWrites s (deliver bs s) := by
  cases bs with
  | nil => exact absurd rfl nonempty
  | cons b bs =>
    rcases putByte_outcome b s with rejected | writes
    · rw [deliver_cons, deliver_discards bs _ rejected.dead]
      exact .inl rejected
    · exact deliver_dec_outcome (b :: bs) writes.1

/-- The instructions that put bytes to the decoder: `DECP` and the tokens, each with its bytes (R116; log entry 5). -/
inductive Delivers (c : Config) : Instr → Bytes → Prop where
  | byte (b : Byte) : Delivers c (.decp b) [b]
  | token (i : Instr) (v : Index) : encode i = .tok v → Delivers c i (tokenBytes c v)

/-- Everything an instruction can leave. The guards say in which phase it has its effect (R131). -/
inductive Effect (s : State) : Instr → State → Prop where
  | discarded (i : Instr) : s.phase = .err ∨ s.phase = .fatal → Effect s i s
  | raised (i : Instr) (e : Raise) : i ≠ .nop → i ≠ .clr → s.phase ≠ .err → s.phase ≠ .fatal →
      Effect s i (errorEntry e s)
  | nop : Effect s .nop s
  | clr : s.phase ≠ .fatal → Effect s .clr (clear s)
  | cbrd (v : Index) : s.phase ≠ .fatal → Effect s (.cbrd v) { s with lkp := cbFwd s.cfg v }
  | encb (L : Length) : s.phase = .idle → fits (4 + L.toNat) s.cfg.cap = true → Effect s (.encb L) { s with
      dir := .encode, phase := .enc, len := L, cnt := 0
      acc := (headerEngine L).acc, nb := (headerEngine L).nb
      pend := s.pend ++ joinTokens s.cfg (headerGroups L), ntok := 5 }
  | encp (b : Byte) : s.phase = .enc → s.cnt < s.len.toNat → Effect s (.encp b) { s with
      pay := s.pay ++ [b], cnt := s.cnt + 1
      acc := (rgPush 8 6 b ⟨s.acc, s.nb⟩).2.acc, nb := (rgPush 8 6 b ⟨s.acc, s.nb⟩).2.nb
      ntok := s.ntok + (rgPush 8 6 b ⟨s.acc, s.nb⟩).1.length
      pend := s.pend ++ textAfter s.cfg s.ntok (rgPush 8 6 b ⟨s.acc, s.nb⟩).1 }
  | ence : s.phase = .enc → s.cnt = s.len.toNat → utf8Ok s.cfg s.pay = true → Effect s .ence { s with
      out := s.pend ++ textAfter s.cfg s.ntok (rgFlush 6 ⟨s.acc, s.nb⟩)
      ntok := s.ntok + (rgFlush 6 ⟨s.acc, s.nb⟩).length
      acc := 0#13, nb := 0#4, pend := [], pay := [], phase := .done }
  | decb : s.phase = .idle → Effect s .decb { s with dir := .decode, phase := .dec, acc := 0#13, nb := 0#4 }
  | delivered (i : Instr) (bs : Bytes) : Delivers s.cfg i bs → DecoderWrites s (deliver bs s) →
      Effect s i (deliver bs s)
  | dece (u : State) (P : Bytes) : s.phase = .dec → tkClose s = .ok u → 0 < u.ntok →
      frameClosed u.cfg u.buf = .ok P → Effect s .dece { u with
        acc := 0#13, nb := 0#4, len := headerOf u.buf, out := P, buf := [], phase := .done }

/-- A rejected command is discarded or raises an error. -/
theorem Rejected.effect {s t : State} (h : Rejected s t) {i : Instr} (notNop : i ≠ .nop) (notClr : i ≠ .clr) :
    Effect s i t := by
  rcases h with ⟨rfl, dead⟩ | ⟨e, rfl, notErr, notFatal⟩
  · exact .discarded i dead
  · exact .raised i e notNop notClr notErr notFatal

/-- Bytes put to the decoder by an instruction that has no other effect. -/
theorem effect_of_delivers {s : State} {i : Instr} {bs : Bytes} (h : Delivers s.cfg i bs) :
    Effect s i (deliver bs s) := by
  have shape : bs ≠ [] ∧ i ≠ .nop ∧ i ≠ .clr := by
    cases h with
    | byte b => exact ⟨nofun, nofun, nofun⟩
    | token _ v token =>
      refine ⟨by simp [tokenBytes], ?_, ?_⟩ <;> rintro rfl <;> cases token
  obtain ⟨nonempty, notNop, notClr⟩ := shape
  rcases deliver_outcome nonempty s with rejected | writes
  · exact rejected.effect notNop notClr
  · exact .delivered i bs h writes

/-- Everything `exec` can answer. -/
theorem effect_of_exec {i : Instr} {s t : State} (h : exec i s = .next t) : Effect s i t := by
  rcases command_or_token i with rfl | rfl | ⟨L, rfl⟩ | ⟨b, rfl⟩ | rfl | rfl | ⟨b, rfl⟩ | rfl | ⟨v, rfl⟩ |
    ⟨v, rfl, token⟩
  · rw [nop_cases s t h]
    exact .nop
  · rcases clr_cases s t h with ⟨fatal, rfl⟩ | ⟨notFatal, rfl⟩
    · exact .discarded _ (.inr fatal)
    · exact .clr notFatal
  · rcases encb_cases L s t h with rejected | ⟨idle, room, rfl⟩
    · exact rejected.effect nofun nofun
    · rw [pushAll_be32Bytes]
      exact .encb L idle room
  · rcases encp_cases b s t h with rejected | ⟨enc, more, rfl⟩
    · exact rejected.effect nofun nofun
    · exact .encp b enc more
  · rcases ence_cases s t h with rejected | ⟨enc, ended, valid, rfl⟩
    · exact rejected.effect nofun nofun
    · exact .ence enc ended valid
  · rcases decb_cases s t h with rejected | ⟨idle, rfl⟩
    · exact rejected.effect nofun nofun
    · exact .decb idle
  · rw [exec_decp, Host.Outcome.next.injEq] at h
    exact h ▸ effect_of_delivers (.byte b)
  · rcases dece_cases s t h with rejected | ⟨dec, u, P, close, counted, checks, rfl⟩
    · exact rejected.effect nofun nofun
    · exact .dece u P dec close counted checks
  · rcases cbrd_cases v s t h with ⟨fatal, rfl⟩ | ⟨notFatal, rfl⟩
    · exact .discarded _ (.inr fatal)
    · exact .cbrd v notFatal
  · rw [exec_tokenInstr, Host.Outcome.next.injEq] at h
    exact h ▸ effect_of_delivers (.token _ v token)

end Sys2Proof.Machine
end

section
/-! SUPPORT. The registers' invariant, phase by phase (10_state R20 to R35): what makes it hold in each phase, and that
resetting, error entry and closing a token keep it. -/

namespace Sys2Proof.Machine

/-- The registers that no open call writes, as the invariant has them outside `ERR` and `FATAL` (R17, R22, R33 to
R35). -/
def Healthy (s : State) : Prop :=
  s.cfg.Admissible ∧ tokensDistinct s.cfg = true ∧ s.cbOk = true ∧ s.err = .none ∧
    (s.etok = [] ∧ s.epos = 0) ∧ (s.eexp = 0#32 ∧ s.ehave = 0#32) ∧ s.lkp.length ≤ 9

theorem RegInv.healthy {s : State} {p : Phase} (inv : RegInv s) (phase : s.phase = p) (notErr : p ≠ .err)
    (notFatal : p ≠ .fatal) : Healthy s := by
  subst phase
  have ok : s.cbOk = true := by rwa [← Bool.not_eq_false, ← inv.fatal]
  have noError : s.err = .none := by
    by_contra err
    exact (inv.errPhase.mp err).elim notErr notFatal
  exact ⟨inv.cfg, inv.cbOk ▸ ok, ok, noError, inv.etok (by rw [noError]; nofun), inv.ehave (by rw [noError]; nofun),
    inv.lkp⟩

theorem RegInv.distinct {s : State} (inv : RegInv s) (notFatal : s.phase ≠ .fatal) : tokensDistinct s.cfg = true := by
  rwa [← inv.cbOk, ← Bool.not_eq_false, ← inv.fatal]

/-- In an open encode call (R24, R26 to R29). -/
theorem regInv_of_enc {s : State} (healthy : Healthy s) (enc : s.phase = .enc) (canonical : Canonical (engineOf s))
    (opened : EncOpen s) (out : s.out = []) : RegInv s := by
  obtain ⟨cfg, distinct, ok, noError, etok, ehave, lkp⟩ := healthy
  constructor <;> simp_all [Canonical]

/-- In an open decode call (R24, R26, R27, R30, R31). -/
theorem regInv_of_dec {s : State} (healthy : Healthy s) (dec : s.phase = .dec) (canonical : Canonical (engineOf s))
    (opened : DecOpen s) (out : s.out = []) : RegInv s := by
  obtain ⟨cfg, distinct, ok, noError, etok, ehave, lkp⟩ := healthy
  constructor <;> simp_all [Canonical]

/-- After a finished call (R26, R27, R32). -/
theorem regInv_of_done {s : State} (healthy : Healthy s) (done : s.phase = .done) (closed : Closed s)
    (report : DoneReport s) : RegInv s := by
  obtain ⟨cfg, distinct, ok, noError, etok, ehave, lkp⟩ := healthy
  have acc := closed.acc
  have nb := closed.nb
  constructor <;> simp_all

/-- At the reset values, whatever tables pass the check (R40, R155). -/
theorem regInv_reset {c : Config} (cfg : c.Admissible) (distinct : tokensDistinct c = true) (moves : List HostMove) :
    RegInv { State.reset with cfg := c, inbox := moves } where
  cfg := cfg
  cbOk := distinct.symm
  fatal := ⟨nofun, nofun⟩
  errPhase := ⟨fun err => absurd rfl err, by rintro (p | p) <;> cases p⟩
  collision := ⟨nofun, nofun⟩
  accLt := emptyEngine_canonical
  idle := fun _ => ⟨rfl, rfl, rfl, rfl, rfl, rfl, rfl, rfl, rfl, rfl, rfl, rfl, rfl, rfl, rfl, rfl⟩
  enc := nofun
  dec := nofun
  closed := fun _ _ => ⟨rfl, rfl, rfl, rfl, rfl, rfl⟩
  done := nofun
  out := fun _ => rfl
  etok := fun _ => ⟨rfl, rfl⟩
  ehave := fun _ => ⟨rfl, rfl⟩
  lkp := Nat.zero_le 9

/-- With the collision recorded, where two tokens are equal (R144). -/
theorem regInv_collision {c : Config} (cfg : c.Admissible) (collision : tokensDistinct c = false)
    (moves : List HostMove) :
    RegInv { State.reset with
      cfg := c, inbox := moves, cbOk := false, phase := .fatal, err := .codebookCollision } where
  cfg := cfg
  cbOk := collision.symm
  fatal := ⟨fun _ => rfl, fun _ => rfl⟩
  errPhase := ⟨fun _ => .inr rfl, fun _ => nofun⟩
  collision := ⟨fun _ => rfl, fun _ => rfl⟩
  accLt := emptyEngine_canonical
  idle := nofun
  enc := nofun
  dec := nofun
  closed := fun _ _ => ⟨rfl, rfl, rfl, rfl, rfl, rfl⟩
  done := nofun
  out := fun _ => rfl
  etok := fun _ => ⟨rfl, rfl⟩
  ehave := fun _ => ⟨rfl, rfl⟩
  lkp := Nat.zero_le 9

/-- Reset leads into the invariant from every state with an admissible configuration (R154). -/
theorem regInv_resetBlock {s : State} (cfg : s.cfg.Admissible) : RegInv (resetBlock s) := by
  cases check : tokensDistinct s.cfg with
  | true =>
    rw [resetBlock_eq_reset check]
    exact regInv_reset cfg check s.inbox
  | false =>
    rw [resetBlock_eq_collision check]
    exact regInv_collision cfg check s.inbox

/-- `CLR` leads back to the reset values (R129). -/
theorem RegInv.after_clear {s : State} (inv : RegInv s) (notFatal : s.phase ≠ .fatal) : RegInv (clear s) := by
  have distinct := inv.distinct notFatal
  rw [clear_eq_reset, inv.cbOk, distinct]
  exact regInv_reset inv.cfg distinct s.inbox

/-- Error entry keeps the invariant: the error's information stands only with its error (R22, R33, R34, R145). -/
theorem RegInv.after_errorEntry {s : State} (inv : RegInv s) (e : Raise) (notFatal : s.phase ≠ .fatal) :
    RegInv (errorEntry e s) where
  cfg := inv.cfg
  cbOk := inv.cbOk
  fatal := ⟨nofun, fun collided => absurd (inv.fatal.mpr collided) notFatal⟩
  errPhase := ⟨fun _ => .inl rfl, fun _ => (raiseCode_ne e).1⟩
  collision := ⟨fun code => absurd code (raiseCode_ne e).2, nofun⟩
  accLt := emptyEngine_canonical
  idle := nofun
  enc := nofun
  dec := nofun
  closed := fun _ _ => ⟨rfl, rfl, rfl, rfl, rfl, rfl⟩
  done := nofun
  out := fun _ => rfl
  etok := by cases e <;> simp [raiseCode, raiseEtok, raiseEpos]
  ehave := by cases e <;> simp [raiseCode, raiseEexp, raiseEhave]
  lkp := inv.lkp

theorem RegInv.after_rejected {s t : State} (inv : RegInv s) (h : Rejected s t) : RegInv t := by
  rcases h with ⟨rfl, -⟩ | ⟨e, rfl, -, notFatal⟩
  · exact inv
  · exact inv.after_errorEntry e notFatal

/-- The engine holds no bit above its count (R24). -/
theorem RegInv.canonical {s : State} (inv : RegInv s) : Canonical ⟨s.acc, s.nb⟩ := inv.accLt

/-- Closing the open token keeps the invariant: one index more, and the bytes it completes (R24, R30, R99, R114). -/
theorem RegInv.after_tkClose {s t : State} (inv : RegInv s) (dec : s.phase = .dec) (h : tkClose s = .ok t) :
    RegInv t ∧ t.phase = .dec ∧ t.tokbuf = [] := by
  rcases tkClose_ok s t h with ⟨nothing, rfl⟩ | ⟨v, -, -, room, rfl⟩
  · exact ⟨inv, dec, nothing⟩
  · have healthy := inv.healthy dec nofun nofun
    have opened := inv.dec dec
    have nb := opened.nb
    have push := rgPush_6_8 ⟨s.acc, s.nb⟩ v inv.canonical (by simp only [nb]; omega)
    have count := push.count
    have left := push.nb
    have bufLen := opened.bufLen
    simp only [nb] at count left
    refine ⟨regInv_of_dec healthy dec push.canonical ?_ (inv.out (by rw [dec]; nofun)), dec, rfl⟩
    exact {
      dir := opened.dir
      len := opened.len
      cnt := by simp [opened.cnt]
      bufLen := by simp only [List.length_append, count, bufLen]; omega
      nb := by simp only [left]; omega
      fitsCap := by
        rcases room with nothing | room
        · simpa [nothing] using opened.fitsCap
        · refine fits_of_le ?_ room
          simp only [List.length_append, count]
          omega
      tokFits := fits_of_le (Nat.zero_le _) opened.tokFits
      tokApart := nofun
      pay := opened.pay
      pend := opened.pend }

/-- `DECP` keeps the invariant (R116). -/
theorem RegInv.after_putByte {s : State} (inv : RegInv s) (b : Byte) : RegInv (putByte b s) := by
  rcases putByte_cases b s with rejected | ⟨dec, ordinary, room, put⟩ | ⟨dec, -, close⟩
  · exact inv.after_rejected rejected
  · have opened := inv.dec dec
    rw [put]
    refine regInv_of_dec (inv.healthy dec nofun nofun) dec inv.canonical ?_
      (inv.out (by rw [dec]; nofun))
    have apart : ∀ x ∈ s.tokbuf ++ [b], s.cfg.ws8.contains x = false :=
      List.forall_mem_append.mpr ⟨opened.tokApart, by simpa using ordinary⟩
    exact ⟨opened.dir, opened.len, opened.cnt, opened.bufLen, opened.nb, opened.fitsCap, by simpa using room, apart,
      opened.pay, opened.pend⟩
  · exact (inv.after_tkClose dec close).1

end Sys2Proof.Machine
end

section
/-! SUPPORT. What one step can be (R3, R130), and the effects of the encoder's commands on an invariant state. -/

namespace Sys2Proof.Machine

/-- Everything a step can be: waiting, a reset, an instruction's effect, or a reserved word. -/
theorem step_cases {s t : State} (h : step s = .next t) :
    (s.inbox = [] ∧ t = s) ∨
    (∃ rest, s.inbox = .reset :: rest ∧ t = resetBlock (withInbox rest s)) ∨
    (∃ w rest i, s.inbox = .issue w :: rest ∧ decode w = .ok i ∧ exec i (withInbox rest s) = .next t) ∨
    (∃ w rest e, s.inbox = .issue w :: rest ∧ decode w = .error e ∧ t = reservedWord (withInbox rest s)) := by
  rw [step] at h
  split at h
  · next hin => exact .inl ⟨hin, (Host.Outcome.next.inj h).symm⟩
  · next rest hin => exact .inr (.inl ⟨rest, hin, (Host.Outcome.next.inj h).symm⟩)
  · next w rest hin =>
    split at h
    · next i hd => exact .inr (.inr (.inl ⟨w, rest, i, hin, hd, h⟩))
    · next e hd => exact .inr (.inr (.inr ⟨w, rest, e, hin, hd, (Host.Outcome.next.inj h).symm⟩))

/-- A reserved word is rejected in every phase (R75). -/
theorem reservedWord_rejected (s : State) : Rejected s (reservedWord s) := by
  rw [reservedWord_eq]
  split_ifs with dead
  · exact .inl ⟨rfl, dead⟩
  · obtain ⟨notErr, notFatal⟩ := not_or.mp dead
    exact .inr ⟨_, rfl, notErr, notFatal⟩

theorem fits_zero (cap : Option Nat) : fits 0 cap = true := by
  cases cap with
  | none => rfl
  | some c => exact decide_eq_true (Nat.zero_le c)

/-- One payload byte pushed in an open encode call (R98, R99, R106). -/
theorem RegInv.push {s : State} (inv : RegInv s) (enc : s.phase = .enc) (b : Byte) :
    PushSpec86 ⟨s.acc, s.nb⟩ b (rgPush 8 6 b ⟨s.acc, s.nb⟩) := by
  refine rgPush_8_6 _ b inv.canonical ?_
  have nb := (inv.enc enc).nb
  simp only [nb]
  omega

/-- The flush of an open encode call brings the count to that of the whole frame (R99, R107, R109). -/
theorem RegInv.flush_count {s : State} (inv : RegInv s) (enc : s.phase = .enc) (ended : s.cnt = s.len.toNat) :
    s.ntok + (rgFlush 6 ⟨s.acc, s.nb⟩).length = tokenCount s.len.toNat := by
  have opened := inv.enc enc
  have nb := opened.nb
  have empty : s.nb = 0#4 ↔ s.nb.toNat = 0 := by rw [← BitVec.toNat_inj, BitVec.toNat_zero]
  rw [rgFlush_length, opened.ntok, tokenCount, ← ended]
  simp only [empty, nb]
  split_ifs <;> omega

/-- A frame that passes the checks has a header and the bytes that it declares, and the payload is those bytes (R118 to
R120). -/
theorem frameClosed_ok {c : Config} {buf P : Bytes} (h : frameClosed c buf = .ok P) :
    4 + (headerOf buf).toNat ≤ buf.length ∧ P = (buf.drop hdrBytes).take (headerOf buf).toNat := by
  simp only [frameClosed, hdrBytes] at h
  split_ifs at h with header whole
  exact ⟨by omega, (Except.ok.inj h).symm⟩

/-- Every effect keeps the registers' invariant. -/
theorem RegInv.after_effect {s t : State} {i : Instr} (inv : RegInv s) (h : Effect s i t) : RegInv t := by
  cases h with
  | discarded => exact inv
  | raised _ e _ _ _ notFatal => exact inv.after_errorEntry e notFatal
  | nop => exact inv
  | clr notFatal => exact inv.after_clear notFatal
  | cbrd v notFatal =>
    exact { inv with
      idle := fun p => { inv.idle p with }, enc := fun p => { inv.enc p with }, dec := fun p => { inv.dec p with }
      closed := fun p q => { inv.closed p q with }, done := fun p => { inv.done p with }
      lkp := (cbFwd_length s.cfg inv.cfg v).2 }
  | encb L idle room =>
    have quiet := inv.idle idle
    refine regInv_of_enc (inv.healthy idle nofun nofun) rfl (headerEngine_canonical L) ?_ quiet.out
    exact ⟨rfl, room, Nat.zero_le _, by rw [quiet.pay]; rfl, by simp [headerEngine], by simp, quiet.buf, quiet.tokbuf⟩
  | encp b enc more =>
    have opened := inv.enc enc
    have push := inv.push enc b
    have count := push.count
    have left := push.nb
    have ntok := opened.ntok
    simp only [opened.nb] at count left
    refine regInv_of_enc (inv.healthy enc nofun nofun) enc push.canonical ?_
      (inv.out (by rw [enc]; nofun))
    exact ⟨opened.dir, opened.fitsCap, more, by simp [opened.payLen], by simp only [left]; omega,
      by simp only [count]; omega, opened.buf, opened.tokbuf⟩
  | ence enc ended =>
    have opened := inv.enc enc
    refine regInv_of_done (inv.healthy enc nofun nofun) rfl
      ⟨rfl, rfl, rfl, rfl, opened.buf, opened.tokbuf⟩ ⟨fun _ => ⟨ended, inv.flush_count enc ended⟩, ?_⟩
    exact fun decode => nomatch opened.dir.symm.trans decode
  | decb idle =>
    have quiet := inv.idle idle
    refine regInv_of_dec (inv.healthy idle nofun nofun) rfl emptyEngine_canonical ?_ quiet.out
    have empty : s.buf.length = 0 := by rw [quiet.buf]; rfl
    exact ⟨rfl, quiet.len, quiet.cnt.trans empty.symm, by simp [empty, quiet.ntok], by simp [quiet.ntok],
      by simpa [empty] using fits_zero s.cfg.cap, by simpa [quiet.tokbuf] using fits_zero s.cfg.tokCap,
      by simp [quiet.tokbuf], quiet.pay, quiet.pend⟩
  | delivered _ bs => exact deliver_keeps RegInv (fun b u inv => inv.after_putByte b) bs s inv
  | dece u P dec close _ checks =>
    obtain ⟨inv, dec, tokbuf⟩ := inv.after_tkClose dec close
    have opened := inv.dec dec
    obtain ⟨whole, rfl⟩ := frameClosed_ok checks
    refine regInv_of_done (inv.healthy dec nofun nofun) rfl
      ⟨rfl, rfl, opened.pay, opened.pend, rfl, tokbuf⟩ ⟨?_, fun _ => ⟨?_, ?_, opened.cnt.trans opened.bufLen⟩⟩
    · exact fun encode => nomatch opened.dir.symm.trans encode
    · simp only [List.length_take, List.length_drop, hdrBytes]
      omega
    · exact opened.cnt.symm ▸ whole

/-- Every step keeps the registers' invariant. -/
theorem RegInv.after_step {s t : State} (inv : RegInv s) (h : step s = .next t) : RegInv t := by
  rcases step_cases h with ⟨-, rfl⟩ | ⟨rest, -, rfl⟩ | ⟨w, rest, i, -, -, run⟩ | ⟨w, rest, e, -, -, rfl⟩
  · exact inv
  · exact regInv_resetBlock (s := withInbox rest s) inv.cfg
  · exact (regInv_withInbox rest s inv).after_effect (effect_of_exec run)
  · exact (regInv_withInbox rest s inv).after_rejected (reservedWord_rejected _)

end Sys2Proof.Machine
end

section
/-! SUPPORT. The data of a call (R46, R98): what each effect does to the bits of the frame, and which indices an
instruction takes in. -/

namespace Sys2Proof.Machine

/-! The encoder: the bits of the groups and of the engine are those of the header and of the payload so far. -/

/-- `ENCB` begins the trace with the header (R105). -/
theorem encTrace_header {s : State} {L : Length} (len : s.len = L) (pay : s.pay = []) (ntok : s.ntok = 5)
    (pend : s.pend = joinTokens s.cfg (headerGroups L)) (engine : engineOf s = headerEngine L) : EncTrace s := by
  refine ⟨headerGroups L, ntok.symm, pend, ?_⟩
  rw [engine, len, pay, List.append_nil, byteBits_be32Bytes, bitsMsb_eq_header]

/-- `ENCP` appends its byte's bits, and the groups that come out stand in `PEND` (R98, R106). -/
theorem EncTrace.push {s : State} (trace : EncTrace s) {b : Byte}
    (push : PushSpec86 ⟨s.acc, s.nb⟩ b (rgPush 8 6 b ⟨s.acc, s.nb⟩)) :
    EncTrace { s with
      pay := s.pay ++ [b], cnt := s.cnt + 1
      acc := (rgPush 8 6 b ⟨s.acc, s.nb⟩).2.acc, nb := (rgPush 8 6 b ⟨s.acc, s.nb⟩).2.nb
      ntok := s.ntok + (rgPush 8 6 b ⟨s.acc, s.nb⟩).1.length
      pend := s.pend ++ textAfter s.cfg s.ntok (rgPush 8 6 b ⟨s.acc, s.nb⟩).1 } := by
  obtain ⟨gs, count, text, bits⟩ := trace
  refine ⟨gs ++ (rgPush 8 6 b ⟨s.acc, s.nb⟩).1, by simp [count], ?_, ?_⟩
  · rw [joinTokens_append, count, text, emitText_eq_textAfter]
  · have pushed := push.bits
    simp only [engineOf] at bits ⊢
    rw [groupBits_append, List.append_assoc, pushed, ← List.append_assoc, bits, ← List.append_assoc,
      byteBits_append _ [b]]
    simp

/-- With the whole payload taken, the flush completes the text of the payload's frame (R96, R107, R108). -/
theorem RegInv.flush_text {s : State} (inv : RegInv s) (enc : s.phase = .enc) (ended : s.cnt = s.len.toNat)
    (trace : EncTrace s) :
    s.pend ++ textAfter s.cfg s.ntok (rgFlush 6 ⟨s.acc, s.nb⟩) = joinTokens s.cfg (groupsOf s.pay) := by
  obtain ⟨gs, count, text, bits⟩ := trace
  have opened := inv.enc enc
  have few : s.nb.toNat < 6 := by rw [opened.nb]; omega
  have payLen : s.pay.length = s.len.toNat := opened.payLen.trans ended
  have frame : frameOf s.pay = be32Bytes s.len ++ s.pay := by
    rw [frameOf, payLen, BitVec.ofNat_toNat, BitVec.setWidth_eq]
  have flushed := groupBits_rgFlush ⟨s.acc, s.nb⟩ inv.canonical few
  have whole := groupBits_regroupOut (frameOf s.pay)
  have total : (gs ++ rgFlush 6 ⟨s.acc, s.nb⟩).length = (regroupOut (frameOf s.pay)).length := by
    rw [List.length_append, count, inv.flush_count enc ended, regroupOut_length, frameOf_length, tokenCount, payLen]
  have sameBits : groupBits (gs ++ rgFlush 6 ⟨s.acc, s.nb⟩) = groupBits (regroupOut (frameOf s.pay)) := by
    have lengths := congrArg (6 * ·) total
    simp only [← groupBits_length] at lengths
    rw [groupBits_append, flushed, ← List.append_assoc, show (⟨s.acc, s.nb⟩ : Engine) = engineOf s from rfl, bits,
      ← frame] at lengths ⊢
    rw [whole] at lengths ⊢
    simp only [List.length_append, List.length_replicate] at lengths
    rw [Nat.add_left_cancel lengths]
  have groups : gs ++ rgFlush 6 ⟨s.acc, s.nb⟩ = groupsOf s.pay := by
    rw [groupsOf_eq_regroupOut]
    exact flatMap_bitsMsb_injective 6 _ _ total sameBits
  rw [← groups, joinTokens_append, text, count, emitText_eq_textAfter]

/-! The decoder: the bits of `BUF` and of the engine are those of the indices taken in. -/

/-- Closing the token of an index takes the index in (R98, R113, R114). -/
theorem RegInv.tkClose_takes {s t : State} (inv : RegInv s) (dec : s.phase = .dec) (h : tkClose s = .ok t) :
    (s.tokbuf = [] ∧ t = s) ∨
    (∃ v, cbFwd s.cfg v = s.tokbuf ∧ ∀ vs, DecTraceOf vs s → DecTraceOf (vs ++ [v]) t) := by
  rcases tkClose_ok s t h with nothing | ⟨v, -, hit, -, rfl⟩
  · exact .inl nothing
  · refine .inr ⟨v, cbFwd_of_cbRev _ _ _ hit, fun vs ⟨count, bits⟩ => ⟨by simp [count], ?_⟩⟩
    have few : s.nb.toNat < 8 := by rw [(inv.dec dec).nb]; omega
    exact groupBits_push vs v s.buf ⟨s.acc, s.nb⟩ inv.canonical few bits

/-- The whole bytes of the indices of a traced call are its `BUF` (R51). -/
theorem RegInv.wholeBytes_eq {s : State} (inv : RegInv s) (dec : s.phase = .dec) {vs : List Index}
    (trace : DecTraceOf vs s) : wholeBytes vs = s.buf := by
  obtain ⟨count, bits⟩ := trace
  exact wholeBytes_of_trace vs s.buf _ (by rw [(inv.dec dec).bufLen, count]) bits

/-- What `DECE` commits is what the indices of the call decode to (R117 to R121). -/
theorem RegInv.decResult {s : State} (inv : RegInv s) (dec : s.phase = .dec) {vs : List Index}
    (trace : DecTraceOf vs s) {P : Bytes} (checks : frameClosed s.cfg s.buf = .ok P) :
    DecResultOf vs { s with
      acc := 0#13, nb := 0#4, len := headerOf s.buf, out := P, buf := [], phase := .done } := by
  have whole := inv.wholeBytes_eq dec trace
  exact ⟨trace.1, by rw [whole]; exact (inv.dec dec).cnt, by rw [whole], by rw [whole]; exact checks⟩

/-- Ordinary bytes beyond `TOKCAP` raise `CapacityExceeded` (R116). -/
theorem deliver_ordinary_full (bs : Bytes) (s : State) (dec : s.phase = .dec)
    (ordinary : ∀ b ∈ bs, s.cfg.ws8.contains b = false) (openFits : fits s.tokbuf.length s.cfg.tokCap = true)
    (full : fits (s.tokbuf.length + bs.length) s.cfg.tokCap = false) :
    deliver bs s = errorEntry .capacityExceeded s := by
  induction bs generalizing s with
  | nil => rw [List.length_nil, Nat.add_zero, openFits] at full; cases full
  | cons b bs ih =>
    obtain ⟨first, rest⟩ := List.forall_mem_cons.mp ordinary
    rw [deliver_cons, putByte_dec b s dec]
    simp only [decpBody, first, Bool.false_eq_true, if_false]
    cases room : fits (s.tokbuf.length + 1) s.cfg.tokCap with
    | false => exact deliver_discards bs _ (.inl rfl)
    | true =>
      refine ih { s with tokbuf := s.tokbuf ++ [b] } dec rest (by simpa using room) ?_
      rw [List.length_cons] at full
      simpa [Nat.add_assoc, Nat.add_comm 1] using full

/-- A token that fits is delivered as its bytes, which extend the open token, and a separator, which closes it (R116;
log entry 5). -/
theorem deliver_tokenBytes {s : State} (adm : s.cfg.Admissible) (dec : s.phase = .dec) (v : Index)
    (room : fits (s.tokbuf.length + (cbFwd s.cfg v).length) s.cfg.tokCap = true) :
    deliver (tokenBytes s.cfg v) s = settle { s with tokbuf := s.tokbuf ++ cbFwd s.cfg v }
      (tkClose { s with tokbuf := s.tokbuf ++ cbFwd s.cfg v }) := by
  rw [tokenBytes, deliver_append, deliver_ordinary _ s dec (admissible_apart s.cfg adm v) room, deliver_cons,
    deliver_nil]
  exact putByte_separator sep { s with tokbuf := s.tokbuf ++ cbFwd s.cfg v } dec (admissible_sep s.cfg adm)

/-- A delivered token that raises nothing closes the open token with its bytes added. -/
theorem RegInv.tkClose_of_deliver {s : State} (inv : RegInv s) (dec : s.phase = .dec) (v : Index)
    (goesOn : (deliver (tokenBytes s.cfg v) s).phase = .dec) :
    tkClose { s with tokbuf := s.tokbuf ++ cbFwd s.cfg v } = .ok (deliver (tokenBytes s.cfg v) s) := by
  cases room : fits (s.tokbuf.length + (cbFwd s.cfg v).length) s.cfg.tokCap with
  | false =>
    rw [tokenBytes, deliver_append, deliver_ordinary_full _ s dec (admissible_apart s.cfg inv.cfg v)
      (inv.dec dec).tokFits room, deliver_discards _ _ (.inl rfl)] at goesOn
    cases goesOn
  | true =>
    rw [deliver_tokenBytes inv.cfg dec v room] at goesOn ⊢
    cases close : tkClose { s with tokbuf := s.tokbuf ++ cbFwd s.cfg v } with
    | ok t => rfl
    | error e =>
      rw [close] at goesOn
      cases goesOn

/-- The indices that an instruction takes in, and what they trace (R114, R116, R117). -/
def Takes (s : State) (i : Instr) (t : State) (ws : List Index) : Prop :=
  TakesIn s i ws ∧ ∀ vs, DecTraceOf vs s →
    (t.phase = .dec → DecTraceOf (vs ++ ws) t) ∧ (t.phase = .done → DecResultOf (vs ++ ws) t)

/-- An instruction that takes nothing in leaves the trace. -/
theorem takes_nothing {s t : State} {i : Instr} (takes : TakesIn s i []) (dec : t.phase = .dec)
    (same : ∀ vs, DecTraceOf vs s → DecTraceOf vs t) : Takes s i t [] := by
  refine ⟨takes, fun vs trace => ⟨fun _ => ?_, fun done => ?_⟩⟩
  · rw [List.append_nil]
    exact same vs trace
  · cases dec.symm.trans done

/-- An instruction that closes the token of one index takes it in. -/
theorem takes_one {s t : State} {i : Instr} {v : Index} (takes : TakesIn s i [v]) (dec : t.phase = .dec)
    (one : ∀ vs, DecTraceOf vs s → DecTraceOf (vs ++ [v]) t) : Takes s i t [v] := by
  refine ⟨takes, fun vs trace => ⟨fun _ => one vs trace, fun done => ?_⟩⟩
  cases dec.symm.trans done

/-- Bytes that an open decode call accepts take an index in exactly where they close its token (R114, R116). -/
theorem RegInv.delivered_takes {s : State} (inv : RegInv s) {i : Instr} {bs : Bytes} (h : Delivers s.cfg i bs)
    (writes : DecoderWrites s (deliver bs s)) : ∃ ws, Takes s i (deliver bs s) ws := by
  have dec := writes.1
  have goesOn := writes.phase
  cases h with
  | byte b =>
    rw [deliver_cons, deliver_nil] at goesOn ⊢
    rcases putByte_cases b s with rejected | ⟨-, ordinary, -, put⟩ | ⟨-, separator, close⟩
    · exact absurd goesOn (rejected.phase_ne nofun nofun)
    · exact ⟨[], takes_nothing (.byte b ordinary) goesOn fun vs trace => by rw [put]; exact trace⟩
    · rcases inv.tkClose_takes dec close with ⟨nothing, same⟩ | ⟨v, token, one⟩
      · exact ⟨[], takes_nothing (.separator b separator nothing) goesOn fun vs trace => by rw [same]; exact trace⟩
      · exact ⟨[v], takes_one (.close b v separator token) goesOn one⟩
  | token _ u token =>
    have close := inv.tkClose_of_deliver dec u goesOn
    rcases tkClose_ok _ _ close with ⟨nothing, -⟩ | ⟨v, -, hit, -, ends⟩
    · simp [cbFwd_ne_nil s.cfg inv.cfg u] at nothing
    · refine ⟨[v], takes_one (.token i u v token (cbFwd_of_cbRev _ _ _ hit)) goesOn fun vs ⟨count, bits⟩ => ?_⟩
      have few : s.nb.toNat < 8 := by rw [(inv.dec dec).nb]; omega
      rw [ends]
      exact ⟨by simp [count], groupBits_push vs v s.buf ⟨s.acc, s.nb⟩ inv.canonical few bits⟩

/-- Every instruction with which an open decode call goes on or ends without error takes certain indices in. -/
theorem RegInv.effect_takes {s t : State} {i : Instr} (inv : RegInv s) (dec : s.phase = .dec) (h : Effect s i t)
    (goesOn : t.phase = .dec ∨ t.phase = .done) : ∃ ws, Takes s i t ws := by
  cases h with
  | discarded _ dead => rcases dead with dead | dead <;> cases dec.symm.trans dead
  | raised => rcases goesOn with h | h <;> cases h
  | nop => exact ⟨[], takes_nothing .nop dec fun _ trace => trace⟩
  | clr => rcases goesOn with h | h <;> cases h
  | cbrd v => exact ⟨[], takes_nothing (.cbrd v) dec fun _ trace => trace⟩
  | encb _ idle => cases dec.symm.trans idle
  | encp _ enc => cases dec.symm.trans enc
  | ence enc => cases dec.symm.trans enc
  | decb idle => cases dec.symm.trans idle
  | delivered _ _ delivers writes => exact inv.delivered_takes delivers writes
  | dece u P _ close _ checks =>
    obtain ⟨inv', dec', -⟩ := inv.after_tkClose dec close
    rcases inv.tkClose_takes dec close with ⟨nothing, rfl⟩ | ⟨v, token, one⟩
    · refine ⟨[], .finish nothing, fun vs trace => ⟨nofun, fun _ => ?_⟩⟩
      rw [List.append_nil]
      exact inv.decResult dec trace checks
    · exact ⟨[v], .finishClose v token, fun vs trace => ⟨nofun, fun _ => inv'.decResult dec' (one vs trace) checks⟩⟩

/-- Which indices an instruction takes in is determined: different tokens belong to different indices, and no token is
empty (R81, R90). -/
theorem RegInv.takesIn_unique {s : State} {i : Instr} {ws ws' : List Index} (inv : RegInv s) (dec : s.phase = .dec)
    (h : TakesIn s i ws) (h' : TakesIn s i ws') : ws = ws' := by
  have inj := cbFwd_injective s.cfg (inv.distinct (by rw [dec]; nofun))
  have ne := cbFwd_ne_nil s.cfg inv.cfg
  cases h with
  | nop =>
    cases h' with
    | nop => rfl
    | token _ _ _ enc => cases enc
  | cbrd v =>
    cases h' with
    | cbrd => rfl
    | token _ _ _ enc => cases enc
  | byte b ordinary =>
    cases h' with
    | byte => rfl
    | separator _ separates => exact absurd separates ordinary
    | close _ _ separates => exact absurd separates ordinary
    | token _ _ _ enc => cases enc
  | separator b separates nothing =>
    cases h' with
    | byte _ ordinary => exact absurd separates ordinary
    | separator => rfl
    | close _ v _ token => exact absurd (token.trans nothing) (ne v)
    | token _ _ _ enc => cases enc
  | close b v separates token =>
    cases h' with
    | byte _ ordinary => exact absurd separates ordinary
    | separator _ _ nothing => exact absurd (token.trans nothing) (ne v)
    | close _ w _ token' => rw [inj v w (token.trans token'.symm)]
    | token _ _ _ enc => cases enc
  | token _ u v enc token =>
    cases h' with
    | token _ u' v' enc' token' =>
      obtain rfl := Wire.tok.inj (enc.symm.trans enc')
      rw [inj v v' (token.trans token'.symm)]
    | _ => cases enc
  | finish nothing =>
    cases h' with
    | token _ _ _ enc => cases enc
    | finish => rfl
    | finishClose v token => exact absurd (token.trans nothing) (ne v)
  | finishClose v token =>
    cases h' with
    | token _ _ _ enc => cases enc
    | finish nothing => exact absurd (token.trans nothing) (ne v)
    | finishClose w token' => rw [inj v w (token.trans token'.symm)]

end Sys2Proof.Machine
end

section
/-! SUPPORT. The data invariant along an instruction and along a step (R46, R108, R121). -/

namespace Sys2Proof.Machine

/-- No call is open and none is finished: the data invariant says nothing. -/
theorem dataInv_of_no_call {s : State} (notEnc : s.phase ≠ .enc) (notDec : s.phase ≠ .dec) (notDone : s.phase ≠ .done) :
    DataInv s :=
  ⟨fun p => absurd p notEnc, fun p => absurd p notDec, fun p => absurd p notDone, fun p => absurd p notDone⟩

theorem dataInv_of_enc {s : State} (enc : s.phase = .enc) (trace : EncTrace s) : DataInv s := by
  refine ⟨fun _ => trace, fun p => ?_, fun p => ?_, fun p => ?_⟩ <;> rw [enc] at p <;> cases p

theorem dataInv_of_dec {s : State} (dec : s.phase = .dec) (trace : DecTrace s) : DataInv s := by
  refine ⟨fun p => ?_, fun _ => trace, fun p => ?_, fun p => ?_⟩ <;> rw [dec] at p <;> cases p

/-- `ENCE` commits the encoding of exactly the payload taken (R108). -/
theorem RegInv.encodeClosed_eq {s : State} (inv : RegInv s) (enc : s.phase = .enc) (ended : s.cnt = s.len.toNat)
    (valid : utf8Ok s.cfg s.pay = true) (trace : EncTrace s) :
    encodeClosed s.cfg s.pay = .ok (s.pend ++ textAfter s.cfg s.ntok (rgFlush 6 ⟨s.acc, s.nb⟩)) := by
  rw [encodeClosed, if_pos valid, inv.flush_text enc ended trace]

/-- `DECB` opens with no index taken in (R115). -/
theorem RegInv.decTrace_decb {s : State} (inv : RegInv s) (idle : s.phase = .idle) :
    DecTraceOf [] { s with dir := .decode, phase := .dec, acc := 0#13, nb := 0#4 } := by
  have quiet := inv.idle idle
  refine ⟨quiet.ntok.symm, ?_⟩
  simp only [quiet.buf]
  rfl

/-- Every effect keeps the data invariant. -/
theorem DataInv.after_effect {s t : State} {i : Instr} (data : DataInv s) (inv : RegInv s) (h : Effect s i t) :
    DataInv t := by
  cases h with
  | discarded => exact data
  | raised => exact dataInv_of_no_call nofun nofun nofun
  | nop => exact data
  | clr => exact dataInv_of_no_call nofun nofun nofun
  | cbrd v => exact ⟨data.enc, data.dec, data.doneEnc, data.doneDec⟩
  | encb L idle =>
    have quiet := inv.idle idle
    exact dataInv_of_enc rfl (encTrace_header (L := L) rfl quiet.pay rfl (by simp only [quiet.pend]; rfl) rfl)
  | encp b enc => exact dataInv_of_enc enc ((data.enc enc).push (inv.push enc b))
  | ence enc ended valid =>
    have opened := inv.enc enc
    refine ⟨nofun, nofun, fun _ _ => ⟨s.pay, opened.payLen.trans ended, ?_⟩, fun _ decode => ?_⟩
    · exact inv.encodeClosed_eq enc ended valid (data.enc enc)
    · cases opened.dir.symm.trans decode
  | decb idle => exact dataInv_of_dec rfl ⟨[], inv.decTrace_decb idle⟩
  | delivered _ _ delivers writes =>
    obtain ⟨ws, -, traces⟩ := inv.delivered_takes delivers writes
    obtain ⟨vs, trace⟩ := data.dec writes.1
    exact dataInv_of_dec writes.phase ⟨vs ++ ws, (traces vs trace).1 writes.phase⟩
  | dece u P dec close counted checks =>
    obtain ⟨ws, -, traces⟩ := inv.effect_takes dec (.dece u P dec close counted checks) (.inr rfl)
    obtain ⟨vs, trace⟩ := data.dec dec
    obtain ⟨inv', dec', -⟩ := inv.after_tkClose dec close
    refine ⟨nofun, nofun, fun _ encode => ?_, fun _ _ => ⟨vs ++ ws, (traces vs trace).2 rfl⟩⟩
    cases (inv'.dec dec').dir.symm.trans encode

/-- The spec's tables and separators meet the constraints of R9 and R41. -/
theorem standardConfig_admissible : standardConfig.Admissible := by
  unfold Config.Admissible
  decide +kernel

/-- `exec` answers a next state for every instruction (R134). -/
theorem exec_total (i : Instr) (s : State) : ∃ t, exec i s = .next t := by
  rcases command_or_token i with rfl | rfl | ⟨L, rfl⟩ | ⟨b, rfl⟩ | rfl | rfl | ⟨b, rfl⟩ | rfl | ⟨v, rfl⟩ | ⟨v, rfl, -⟩
  case inr.inr.inr.inr.inr.inr.inr.inr.inr => exact ⟨_, exec_tokenInstr v s⟩
  all_goals exact ⟨_, rfl⟩

/-- Every step answers a next state (R134). -/
theorem step_total (s : State) : ∃ t, step s = .next t := by
  cases hin : s.inbox with
  | nil => exact ⟨s, by rw [step, hin]⟩
  | cons m rest =>
    cases m with
    | reset => exact ⟨_, step_of_reset hin⟩
    | issue w =>
      cases hd : decode w with
      | ok i =>
        rw [step_of_decode_ok hin hd]
        exact exec_total i _
      | error e => exact ⟨_, step_of_decode_error hin hd⟩

/-- A step that takes an instruction is that instruction's `exec`, but for the inbox (R55). -/
theorem exec_of_step {s t : State} {w : Wire} {rest : List HostMove} {i : Instr} (hin : s.inbox = .issue w :: rest)
    (hd : decode w = .ok i) (h : step s = .next t) : ∃ u, exec i s = .next u ∧ t = withInbox rest u := by
  obtain ⟨u, run⟩ := exec_total i s
  rw [step_of_decode_ok hin hd, exec_withInbox i rest s u run] at h
  exact ⟨u, run, (Host.Outcome.next.inj h).symm⟩

/-- Every step keeps the data invariant. -/
theorem DataInv.after_step {s t : State} (data : DataInv s) (inv : RegInv s) (h : step s = .next t) : DataInv t := by
  rcases step_cases h with ⟨-, rfl⟩ | ⟨rest, -, rfl⟩ | ⟨w, rest, i, -, -, run⟩ | ⟨w, rest, e, -, -, rfl⟩
  · exact data
  · cases check : tokensDistinct (withInbox rest s).cfg with
    | true => rw [resetBlock_eq_reset check]; exact dataInv_of_no_call nofun nofun nofun
    | false => rw [resetBlock_eq_collision check]; exact dataInv_of_no_call nofun nofun nofun
  · exact (dataInv_withInbox rest s data).after_effect (regInv_withInbox rest s inv) (effect_of_exec run)
  · rcases reservedWord_rejected (withInbox rest s) with ⟨same, -⟩ | ⟨e, raised, -⟩
    · rw [same]; exact dataInv_withInbox rest s data
    · rw [raised]; exact dataInv_of_no_call nofun nofun nofun

/-- Which of the payload's bytes an effect leaves in an open encode call (R105, R106). -/
theorem Effect.keeps_payload {s t : State} {i : Instr} (h : Effect s i t) (enc : s.phase = .enc)
    (goesOn : t.phase = .enc) (notEncp : ∀ b, i ≠ .encp b) : t.len = s.len ∧ t.pay = s.pay := by
  cases h with
  | discarded => exact ⟨rfl, rfl⟩
  | raised => cases goesOn
  | nop => exact ⟨rfl, rfl⟩
  | clr => cases goesOn
  | cbrd => exact ⟨rfl, rfl⟩
  | encb _ idle => cases enc.symm.trans idle
  | encp b => exact absurd rfl (notEncp b)
  | ence => cases goesOn
  | decb => cases goesOn
  | delivered _ _ _ writes => rw [writes.phase] at goesOn; cases goesOn
  | dece => cases goesOn

/-- Only `ENCE` ends an encode call in `DONE`, and what it commits is the encoding of the payload (R107, R108). -/
theorem RegInv.commits_payload {s t : State} {i : Instr} (inv : RegInv s) (data : DataInv s) (h : Effect s i t)
    (enc : s.phase = .enc) (done : t.phase = .done) : encodeClosed s.cfg s.pay = .ok t.out := by
  cases h with
  | ence _ ended valid => exact inv.encodeClosed_eq enc ended valid (data.enc enc)
  | discarded => cases enc.symm.trans done
  | nop => cases enc.symm.trans done
  | cbrd => rw [show s.phase = .done from done] at enc; cases enc
  | encp => rw [show s.phase = .done from done] at enc; cases enc
  | delivered _ _ _ writes => rw [writes.phase] at done; cases done
  | dece _ _ dec => cases enc.symm.trans dec
  | raised => cases done
  | clr => cases done
  | encb => cases done
  | decb => cases done

end Sys2Proof.Machine
end

section
/-! PROOF. The two invariants along every step (10_state, 20_memory R46, 42_encoder R108, 43_decoder R121). -/

namespace Sys2Proof.Proofs

open Sys2Proof.Machine

/-- Settles O45: a step waits, resets, is one instruction's effect, or rejects a reserved word; each keeps it. -/
theorem stepKeepsRegisterInvariant : Obligations.StepKeepsRegisterInvariant :=
  fun _ _ inv run => inv.after_step run

/-- Settles O44: the reset values with the spec's tables, which pass the check. -/
theorem resetHasRegisterInvariant : Obligations.ResetHasRegisterInvariant :=
  regInv_reset standardConfig_admissible tokensDistinct_standardConfig []

/-- Settles O46: in `IDLE` no call is open and none is finished. -/
theorem resetHasDataInvariant : Obligations.ResetHasDataInvariant :=
  dataInv_of_no_call nofun nofun nofun

/-- Settles O47: each effect adds to the bits of the call those of the byte or of the index that it takes in; which
index that is, the distinct tokens determine. -/
theorem stepKeepsDataInvariant : Obligations.StepKeepsDataInvariant := by
  intro s t inv data run
  refine ⟨data.after_step inv run, fun w rest i hin hd => ?_⟩
  obtain ⟨u, ran, rfl⟩ := exec_of_step hin hd run
  have effect := effect_of_exec ran
  simp only [withInbox_phase, withInbox_len, withInbox_pay, withInbox_out]
  refine ⟨?encb, ?encp, effect.keeps_payload, inv.commits_payload data effect, ?decb, ?takes, ?traces⟩
  case encb =>
    rintro L rfl enc
    rcases encb_cases L s u ran with rejected | ⟨idle, -, rfl⟩
    · exact absurd enc (rejected.phase_ne nofun nofun)
    · exact ⟨rfl, (inv.idle idle).pay⟩
  case encp =>
    rintro b rfl enc
    rcases encp_cases b s u ran with rejected | ⟨-, -, rfl⟩
    · exact absurd enc (rejected.phase_ne nofun nofun)
    · exact ⟨rfl, rfl⟩
  case decb =>
    rintro rfl dec
    rcases decb_cases s u ran with rejected | ⟨idle, rfl⟩
    · exact absurd dec (rejected.phase_ne nofun nofun)
    · exact inv.decTrace_decb idle
  case takes =>
    intro dec goesOn
    obtain ⟨ws, takes, -⟩ := inv.effect_takes dec effect goesOn
    exact ⟨ws, takes⟩
  case traces =>
    intro vs ws dec trace takes
    have traced : ∀ ws', Takes s i u ws' → (u.phase = .dec → DecTraceOf (vs ++ ws) u) ∧
        (u.phase = .done → DecResultOf (vs ++ ws) u) := by
      rintro ws' ⟨takes', traces⟩
      rw [inv.takesIn_unique dec takes takes']
      exact traces vs trace
    refine ⟨fun goesOn => ?_, fun ends => ?_⟩
    · obtain ⟨ws', takes'⟩ := inv.effect_takes dec effect (.inl goesOn)
      exact (traced ws' takes').1 goesOn
    · obtain ⟨ws', takes'⟩ := inv.effect_takes dec effect (.inr ends)
      exact (traced ws' takes').2 ends

end Sys2Proof.Proofs
end

section
/-! PROOF. The step, and the commands that execute in every phase but `FATAL` (44_control R128 to R130, 40_codebook
R88). -/

namespace Sys2Proof.Proofs

open Sys2Proof.Machine

/-- Settles O5: a word that decodes is executed with its move taken from the inbox. -/
theorem stepRunsTheDecodedInstruction : Obligations.StepRunsTheDecodedInstruction :=
  fun _ _ _ _ hin hd => step_of_decode_ok hin hd

/-- Settles O6: with no move the block waits. -/
theorem stepWaitsForTheHost : Obligations.StepWaitsForTheHost := by
  intro s hin
  rw [step, hin]

/-- Settles O13: a step without a word answers a state, a word that decodes runs an instruction, and every instruction
answers one. -/
theorem blockNeverStops : Obligations.BlockNeverStops := step_total

/-- Settles O9: in `FATAL` `NOP` is discarded, elsewhere its rule is the state itself. -/
theorem nopChangesNothing : Obligations.NopChangesNothing := by
  intro s
  rw [exec_nop, inAnyPhase_eq, ite_self]

/-- Settles O10: outside `FATAL` `CLR` clears, and the cleared state is the reset state but for tables, moves and
`CB_OK`. -/
theorem clrRestoresResetValues : Obligations.ClrRestoresResetValues := by
  refine ⟨fun s notFatal => ?_, fun s fatal => exec_fatal .clr fatal⟩
  rw [exec_clr, inAnyPhase_ok _ _ notFatal, clear_eq_reset]

/-- Settles O18: outside `FATAL` `CBRD` looks its index up, and `cb_fwd` is the two tables' entries joined. -/
theorem cbrdReadsOneEntry : Obligations.CbrdReadsOneEntry := by
  refine ⟨fun v s notFatal => ?_, fun v s fatal => exec_fatal (.cbrd v) fatal⟩
  rw [exec_cbrd, inAnyPhase_ok _ _ notFatal]
  rfl

/-- Settles O15: the codes read off the table. -/
theorem errorCodesAreTheTable : Obligations.ErrorCodesAreTheTable := by
  refine ⟨rfl, rfl, rfl, ?unknown, rfl, ?truncated, rfl, rfl, rfl, rfl⟩
  case unknown => exact fun _ _ => rfl
  case truncated => exact fun _ _ => rfl

end Sys2Proof.Proofs
end

section
/-! SUPPORT. The inverse lookup decided by whole tokens (R87), and the tokens of the spec's tables (R85, R90). -/

namespace Sys2Proof.Machine

/-- Under distinct tokens a hit is being the index's token (R87). -/
theorem cbRev_eq_some_iff {c : Config} (distinct : tokensDistinct c = true) (t : Bytes) (v : Index) :
    cbRev c t = some v ↔ cbFwd c v = t := by
  constructor
  · exact cbFwd_of_cbRev c t v
  · rintro rfl
    exact cbRev_cbFwd distinct v

/-- A miss is being no token (R87). -/
theorem cbRev_eq_none_iff (c : Config) (t : Bytes) : cbRev c t = none ↔ ∀ v : Index, cbFwd c v ≠ t := by
  refine ⟨fun miss v token => ?_, cbRev_of_no_token⟩
  have := List.find?_eq_none.mp miss v (mem_allIndices v)
  simp [token] at this

/-- The lookup reads the two tables only (R85). -/
theorem cbFwd_of_tables {c : Config} (core : c.core = coreTable) (tone : c.tone = toneTable) :
    cbFwd c = cbFwd standardConfig := by
  funext v
  rw [cbFwd, cbFwd, core, tone, standardConfig_core, standardConfig_tone]

theorem cbRev_of_tables {c : Config} (core : c.core = coreTable) (tone : c.tone = toneTable) :
    cbRev c = cbRev standardConfig := by
  funext t
  rw [cbRev, cbRev, cbFwd_of_tables core tone]

/-- The bytes of every token of the spec are above the separators, and none is DEL (R90). -/
theorem standard_tokens_printable (v : Index) (b : Byte) (hb : b ∈ cbFwd standardConfig v) :
    0x21 ≤ b.toNat ∧ b ≠ 0x7F#8 := by
  have all : (allIndices.all fun v => (cbFwd standardConfig v).all fun b =>
      decide (0x21 ≤ b.toNat) && decide (b.toNat ≠ 0x7F)) = true := by decide +kernel
  have token := List.all_eq_true.mp all v (mem_allIndices v)
  have byte := List.all_eq_true.mp token b hb
  simp only [Bool.and_eq_true, decide_eq_true_eq] at byte
  refine ⟨byte.1, ?_⟩
  rintro rfl
  exact byte.2 rfl

end Sys2Proof.Machine
end

section
/-! PROOF. The codebook (40_codebook sections 1 to 4). -/

namespace Sys2Proof.Proofs

open Sys2Proof.Machine

/-- Settles O19: hits and misses are decided by whole tokens, and tokens have 3 to 9 bytes; of the examples, four are
tokens and the fifth is none. -/
theorem inverseLookupIsExact : Obligations.InverseLookupIsExact := by
  intro c distinct
  refine ⟨cbRev_eq_some_iff distinct, cbRev_eq_none_iff c, cbRev_cbFwd distinct, fun adm t size => ?size,
    fun core tone => ?examples⟩
  case size =>
    refine (cbRev_eq_none_iff c t).mpr ?_
    rintro v rfl
    have := cbFwd_length c adm v
    omega
  case examples =>
    have miss : cbRev standardConfig
        [0x6E#8, 0x6F#8, 0x74#8, 0x61#8, 0x74#8, 0x6F#8, 0x6B#8, 0x65#8, 0x6E#8] = none := by decide +kernel
    rw [cbRev_of_tables core tone]
    simp only [cbRev_eq_some_iff tokensDistinct_standardConfig]
    exact ⟨rfl, rfl, rfl, rfl, miss⟩

/-- Settles O20: the check passes exactly for pairwise different tokens. -/
theorem codebookCheckMeansDistinct : Obligations.CodebookCheckMeansDistinct := by
  refine fun s => ⟨fun inj => ?pass, fun ⟨v, w, ne, same⟩ => ?fail⟩
  case pass => rw [cbInit, if_pos (tokensDistinct_of_injective inj)]
  case fail => rw [cbInit, if_neg (by simp [tokensDistinct_of_collision ne same])]

/-- Settles O21: the configuration is admissible and its tokens pass the check, so they are distinct, of 3 to 9 bytes
and without separators. -/
theorem standardCodebookProperties : Obligations.StandardCodebookProperties := by
  have adm := standardConfig_admissible
  refine ⟨cbFwd_injective standardConfig tokensDistinct_standardConfig, fun v b hb => ?bytes,
    cbFwd_length standardConfig adm, adm⟩
  case bytes =>
    obtain ⟨above, notDel⟩ := standard_tokens_printable v b hb
    exact ⟨above, notDel, by simpa using admissible_apart standardConfig adm v b hb⟩

end Sys2Proof.Proofs
end

section
/-! SUPPORT. The transition table (R132), read off what a command can leave. -/

namespace Sys2Proof.Machine

/-- A command that has its effect goes from its legal phase to one of its targets. -/
theorem callMay_of_legal {legal p q : Phase} {targets : List Phase} (h : p = legal) (target : q ∈ targets) :
    callMay legal targets p q = true := by
  rw [callMay, if_pos h]
  simpa using target

/-- A rejected command stays in `ERR` or `FATAL`, or goes to `ERR`, which from its legal phase must be a target. -/
theorem callMay_of_rejected {s t : State} {legal : Phase} {targets : List Phase} (h : Rejected s t)
    (notErr : legal ≠ .err) (notFatal : legal ≠ .fatal) (raises : s.phase = legal → .err ∈ targets) :
    callMay legal targets s.phase t.phase = true := by
  rcases h with ⟨rfl, dead | dead⟩ | ⟨e, rfl, -, live⟩
  · simp [callMay, dead, notErr.symm]
  · simp [callMay, dead, notFatal.symm]
  · by_cases here : s.phase = legal
    · exact callMay_of_legal here (raises here)
    · simp [callMay, here, live]

end Sys2Proof.Machine
end

section
/-! PROOF. The transition table and `DECB` (44_control section 3, 43_decoder R115). -/

namespace Sys2Proof.Proofs

open Sys2Proof.Machine

/-- Settles O30: the dispatch by phase; in `IDLE` the rule writes the direction and the phase and clears the engine. -/
theorem decbOpensTheCall : Obligations.DecbOpensTheCall := by
  refine fun s => ⟨fun idle => ?opens, fun inCall => ?illegal, fun dead => ?discarded⟩
  case opens =>
    rw [exec_decb, whenLegal_eq, idle]
    rfl
  case illegal => rcases inCall with h | h | h <;> rw [exec_decb, whenLegal_eq, h] <;> rfl
  case discarded => rw [exec_decb, whenLegal_discards _ _ _ dead]

/-- Settles O12: each command is rejected or has its effect, from its legal phase; `DECB` raises nothing in `IDLE`. -/
theorem phaseTransitionsAreTheTable : Obligations.PhaseTransitionsAreTheTable := by
  refine ⟨fun s t h => ?nop, fun v s t h => ?cbrd, fun s t h => ?clr, fun L s t h => ?encb, fun b s t h => ?encp,
    fun s t h => ?ence, fun s t h => ?decb, fun b s t h => ?decp, fun s t h => ?dece, fun i v s t token h => ?token,
    fun s t w rest hin fatal h => ?fatal⟩
  case nop => rw [nop_cases s t h]
  case cbrd => rcases cbrd_cases v s t h with ⟨-, rfl⟩ | ⟨-, rfl⟩ <;> rfl
  case clr =>
    rcases clr_cases s t h with ⟨fatal, rfl⟩ | ⟨notFatal, rfl⟩
    · rw [if_pos fatal, fatal]
    · rw [if_neg notFatal, clear_phase]
  case encb =>
    rcases encb_cases L s t h with rejected | ⟨idle, -, rfl⟩
    · exact callMay_of_rejected rejected nofun nofun fun _ => by simp
    · exact callMay_of_legal idle (by simp)
  case encp =>
    rcases encp_cases b s t h with rejected | ⟨enc, -, rfl⟩
    · exact callMay_of_rejected rejected nofun nofun fun _ => by simp
    · exact callMay_of_legal enc (by simp [enc])
  case ence =>
    rcases ence_cases s t h with rejected | ⟨enc, -, -, rfl⟩
    · exact callMay_of_rejected rejected nofun nofun fun _ => by simp
    · exact callMay_of_legal enc (by simp)
  case decb =>
    by_cases idle : s.phase = .idle
    · rw [(decbOpensTheCall s).1 idle] at h
      cases h
      exact callMay_of_legal idle (by simp)
    · rcases decb_cases s t h with rejected | ⟨idle', -⟩
      · exact callMay_of_rejected rejected nofun nofun fun here => absurd here idle
      · exact absurd idle' idle
  case decp =>
    rw [exec_decp, Host.Outcome.next.injEq] at h
    rcases h ▸ putByte_outcome b s with rejected | writes
    · exact callMay_of_rejected rejected nofun nofun fun _ => by simp
    · exact callMay_of_legal writes.1 (by simp [writes.phase])
  case dece =>
    rcases dece_cases s t h with rejected | ⟨dec, u, P, -, -, -, rfl⟩
    · exact callMay_of_rejected rejected nofun nofun fun _ => by simp
    · exact callMay_of_legal dec (by simp)
  case token =>
    rw [eq_tokenInstr_of_encode i v token, exec_tokenInstr, Host.Outcome.next.injEq] at h
    have outcome := deliver_outcome (bs := tokenBytes s.cfg v) (by simp [tokenBytes]) s
    rw [show deliver (tokenBytes s.cfg v) s = t from h] at outcome
    rcases outcome with rejected | writes
    · exact callMay_of_rejected rejected nofun nofun fun _ => by simp
    · exact callMay_of_legal writes.1 (by simp [writes.phase])
  case fatal =>
    rw [step_fatal fatal hin] at h
    cases h
    exact fatal

end Sys2Proof.Proofs
end

section
/-! PROOF. What each instruction leaves unchanged (10_state, 20_memory section 1, 60_exceptions section 4). -/

namespace Sys2Proof.Proofs

open Sys2Proof.Machine

/-- Settles O39: no effect writes them. -/
theorem noCommandWritesParameters : Obligations.NoCommandWritesParameters := by
  intro i s t h
  cases effect_of_exec h with
  | delivered _ _ _ writes =>
    obtain ⟨-, _, _, _, _, _, _, left⟩ := writes
    rw [left]
    exact ⟨rfl, rfl, rfl⟩
  | dece u P dec close =>
    obtain ⟨-, _, _, _, _, _, _, rfl⟩ := decoderWrites_of_tkClose dec close
    exact ⟨rfl, rfl, rfl⟩
  | _ => exact ⟨rfl, rfl, rfl⟩

/-- Settles O40: of the effects only those of `CBRD` and `CLR` write `LKP`, and those of `ENCB`, `DECB` and `CLR`
`DIR`. -/
theorem lookupAndDirectionFrame : Obligations.LookupAndDirectionFrame := by
  intro i s t h
  cases effect_of_exec h with
  | clr => exact ⟨fun _ notClr => absurd rfl notClr, fun _ _ notClr => absurd rfl notClr⟩
  | cbrd v => exact ⟨fun notCbrd => absurd rfl (notCbrd v), fun _ _ _ => rfl⟩
  | encb L => exact ⟨fun _ _ => rfl, fun notEncb => absurd rfl (notEncb L)⟩
  | decb => exact ⟨fun _ _ => rfl, fun _ notDecb => absurd rfl notDecb⟩
  | delivered _ _ _ writes =>
    obtain ⟨-, _, _, _, _, _, _, left⟩ := writes
    rw [left]
    exact ⟨fun _ _ => rfl, fun _ _ _ => rfl⟩
  | dece u P dec close =>
    obtain ⟨-, _, _, _, _, _, _, rfl⟩ := decoderWrites_of_tkClose dec close
    exact ⟨fun _ _ => rfl, fun _ _ _ => rfl⟩
  | _ => exact ⟨fun _ _ => rfl, fun _ _ _ => rfl⟩

/-- Settles O41: an error entry goes to `ERR` from another phase; no other effect but that of `CLR` writes the
report. -/
theorem errorReportFrame : Obligations.ErrorReportFrame := by
  intro i s t h notClr noEntry
  cases effect_of_exec h with
  | raised _ e _ _ notErr => exact absurd (noEntry rfl) notErr
  | clr => exact absurd rfl notClr
  | delivered _ _ _ writes =>
    obtain ⟨-, _, _, _, _, _, _, left⟩ := writes
    rw [left]
    exact ⟨rfl, rfl, rfl, rfl, rfl⟩
  | dece u P dec close =>
    obtain ⟨-, _, _, _, _, _, _, rfl⟩ := decoderWrites_of_tkClose dec close
    exact ⟨rfl, rfl, rfl, rfl, rfl⟩
  | _ => exact ⟨rfl, rfl, rfl, rfl, rfl⟩

end Sys2Proof.Proofs
end

section
/-! PROOF. Which instructions write a byte space (20_memory section 1, 60_exceptions section 4). -/

namespace Sys2Proof.Proofs

open Sys2Proof.Machine

/-- Settles O42: `CLR` and error entry empty `OUT`, the two commits fill it, and no other effect writes it. -/
theorem outputAppearsOnlyAtCommit : Obligations.OutputAppearsOnlyAtCommit := by
  intro i s t h ⟨a, differs⟩
  cases effect_of_exec h with
  | raised => exact .inl ⟨fun _ => rfl, .inr rfl⟩
  | clr => exact .inl ⟨fun _ => rfl, .inl rfl⟩
  | ence enc => exact .inr ⟨.inl ⟨rfl, enc⟩, rfl⟩
  | delivered _ _ _ writes =>
    obtain ⟨-, _, _, _, _, _, _, left⟩ := writes
    rw [left] at differs
    exact absurd rfl differs
  | dece _ _ dec => exact .inr ⟨.inr ⟨rfl, dec⟩, rfl⟩
  | _ => exact absurd rfl differs

/-- Settles O43: without an error an encoder command writes `PAY`, `PEND` and `OUT` of the spaces, a decoder command
`BUF`, `TOKBUF` and `OUT`. -/
theorem otherDirectionBuffersFrame : Obligations.OtherDirectionBuffersFrame := by
  intro i s t h notErr
  refine ⟨fun encoder a => ?encoder, fun decoder a => ?decoder⟩
  case encoder =>
    cases effect_of_exec h with
    | raised => exact absurd rfl notErr
    | delivered _ _ delivers =>
      rcases encoder with ⟨L, rfl⟩ | ⟨b, rfl⟩ | rfl <;> cases delivers with | token _ _ token => cases token
    | clr => simp at encoder
    | dece => simp at encoder
    | _ => exact ⟨rfl, rfl, rfl⟩
  case decoder =>
    cases effect_of_exec h with
    | raised => exact absurd rfl notErr
    | delivered _ _ _ writes =>
      obtain ⟨-, _, _, _, _, _, _, left⟩ := writes
      rw [left]
      exact ⟨rfl, rfl, rfl⟩
    | dece u P dec close =>
      obtain ⟨-, _, _, _, _, _, _, rfl⟩ := decoderWrites_of_tkClose dec close
      exact ⟨rfl, rfl, rfl⟩
    | clr => simp [encode] at decoder
    | encp => simp [encode] at decoder
    | ence => simp [encode] at decoder
    | encb => simp [encode] at decoder
    | _ => exact ⟨rfl, rfl, rfl⟩

end Sys2Proof.Proofs
end

section
/-! SUPPORT. The commands with a legal phase outside it: `IllegalOp` in the other phases of a call and in `IDLE`,
discarded in `ERR` and `FATAL` (R130, R131); and the decoder's commands in `DEC`. -/

namespace Sys2Proof.Machine

/-- Where a command is not legal it raises `IllegalOp`, unless the phase discards it. -/
theorem whenLegal_of_illegal {legal : Bool} (body : State → Except Raise State) {s : State} (illegal : legal = false)
    (notErr : s.phase ≠ .err) (notFatal : s.phase ≠ .fatal) : whenLegal legal body s = errorEntry .illegalOp s := by
  rw [illegal, whenLegal_illegal body s notErr notFatal]

/-- What `DECP` answers in `DEC`. -/
theorem exec_decp_dec (b : Byte) {s : State} (dec : s.phase = .dec) :
    exec (.decp b) s = .next (settle s (decpBody b s)) := by
  rw [exec_decp, putByte_dec b s dec]

/-- A separator in `DEC` closes the open token (R116). -/
theorem exec_decp_separator {b : Byte} {s : State} (dec : s.phase = .dec) (separator : b ∈ s.cfg.ws8) :
    exec (.decp b) s = .next (settle s (tkClose s)) := by
  rw [exec_decp, putByte_separator b s dec (by simpa using separator)]

/-- A token with a hit is closed by taking its index in, with room for the byte that comes out (R113, R114). -/
theorem tkClose_hit {s : State} {v : Index} (opened : s.tokbuf ≠ []) (hit : cbRev s.cfg s.tokbuf = some v) :
    tkClose s =
      if (rgPush 6 8 v ⟨s.acc, s.nb⟩).1 = [] ∨ fits (s.buf.length + 1) s.cfg.cap = true then
        .ok { s with
          tokbuf := [], ntok := s.ntok + 1
          acc := (rgPush 6 8 v ⟨s.acc, s.nb⟩).2.acc, nb := (rgPush 6 8 v ⟨s.acc, s.nb⟩).2.nb
          buf := s.buf ++ (rgPush 6 8 v ⟨s.acc, s.nb⟩).1
          cnt := s.cnt + (rgPush 6 8 v ⟨s.acc, s.nb⟩).1.length }
      else .error .capacityExceeded := by
  rw [tkClose, if_neg opened, hit]
  exact decSym_eq v _

/-- `DECE` with the last token closed, a token taken in and the frame's checks passed (R117). -/
theorem exec_dece_commits {s u : State} {P : Bytes} (dec : s.phase = .dec) (close : tkClose s = .ok u)
    (counted : 0 < u.ntok) (checks : frameClosed u.cfg u.buf = .ok P) :
    exec .dece s = .next { u with
      acc := 0#13, nb := 0#4, len := headerOf u.buf, out := P, buf := [], phase := .done } := by
  rw [exec_dece_dec dec, deceBody_eq, close]
  simp only [counted, if_true, checks]
  rfl

/-- `DECE` with the last token closed, a token taken in and a check that fails (R117). -/
theorem exec_dece_fails {s u : State} {e : Raise} (dec : s.phase = .dec) (close : tkClose s = .ok u)
    (counted : 0 < u.ntok) (checks : frameClosed u.cfg u.buf = .error e) : exec .dece s = .next (errorEntry e s) := by
  rw [exec_dece_dec dec, deceBody_eq, close]
  simp only [counted, if_true, checks]
  rfl

/-- The checks of a frame that has a header: the declared bytes must be there, and be valid (R119, R120). -/
theorem frameClosed_cons (c : Config) (b0 b1 b2 b3 : Byte) (rest : Bytes) :
    frameClosed c (b0 :: b1 :: b2 :: b3 :: rest) =
      if rest.length < (be32 b0 b1 b2 b3).toNat then
        .error (.truncatedPayload (be32 b0 b1 b2 b3) (BitVec.ofNat 32 rest.length))
      else if utf8Ok c (rest.take (be32 b0 b1 b2 b3).toNat) then .ok (rest.take (be32 b0 b1 b2 b3).toNat)
      else .error .corruptPayload := by
  have header : ¬ (b0 :: b1 :: b2 :: b3 :: rest).length < hdrBytes := by simp [hdrBytes]
  have there : (b0 :: b1 :: b2 :: b3 :: rest).length - hdrBytes = rest.length := by simp [hdrBytes]
  rw [frameClosed, if_neg header, there]
  rfl

/-- A frame whose declared bytes are there and valid passes the checks, with slack or without (R119, R127). -/
theorem frameClosed_of_valid {c : Config} {buf : Bytes} (whole : (headerOf buf).toNat + 4 ≤ buf.length)
    (valid : utf8Ok c ((buf.drop 4).take (headerOf buf).toNat) = true) :
    frameClosed c buf = .ok ((buf.drop 4).take (headerOf buf).toNat) := by
  rw [frameClosed, if_neg (by simp only [hdrBytes]; omega), if_neg (by simp only [hdrBytes]; omega), if_pos valid]

/-- The header is read from the first four bytes, whatever follows them (R118). -/
theorem headerOf_append {buf : Bytes} (header : 4 ≤ buf.length) (slack : Bytes) :
    headerOf (buf ++ slack) = headerOf buf := by
  simp only [headerOf]
  rw [List.getD_append _ _ _ 0 (by omega), List.getD_append _ _ _ 1 (by omega), List.getD_append _ _ _ 2 (by omega),
    List.getD_append _ _ _ 3 (by omega)]

/-- The payload is read from the bytes that the header declares, whatever follows them (R119, R127). -/
theorem payload_append {buf : Bytes} {n : Nat} (whole : n + 4 ≤ buf.length) (slack : Bytes) :
    ((buf ++ slack).drop 4).take n = (buf.drop 4).take n := by
  rw [List.drop_append_of_le_length (by omega), List.take_append_of_le_length (by rw [List.length_drop]; omega)]

end Sys2Proof.Machine
end

section
/-! PROOF. The encoder's payload commands (42_encoder R106, R107). -/

namespace Sys2Proof.Proofs

open Sys2Proof.Machine

/-- Settles O27: `ENCP` is the push of its byte and the emission of the groups that come out. -/
theorem encpPacksOneByte : Obligations.EncpPacksOneByte := by
  refine fun b s => ⟨fun enc more => ?packs, exec_encp_excess b, fun inCall => ?illegal, fun dead => ?discarded⟩
  case packs =>
    rw [exec_encp_enc b enc more, encByte_eq, emitText_eq_textAfter]
    rfl
  case illegal =>
    rw [exec_encp, whenLegal_of_illegal] <;> rcases inCall with h | h | h <;> simp [h]
  case discarded => rw [exec_encp, whenLegal_discards _ _ _ dead]

/-- Settles O28: `ENCE` flushes and commits; by the invariants the text it commits is that of the frame's groups. -/
theorem enceCommitsTheText : Obligations.EnceCommitsTheText := by
  refine fun s => ⟨fun enc ended valid => ?commits, fun enc ended _ inv trace =>
    ⟨inv.flush_count enc ended, inv.flush_text enc ended trace⟩, fun enc ended invalid => ?raises,
    fun enc more => ?early, fun inCall => ?illegal, fun dead => ?discarded⟩
  case commits =>
    rw [exec_ence_enc enc ended, enceBody, if_pos valid, flushGroup_eq, emitText_eq_textAfter]
    rfl
  case raises =>
    rw [exec_ence_enc enc ended, enceBody, if_neg (ne_true_of_eq_false invalid)]
    rfl
  case early => rw [exec_ence, whenLegal_of_illegal] <;> simp [enc, more]
  case illegal =>
    rw [exec_ence, whenLegal_of_illegal] <;> rcases inCall with h | h | h <;> simp [h]
  case discarded => rw [exec_ence, whenLegal_discards _ _ _ dead]

end Sys2Proof.Proofs
end

section
/-! PROOF. The decoder's byte, end and token (43_decoder R114 to R120, R126, R127; log entry 5). -/

namespace Sys2Proof.Proofs

open Sys2Proof.Machine

/-- Settles O31: a byte extends the open token or closes it, and closing looks it up. -/
theorem decpTakesOneByte : Obligations.DecpTakesOneByte := by
  refine fun b s => ⟨fun dec ordinary => ?ordinary, fun dec separator nothing => ?nothing,
    fun dec separator opened miss => ?miss, fun v dec separator opened hit => ?hit, fun inCall => ?illegal,
    fun dead => ?discarded⟩
  case ordinary =>
    have notSep : s.cfg.ws8.contains b = false := by simpa using ordinary
    refine ⟨fun room => ?_, fun full => ?_⟩
    · simp only [exec_decp_dec b dec, decpBody, notSep, Bool.false_eq_true, if_false, if_pos room, settle]
    · simp only [exec_decp_dec b dec, decpBody, notSep, Bool.false_eq_true, if_false, full, settle]
  case nothing =>
    rw [exec_decp_separator dec separator, tkClose, if_pos nothing]
    rfl
  case miss =>
    rw [exec_decp_separator dec separator, tkClose, if_neg opened, miss]
    rfl
  case hit =>
    rw [exec_decp_separator dec separator, tkClose_hit opened hit]
    refine ⟨fun room => ?_, fun out full => ?_⟩
    · rw [if_pos room]
      rfl
    · rw [if_neg (not_or.mpr ⟨out, by simp [full]⟩)]
      rfl
  case illegal =>
    rw [exec_decp, putByte_illegal b s inCall]
  case discarded => rw [exec_decp, putByte_discards b s dead]

/-- Settles O33: the last token is closed, the count is checked, and the frame's checks decide in their order. -/
theorem deceChecksAndCommits : Obligations.DeceChecksAndCommits := by
  refine fun s => ⟨fun dec => ⟨fun e close => ?closing, fun u close => ⟨fun noToken => ?empty,
    fun counted short => ?header, fun b0 b1 b2 b3 rest counted hbuf => ?frame⟩⟩, fun inCall => ?illegal,
    fun dead => ?discarded⟩
  case closing =>
    rw [exec_dece_dec dec, deceBody_eq, close]
    rfl
  case empty =>
    rw [exec_dece_dec dec, deceBody_eq, close]
    simp [noToken, settle]
  case header => exact exec_dece_fails dec close counted (if_pos short)
  case frame =>
    have header : headerOf u.buf = be32 b0 b1 b2 b3 := by rw [hbuf]; rfl
    have checks := frameClosed_cons u.cfg b0 b1 b2 b3 rest
    rw [← hbuf] at checks
    refine ⟨fun short => ?_, fun whole invalid => ?_, fun whole valid => ?_⟩
    · exact exec_dece_fails dec close counted (by rw [checks, if_pos short])
    · exact exec_dece_fails dec close counted (by rw [checks, if_neg (by omega), if_neg (by simp [invalid])])
    · rw [exec_dece_commits dec close counted (by rw [checks, if_neg (by omega), if_pos valid]), header]
  case illegal =>
    rw [exec_dece, whenLegal_of_illegal] <;> rcases inCall with h | h | h <;> simp [h]
  case discarded => rw [exec_dece, whenLegal_discards _ _ _ dead]

/-- Settles O35: the commit empties the engine, and nothing before it reads the engine. -/
theorem leftoverBitsAreNeverExamined : Obligations.LeftoverBitsAreNeverExamined := by
  intro s a n dec nothing counted header whole valid
  have checks := frameClosed_of_valid whole valid
  refine ⟨_, exec_dece_commits dec (if_pos nothing) counted checks, rfl, ?_⟩
  exact exec_dece_commits (s := { s with acc := a, nb := n }) (u := { s with acc := a, nb := n }) dec (if_pos nothing)
    counted checks

/-- Settles O36: header and payload are read from the front of `BUF`, and the commit empties it. -/
theorem slackBytesAreIgnored : Obligations.SlackBytesAreIgnored := by
  intro s slack dec nothing counted header whole valid
  refine ⟨_, exec_dece_commits dec (if_pos nothing) counted (frameClosed_of_valid whole valid), rfl, ?_⟩
  have sameHeader := headerOf_append header slack
  have samePayload := payload_append whole slack
  have checks : frameClosed s.cfg (s.buf ++ slack) = .ok ((s.buf.drop 4).take (headerOf s.buf).toNat) := by
    rw [← samePayload, ← sameHeader]
    refine frameClosed_of_valid ?_ ?_
    · rw [sameHeader, List.length_append]
      omega
    · rw [sameHeader, samePayload, valid]
  rw [exec_dece_commits (s := { s with buf := s.buf ++ slack }) (u := { s with buf := s.buf ++ slack }) dec
    (if_pos nothing) counted checks, sameHeader]

/-- Settles O37: the token's bytes open it, and its separator closes it with a hit on its index. -/
theorem tokenTakesItsIndexIn : Obligations.TokenTakesItsIndexIn := by
  intro i v s token
  rw [eq_tokenInstr_of_encode i v token, exec_tokenInstr, deliverToken]
  refine ⟨fun dec nothing adm distinct => ?takes, fun inCall => ?illegal, fun dead => ?discarded⟩
  case takes =>
    have size := cbFwd_length s.cfg adm v
    have room : fits (s.tokbuf.length + (cbFwd s.cfg v).length) s.cfg.tokCap = true :=
      admissible_tokCap s.cfg adm _ (by rw [nothing, List.length_nil]; omega)
    have delivered := deliver_tokenBytes adm dec v room
    simp only [nothing, List.nil_append] at delivered
    rw [delivered, tkClose_hit (s := { s with tokbuf := cbFwd s.cfg v }) (cbFwd_ne_nil s.cfg adm v)
      (cbRev_cbFwd distinct v)]
    refine ⟨fun fitsCap => ?_, fun out full => ?_⟩
    · rw [if_pos fitsCap]
      simp only [settle, nothing]
    · rw [if_neg (not_or.mpr ⟨out, by simp [full]⟩)]
      rfl
  case illegal => rw [deliver_illegal _ (by simp [tokenBytes]) s inCall]
  case discarded => rw [deliver_discards _ s dead]

/-- Settles O38: the `DECP`s of a text deliver it, and a token instruction delivers its bytes and the separator. -/
theorem tokenIsItsBytes : Obligations.TokenIsItsBytes := by
  intro i v s t token h
  rw [eq_tokenInstr_of_encode i v token, exec_tokenInstr] at h
  have run := runCommands_decps (cbFwd s.cfg v ++ [0x20#8]) [] s
  rw [List.append_nil, runCommands_nil] at run
  rw [run]
  exact h

end Sys2Proof.Proofs
end

section
/-! SUPPORT. The default validity check (00_scope R11): the rows of the table have different first bytes, so the
sequence that a byte string begins with is determined. -/

namespace Sys2Proof.Machine

/-- The byte string matches the row, byte by byte (R11). -/
def MatchesRow (row : List ByteRange) (q : Bytes) : Prop :=
  List.Forall₂ (fun (r : ByteRange) (b : Byte) => r.lo ≤ b.toNat ∧ b.toNat ≤ r.hi) row q

theorem inRange_iff (r : ByteRange) (b : Byte) : inRange r b = true ↔ r.lo ≤ b.toNat ∧ b.toNat ≤ r.hi := by
  simp [inRange]

/-- Taking a sequence off the front leaves what follows it. -/
theorem stripRow_eq_some_iff (row : List ByteRange) (s rest : Bytes) :
    stripRow row s = some rest ↔ ∃ q, MatchesRow row q ∧ s = q ++ rest := by
  induction row generalizing s with
  | nil => simp [stripRow, MatchesRow]
  | cons r row ih =>
    cases s with
    | nil =>
      simp only [stripRow, reduceCtorEq, false_iff]
      rintro ⟨q, hq, empty⟩
      cases hq
      cases empty
    | cons b s =>
      simp only [stripRow, Option.ite_none_right_eq_some, inRange_iff, ih]
      constructor
      · rintro ⟨hb, q, hq, rfl⟩
        exact ⟨b :: q, .cons hb hq, rfl⟩
      · rintro ⟨_, hb | ⟨hb, hq⟩, same⟩
        obtain ⟨rfl, rfl⟩ := List.cons.inj same
        exact ⟨hb, _, hq, rfl⟩

/-- The first bytes of two rows lie in ranges apart from each other. -/
def LeadsApart (row row' : List ByteRange) : Prop :=
  ∀ r ∈ row.head?, ∀ r' ∈ row'.head?, r.hi < r'.lo ∨ r'.hi < r.lo

/-- Different rows of the table have different first bytes, and no row is empty (R11). -/
theorem utf8Rows_leads : utf8Rows.Pairwise LeadsApart ∧ ∀ row ∈ utf8Rows, row ≠ [] := by
  unfold LeadsApart
  decide

/-- Two rows that match the beginning of one byte string are the same: its first byte tells the row. -/
theorem row_unique {row row' : List ByteRange} (hrow : row ∈ utf8Rows) (hrow' : row' ∈ utf8Rows)
    {q q' rest rest' : Bytes} (h : MatchesRow row q) (h' : MatchesRow row' q') (same : q ++ rest = q' ++ rest') :
    row = row' := by
  obtain ⟨apart, nonempty⟩ := utf8Rows_leads
  have symmetric : Std.Symm LeadsApart := ⟨fun _ _ apart r hr r' hr' => (apart r' hr' r hr).symm⟩
  by_contra ne
  have leads := apart.forall hrow hrow' ne
  cases h with
  | nil => exact nonempty [] hrow rfl
  | cons hb =>
    cases h' with
    | nil => exact nonempty [] hrow' rfl
    | cons hb' =>
      obtain ⟨rfl, -⟩ := List.cons.inj same
      have := leads _ rfl _ rfl
      omega

/-- A byte string begins with a sequence of the table exactly when one can be taken off. -/
theorem stripSequence_eq_some_iff (s rest : Bytes) :
    stripSequence s = some rest ↔ ∃ row ∈ utf8Rows, ∃ q, MatchesRow row q ∧ s = q ++ rest := by
  have found : ∀ rest', stripSequence s = some rest' → ∃ row ∈ utf8Rows, stripRow row s = some rest' :=
    fun _ h => List.exists_of_findSome?_eq_some h
  constructor
  · intro h
    obtain ⟨row, hrow, strip⟩ := found rest h
    exact ⟨row, hrow, (stripRow_eq_some_iff row s rest).mp strip⟩
  · rintro ⟨row, hrow, q, hq, split⟩
    have strip := (stripRow_eq_some_iff row s rest).mpr ⟨q, hq, split⟩
    cases h : stripSequence s with
    | none => rw [List.findSome?_eq_none_iff.mp h row hrow] at strip; cases strip
    | some rest' =>
      obtain ⟨row', hrow', strip'⟩ := found rest' h
      obtain ⟨q', hq', split'⟩ := (stripRow_eq_some_iff row' s rest').mp strip'
      obtain rfl := row_unique hrow hrow' hq hq' (split.symm.trans split')
      rw [← strip', strip]

/-- The byte string is a concatenation of sequences of the table (R11). -/
def IsUtf8 (s : Bytes) : Prop :=
  ∃ parts : List Bytes, s = parts.flatten ∧ ∀ q ∈ parts, ∃ row ∈ utf8Rows, MatchesRow row q

/-- Enough fuel for the bytes is enough for the sequences, since none of them is empty. -/
theorem utf8Within_iff {fuel : Nat} {s : Bytes} (enough : s.length ≤ fuel) : utf8Within fuel s = true ↔ IsUtf8 s := by
  induction fuel generalizing s with
  | zero =>
    obtain rfl := List.length_eq_zero_iff.mp (Nat.le_zero.mp enough)
    exact ⟨fun _ => ⟨[], rfl, nofun⟩, fun _ => rfl⟩
  | succ fuel ih =>
    cases s with
    | nil => exact ⟨fun _ => ⟨[], rfl, nofun⟩, fun _ => rfl⟩
    | cons b s =>
      have shorter : ∀ {row q rest}, row ∈ utf8Rows → MatchesRow row q → b :: s = q ++ rest → rest.length ≤ fuel := by
        intro row q rest hrow hq split
        have count := congrArg List.length split
        have some : row.length ≠ 0 := fun h => utf8Rows_leads.2 row hrow (List.length_eq_zero_iff.mp h)
        rw [List.length_append, ← hq.length_eq, List.length_cons] at count
        rw [List.length_cons] at enough
        omega
      constructor
      · intro h
        rw [utf8Within] at h
        split at h
        · next rest strip =>
          obtain ⟨row, hrow, q, hq, split⟩ := (stripSequence_eq_some_iff _ _).mp strip
          obtain ⟨parts, rfl, all⟩ := (ih (shorter hrow hq split)).mp h
          exact ⟨q :: parts, split, List.forall_mem_cons.mpr ⟨⟨row, hrow, hq⟩, all⟩⟩
        · cases h
      · rintro ⟨parts, split, all⟩
        cases parts with
        | nil => cases split
        | cons q parts =>
          obtain ⟨⟨row, hrow, hq⟩, all⟩ := List.forall_mem_cons.mp all
          rw [List.flatten_cons] at split
          rw [utf8Within, (stripSequence_eq_some_iff _ parts.flatten).mpr ⟨row, hrow, q, hq, split⟩]
          exact (ih (shorter hrow hq split)).mpr ⟨parts, rfl, all⟩

end Sys2Proof.Machine
end

section
/-! SUPPORT. The port `lkp_data` (10_state R39): nine lanes of a byte each. -/

namespace Sys2Proof.Machine

/-- A bit of words combined by OR is set where it is in one of them. -/
theorem getLsbD_foldl_or {n : Nat} {α : Type} (word : α → BitVec n) (l : List α) (d : BitVec n) (k : Nat) :
    (l.foldl (fun d i => d ||| word i) d).getLsbD k = (d.getLsbD k || l.any fun i => (word i).getLsbD k) := by
  induction l generalizing d with
  | nil => simp
  | cons x l ih => rw [List.foldl_cons, ih, BitVec.getLsbD_or, List.any_cons, Bool.or_assoc]

/-- A byte of `LKP` shifted to its lane of the port has bits in that lane only (R39). -/
theorem getLsbD_lane (b : Byte) {i j k : Nat} (hi : i < 9) (hj : j < 9) (hk : k < 8) :
    (b.setWidth 72 <<< (64 - 8 * j)).getLsbD (64 - 8 * i + k) = (decide (i = j) && b.getLsbD k) := by
  simp only [BitVec.getLsbD_shiftLeft, BitVec.getLsbD_setWidth]
  rcases Nat.lt_trichotomy i j with above | rfl | below
  · have out : 8 ≤ 64 - 8 * i + k - (64 - 8 * j) := by omega
    simp [BitVec.getLsbD_of_ge b _ out, above.ne]
  · simp [show 64 - 8 * i + k < 72 by omega, show k < 72 by omega]
  · simp [show 64 - 8 * i + k < 64 - 8 * j by omega, below.ne']

/-- Each byte of `LKP` stands in its lane of `lkp_data`, and 0 in the lanes beyond (R39). -/
theorem lkpData_lane (s : State) {i : Nat} (hi : i < 9) :
    (lkpData s).extractLsb' (64 - 8 * i) 8 = s.lkp.getD i 0#8 := by
  refine BitVec.eq_of_getLsbD_eq fun k hk => ?_
  have lanes : ((List.range 9).any fun j =>
      ((s.lkp.getD j 0#8).setWidth 72 <<< (64 - 8 * j)).getLsbD (64 - 8 * i + k)) = (s.lkp.getD i 0#8).getLsbD k := by
    rw [Bool.eq_iff_iff, List.any_eq_true]
    constructor
    · rintro ⟨j, hj, bit⟩
      rw [getLsbD_lane _ hi (List.mem_range.mp hj) hk, Bool.and_eq_true, decide_eq_true_eq] at bit
      obtain ⟨rfl, bit⟩ := bit
      exact bit
    · intro bit
      refine ⟨i, List.mem_range.mpr hi, ?_⟩
      rw [getLsbD_lane _ hi hi hk, bit]
      simp
  rw [BitVec.getLsbD_extractLsb', lkpData, getLsbD_foldl_or, lanes]
  simp [hk]

end Sys2Proof.Machine
end

section
/-! PROOF. The validity check and the host's reads (00_scope R11, 10_state R37 to R39). -/

namespace Sys2Proof.Proofs

open Sys2Proof.Machine

/-- Settles O22: each sequence is taken off in turn, and the one that a string begins with is determined. -/
theorem utf8CheckIsTheTable : Obligations.Utf8CheckIsTheTable := by
  intro c table s
  rw [utf8Ok, table]
  exact utf8Within_iff le_rfl

/-- Settles O53: the view copies the registers, an address is in range or reads 0, and each byte of `LKP` has its
lane. -/
theorem hostReadsThePorts : Obligations.HostReadsThePorts := by
  intro s
  refine ⟨?phase, ?dir, ⟨rfl, rfl, rfl, rfl, rfl, rfl, rfl, rfl, rfl, rfl, rfl⟩, ?done, ?error, fun a => ?out,
    fun a => ?etok, fun size => ⟨?length, fun i hi => lkpData_lane s hi⟩⟩
  case phase => cases h : s.phase <;> simp [hostView, phaseCode, h]
  case dir => cases h : s.dir <;> simp [hostView, dirCode, h]
  case done => simp [hostView, doneFlag]
  case error => simp [hostView, errorFlag]
  case out => simp +contextual [readByte, spaceBytes, outData, List.getD_eq_getElem?_getD]
  case etok => simp +contextual [readByte, spaceBytes, etokData, List.getD_eq_getElem?_getD]
  case length =>
    rw [lkpLen, BitVec.toNat_ofNat]
    omega

end Sys2Proof.Proofs
end

section
/-! SUPPORT. Following a run (00_scope R5): the machine's own steps from the opening on, up to the first state that is
not in an open call, are what `followRun` finds among the moves that the host has made. -/

namespace Sys2Proof.Machine

/-- A call is open: phase `ENC` or `DEC` (R20). -/
def InCall (s : State) : Prop := s.phase = .enc ∨ s.phase = .dec

/-- The host's moves are taken one by one, and no others come in (R55). -/
theorem step_inbox {s t : State} (h : step s = .next t) : t.inbox = s.inbox.tail := by
  rcases step_cases h with ⟨hin, rfl⟩ | ⟨rest, hin, rfl⟩ | ⟨w, rest, i, hin, -, run⟩ | ⟨w, rest, e, hin, -, rfl⟩
  · rw [hin, List.tail_nil]
  · rw [hin, List.tail_cons]
    cases check : tokensDistinct (withInbox rest s).cfg with
    | true => rw [resetBlock_eq_reset check, withInbox_inbox]
    | false => rw [resetBlock_eq_collision check, withInbox_inbox]
  · rw [hin, List.tail_cons, exec_keeps_inbox run, withInbox_inbox]
  · rw [hin, List.tail_cons, reservedWord_eq]
    split_ifs <;> rfl

theorem run_succ {s t : State} (h : step s = .next t) (k : Nat) :
    Host.Core.run Sys2Proof.core (k + 1) s = Host.Core.run Sys2Proof.core k t := by
  have first : Sys2Proof.core.step s = .next t := h
  simp only [Host.Core.run, first]

/-- Without a move the machine stays. -/
theorem run_of_no_move {s : State} (h : s.inbox = []) (k : Nat) : Host.Core.run Sys2Proof.core k s = .next s := by
  induction k with
  | zero => rfl
  | succ k ih => rw [run_succ (by rw [step, h]) k, ih]

/-- The machine comes from `s` to `t` in `k` steps, and every state before `t` is one of an open call. -/
def StaysInCall (k : Nat) (s t : State) : Prop :=
  Host.Core.run Sys2Proof.core k s = .next t ∧
    ∀ (j : Nat) (u : State), j < k → Host.Core.run Sys2Proof.core j s = .next u → InCall u

theorem staysInCall_zero (s : State) : StaysInCall 0 s s := ⟨rfl, fun _ _ before => absurd before (Nat.not_lt_zero _)⟩

theorem StaysInCall.cons {k : Nat} {s t u : State} (inCall : InCall s) (first : step s = .next t)
    (rest : StaysInCall k t u) : StaysInCall (k + 1) s u := by
  refine ⟨(run_succ first k).trans rest.1, fun j v before reach => ?_⟩
  cases j with
  | zero => exact Host.Outcome.next.inj reach ▸ inCall
  | succ j => exact rest.2 j v (Nat.lt_of_succ_lt_succ before) ((run_succ first j).symm.trans reach)

/-- The first state out of the call is one state. -/
theorem StaysInCall.unique {k k' : Nat} {s t t' : State} (h : StaysInCall k s t) (h' : StaysInCall k' s t')
    (ends : ¬ InCall t) (ends' : ¬ InCall t') : t = t' := by
  rcases Nat.lt_trichotomy k k' with before | rfl | after
  · exact absurd (h'.2 k t before h.1) ends
  · exact Host.Outcome.next.inj (h.1.symm.trans h'.1)
  · exact absurd (h.2 k' t' after h'.1) ends'

/-- Reaching a state through a call is one step and then staying in the call (R5). -/
theorem reachesThroughCall_iff {s u : State} (first : step s = .next u) (t : State) :
    ReachesThroughCall s t ↔ ∃ k, StaysInCall k u t := by
  constructor
  · rintro ⟨k, pos, reach, between⟩
    obtain ⟨k, rfl⟩ := Nat.exists_eq_succ_of_ne_zero pos.ne'
    refine ⟨k, (run_succ first k).symm.trans reach, fun j v before reach => ?_⟩
    exact between (j + 1) v (Nat.succ_pos j) (Nat.succ_lt_succ before) ((run_succ first j).trans reach)
  · rintro ⟨k, reach, between⟩
    refine ⟨k + 1, Nat.succ_pos k, (run_succ first k).trans reach, fun j v pos before reach => ?_⟩
    obtain ⟨j, rfl⟩ := Nat.exists_eq_succ_of_ne_zero pos.ne'
    exact between j v (Nat.lt_of_succ_lt_succ before) ((run_succ first j).symm.trans reach)

/-- A run stands as the state out of the call that it has reached. -/
theorem followRun_out (n : Nat) {s : State} (out : ¬ InCall s) : followRun n s = fateAt s := by
  obtain ⟨notEnc, notDec⟩ := not_or.mp out
  exact followRun_closed n s notEnc notDec

/-- A run that is followed through all the moves either leaves the call, and stands as the first state out of it, or
never leaves it (R5). -/
theorem followRun_cases {n : Nat} {s : State} (moves : s.inbox.length = n) :
    (∃ k t, StaysInCall k s t ∧ ¬ InCall t ∧ followRun n s = fateAt t) ∨
    ((∀ k t, Host.Core.run Sys2Proof.core k s = .next t → InCall t) ∧ followRun n s = .unfinished) := by
  induction n generalizing s with
  | zero =>
    by_cases inCall : InCall s
    · refine .inr ⟨fun k t reach => ?_, ?_⟩
      · rw [run_of_no_move (List.length_eq_zero_iff.mp moves) k] at reach
        exact Host.Outcome.next.inj reach ▸ inCall
      · rcases inCall with h | h <;> simp [fateAt, openPhase, endPhase, h]
    · exact .inl ⟨0, s, staysInCall_zero s, inCall, followRun_out 0 inCall⟩
  | succ n ih =>
    by_cases inCall : InCall s
    · obtain ⟨u, first⟩ := step_total s
      have fewer : u.inbox.length = n := by rw [step_inbox first, List.length_tail, moves, Nat.add_sub_cancel]
      rw [followRun_open n s u inCall first]
      rcases ih fewer with ⟨k, t, stays, ends, fate⟩ | ⟨always, fate⟩
      · exact .inl ⟨k + 1, t, stays.cons inCall first, ends, fate⟩
      · refine .inr ⟨fun k t reach => ?_, fate⟩
        cases k with
        | zero => exact Host.Outcome.next.inj reach ▸ inCall
        | succ k => exact always k t ((run_succ first k).symm.trans reach)
    · exact .inl ⟨0, s, staysInCall_zero s, inCall, followRun_out (n + 1) inCall⟩

theorem not_inCall_of_idle {s : State} (h : s.phase = .idle) : ¬ InCall s := by simp [InCall, h]

theorem not_inCall_of_end {s : State} (h : s.phase = .done ∨ s.phase = .err ∨ s.phase = .fatal) : ¬ InCall s := by
  rcases h with h | h | h <;> simp [InCall, h]

section
variable {n : Nat} {s : State} (moves : s.inbox.length = n)
include moves

/-- The first state out of the call decides how the run stands. -/
theorem followRun_of_stays {k : Nat} {t : State} (stays : StaysInCall k s t) (ends : ¬ InCall t) :
    followRun n s = fateAt t := by
  rcases followRun_cases moves with ⟨k', t', stays', ends', fate⟩ | ⟨always, -⟩
  · rw [fate, stays.unique stays' ends ends']
  · exact absurd (always k t stays.1) ends

theorem followRun_eq_ended_iff (t : State) :
    followRun n s = .ended t ↔
      (t.phase = .done ∨ t.phase = .err ∨ t.phase = .fatal) ∧ ∃ k, StaysInCall k s t := by
  constructor
  · intro h
    rcases followRun_cases moves with ⟨k, t', stays, ends, fate⟩ | ⟨-, fate⟩ <;> rw [h] at fate
    · rcases fateAt_cases t' with ⟨-, e⟩ | ⟨-, e⟩ | ⟨phase, e⟩ <;> rw [e] at fate <;> cases fate
      exact ⟨phase, k, stays⟩
    · cases fate
  · rintro ⟨phase, k, stays⟩
    rw [followRun_of_stays moves stays (not_inCall_of_end phase)]
    rcases phase with h | h | h <;> simp [fateAt, endPhase, h]

theorem followRun_eq_abandoned_iff :
    followRun n s = .abandoned ↔ ∃ t : State, t.phase = .idle ∧ ∃ k, StaysInCall k s t := by
  constructor
  · intro h
    rcases followRun_cases moves with ⟨k, t, stays, ends, fate⟩ | ⟨-, fate⟩ <;> rw [h] at fate
    · rcases fateAt_cases t with ⟨idle, e⟩ | ⟨-, e⟩ | ⟨-, e⟩ <;> rw [e] at fate <;> cases fate
      exact ⟨t, idle, k, stays⟩
    · cases fate
  · rintro ⟨t, idle, k, stays⟩
    rw [followRun_of_stays moves stays (not_inCall_of_idle idle)]
    simp [fateAt, endPhase, openPhase, idle]

theorem followRun_eq_unfinished_iff :
    followRun n s = .unfinished ↔ ∀ k t, Host.Core.run Sys2Proof.core k s = .next t → InCall t := by
  rcases followRun_cases moves with ⟨k, t, stays, ends, fate⟩ | ⟨always, fate⟩
  · refine ⟨fun h => ?_, fun always => absurd (always k t stays.1) ends⟩
    rw [h] at fate
    rcases fateAt_cases t with ⟨-, e⟩ | ⟨inCall, -⟩ | ⟨-, e⟩
    · rw [e] at fate; cases fate
    · exact absurd inCall ends
    · rw [e] at fate; cases fate
  · exact ⟨fun _ => always, fun _ => fate⟩

end

/-- A run is one that the next move opens, followed from the state after that move (R5). -/
theorem runOf_eq_some {s : State} {f : RunFate} (h : runOf s = some f) :
    ∃ m rest u, s.inbox = m :: rest ∧ step s = .next u ∧ f = followRun rest.length u := by
  cases hin : s.inbox with
  | nil => rw [runOf_nil s hin] at h; cases h
  | cons m rest =>
    obtain ⟨u, first⟩ := step_total s
    cases opens : opensRun m with
    | false => rw [runOf_other s m rest hin opens] at h; cases h
    | true =>
      rw [runOf_opens s u m rest hin opens first] at h
      exact ⟨m, rest, u, rfl, first, (Option.some.inj h).symm⟩

/-- What every step keeps holds at the end of a run. -/
theorem followRun_ended_keeps (P : State → Prop) (keeps : ∀ s t, P s → step s = .next t → P t) {n : Nat} {s t : State}
    (ends : followRun n s = .ended t) (start : P s) : P t := by
  induction n generalizing s with
  | zero =>
    rcases fateAt_cases s with ⟨-, e⟩ | ⟨-, e⟩ | ⟨-, e⟩ <;> rw [followRun_zero, e] at ends <;> cases ends
    exact start
  | succ n ih =>
    by_cases inCall : InCall s
    · obtain ⟨u, first⟩ := step_total s
      rw [followRun_open n s u inCall first] at ends
      exact ih ends (keeps s u start first)
    · rw [followRun_out _ inCall] at ends
      rcases fateAt_cases s with ⟨-, e⟩ | ⟨-, e⟩ | ⟨-, e⟩ <;> rw [e] at ends <;> cases ends
      exact start

end Sys2Proof.Machine
end

section
/-! PROOF. The end and the result of a run (00_scope R5). -/

namespace Sys2Proof.Proofs

open Sys2Proof.Machine

/-- Settles O54: the run stands as the first state out of the call, which the machine's steps determine. -/
theorem runEndsAtTheFirstEndState : Obligations.RunEndsAtTheFirstEndState := by
  refine ⟨runOf_nil, fun s m rest hin notEncb notDecb => ?other, fun s m rest hin opening => ?opened⟩
  case other =>
    refine runOf_other s m rest hin (Bool.eq_false_iff.mpr fun opens => ?_)
    rcases (opensRun_iff m).mp opens with ⟨L, same⟩ | same
    · exact notEncb L same
    · exact notDecb same
  case opened =>
    obtain ⟨u, first⟩ := step_total s
    have moves : u.inbox.length = rest.length := by rw [step_inbox first, hin, List.tail_cons]
    rw [runOf_opens s u m rest hin ((opensRun_iff m).mpr opening) first]
    simp only [Option.some.injEq, reachesThroughCall_iff first]
    refine ⟨followRun_eq_ended_iff moves, followRun_eq_abandoned_iff moves, ?_⟩
    rw [followRun_eq_unfinished_iff moves]
    constructor
    · intro always k t pos reach
      obtain ⟨k, rfl⟩ := Nat.exists_eq_succ_of_ne_zero pos.ne'
      exact always k t ((run_succ first k).symm.trans reach)
    · exact fun always k t reach => always (k + 1) t (Nat.succ_pos k) ((run_succ first k).trans reach)

/-- Settles O55: the result is read in the state in which the run stands; the registers' invariant holds there, and the
move after the opening decides a run that it abandons. -/
theorem runResultIsReadAtItsEnd : Obligations.RunResultIsReadAtItsEnd := by
  refine ⟨fun s t ended => ?ended, fun s noEnd => ?none, fun s t rest first inCall next => ?abandoned⟩
  case ended =>
    rw [runResult_of_runOf s _ ended, resultOf_ended]
    refine ⟨resultIn_done t, fun err => ⟨resultIn_err t err, fun inv => ?_⟩, resultIn_fatal t⟩
    obtain ⟨m, rest, u, -, first, fate⟩ := runOf_eq_some ended
    have inv := followRun_ended_keeps RegInv (fun _ _ inv h => inv.after_step h) fate.symm (inv.after_step first)
    exact ⟨inv.out (by rw [err]; nofun), inv.errPhase.mpr (.inl err)⟩
  case none =>
    rcases noEnd with h | h | h
    · rw [runResult, h]; rfl
    · rw [runResult_of_runOf s _ h, resultOf_abandoned]
    · rw [runResult_of_runOf s _ h, resultOf_unfinished]
  case abandoned =>
    cases run : runOf s with
    | none => rw [runResult, run]; rfl
    | some f =>
      obtain ⟨m, more, u, hin, first', rfl⟩ := runOf_eq_some run
      obtain rfl := Host.Outcome.next.inj (first.symm.trans first')
      have moves : t.inbox = more := by rw [step_inbox first, hin, List.tail_cons]
      have leaves : ∃ v, step t = .next v ∧ (v.phase = .idle ∨ v.phase = .fatal) := by
        rcases next with clr | reset
        · have live : (withInbox rest t).phase ≠ .fatal := by rcases inCall with h | h <;> simp [h]
          refine ⟨_, (step_of_decode_ok clr (decode_encode .clr)).trans ?_, .inl (clear_phase (withInbox rest t))⟩
          rw [exec_clr, inAnyPhase_ok _ _ live]
        · refine ⟨_, step_of_reset reset, ?_⟩
          cases check : tokensDistinct (withInbox rest t).cfg with
          | true => rw [resetBlock_eq_reset check]; exact .inl rfl
          | false => rw [resetBlock_eq_collision check]; exact .inr rfl
      obtain ⟨v, second, out⟩ := leaves
      have one : more.length = rest.length + 1 := by
        rcases next with h | h <;> rw [← moves, h, List.length_cons]
      rw [runResult_of_runOf s _ run, one, followRun_open _ t v inCall second]
      rcases out with idle | fatal
      · rw [followRun_out _ (not_inCall_of_idle idle)]
        simp [fateAt, endPhase, openPhase, idle]
      · rw [followRun_out _ (not_inCall_of_end (.inr (.inr fatal)))]
        simp [fateAt, endPhase, fatal, resultIn]

end Sys2Proof.Proofs
end

section
/-! SUPPORT. The run of a whole call (00_scope R5, 30_encoding R80): the commands issued as moves, followed to the end
that the run of exactly those commands has, whatever the host issues afterwards. -/

namespace Sys2Proof.Machine

/-- The commands between the opening and the end of a call (R80). -/
def IsPut (i : Instr) : Prop := (∃ b, i = .encp b) ∨ (∃ b, i = .decp b)

/-- A put leaves an open call open, or ends it in `ERR` (R106, R116). -/
theorem put_stays {i : Instr} (put : IsPut i) {s t : State} (inCall : InCall s) (h : exec i s = .next t) :
    InCall t ∨ t.phase = .err := by
  rcases put with ⟨b, rfl⟩ | ⟨b, rfl⟩
  · rcases encp_cases b s t h with (⟨rfl, -⟩ | ⟨e, rfl, -⟩) | ⟨enc, -, rfl⟩
    · exact .inl inCall
    · exact .inr rfl
    · exact .inl (.inl enc)
  · rw [exec_decp, Host.Outcome.next.injEq] at h
    subst h
    rcases putByte_outcome b s with (⟨same, -⟩ | ⟨e, raised, -⟩) | writes
    · exact .inl (same.symm ▸ inCall)
    · rw [raised]; exact .inr rfl
    · exact .inl (.inr writes.phase)

theorem put_discarded {i : Instr} (put : IsPut i) {s : State} (err : s.phase = .err) : exec i s = .next s := by
  rcases put with ⟨b, rfl⟩ | ⟨b, rfl⟩
  · exact exec_discards (.inl err) nofun nofun
  · exact exec_discards (.inl err) nofun nofun

/-- The moves of commands issued before others. -/
def issueThen (is : List Instr) (later : List HostMove) : List HostMove := is.map issueOf ++ later

/-- A command issued next is executed, and the later moves stay. -/
theorem step_issued (i : Instr) (moves : List HostMove) {s t : State} (h : exec i s = .next t) :
    step (withInbox (issueOf i :: moves) s) = .next (withInbox moves t) := by
  rw [step_of_decode_ok rfl (decode_encode i)]
  exact exec_withInbox i moves s t h

/-- One command of an open call (R5). -/
theorem followRun_issued (i : Instr) (moves : List HostMove) {s t : State} (inCall : InCall s)
    (h : exec i s = .next t) :
    followRun (moves.length + 1) (withInbox (issueOf i :: moves) s) = followRun moves.length (withInbox moves t) :=
  followRun_open moves.length (withInbox (issueOf i :: moves) s) _ inCall (step_issued i moves h)

/-- A run that has left the call has the result of the state reached, whatever the host issues afterwards. -/
theorem resultOf_followRun_out (n : Nat) (moves : List HostMove) {s : State} (out : ¬ InCall s) :
    resultOf (followRun n (withInbox moves s)) = resultIn s := by
  have stays : followRun n (withInbox moves s) = fateAt (withInbox moves s) := followRun_out n out
  rw [stays]
  rcases fateAt_cases (withInbox moves s) with ⟨idle, e⟩ | ⟨inCall, -⟩ | ⟨-, e⟩
  · have idle : s.phase = .idle := idle
    rw [e, resultIn, idle]
    rfl
  · exact absurd inCall out
  · rw [e]
    rfl

section
variable {puts : List Instr} {last : Instr} (sticky : ∀ s : State, s.phase = .err → exec last s = .next s)
  (later : List HostMove)
include sticky

/-- In `ERR` the run has ended, and the rest of the call is discarded. -/
theorem resultOf_followRun_err (allPuts : ∀ i ∈ puts, IsPut i) (moves : List HostMove) (n : Nat) {s t : State}
    (err : s.phase = .err) (ends : runCommands (puts ++ [last]) s = .next t) :
    resultOf (followRun n (withInbox moves s)) = resultIn t := by
  have discarded : runCommands (puts ++ [last]) s = .next s := runCommands_discarded fun i hi => by
    rcases List.mem_append.mp hi with put | isLast
    · exact put_discarded (allPuts i put) err
    · rw [List.mem_singleton.mp isLast, sticky s err]
  obtain rfl := Host.Outcome.next.inj (discarded.symm.trans ends)
  exact resultOf_followRun_out n moves (not_inCall_of_end (.inr (.inl err)))

/-- Puts and a last command that leaves the call: the run has the result of the state in which exactly those commands
end. -/
theorem resultOf_followRun_call (allPuts : ∀ i ∈ puts, IsPut i) {s t : State} (start : InCall s ∨ s.phase = .err)
    (ends : runCommands (puts ++ [last]) s = .next t) (out : ¬ InCall t) :
    resultOf (followRun (issueThen (puts ++ [last]) later).length (withInbox (issueThen (puts ++ [last]) later) s)) =
      resultIn t := by
  induction puts generalizing s with
  | nil =>
    rcases start with inCall | err
    · obtain ⟨u, run⟩ := exec_total last s
      rw [List.nil_append, runCommands_cons _ _ _ _ (decode_encode last) run (exec_keeps_inbox run),
        runCommands_nil] at ends
      obtain rfl := Host.Outcome.next.inj ends
      exact (congrArg resultOf (followRun_issued last later inCall run)).trans (resultOf_followRun_out _ later out)
    · exact resultOf_followRun_err sticky allPuts _ _ err ends
  | cons i puts ih =>
    rcases start with inCall | err
    · obtain ⟨put, rest⟩ := List.forall_mem_cons.mp allPuts
      obtain ⟨u, run⟩ := exec_total i s
      rw [List.cons_append, runCommands_cons _ _ _ _ (decode_encode i) run (exec_keeps_inbox run)] at ends
      exact (congrArg resultOf (followRun_issued i (issueThen (puts ++ [last]) later) inCall run)).trans
        (ih rest (put_stays put inCall run) ends)
    · exact resultOf_followRun_err sticky allPuts _ _ err ends

end

/-- The run of a whole call: an opening command, puts and a last command. -/
theorem runResult_call {opening last : Instr} {puts : List Instr} (opens : opensRun (issueOf opening) = true)
    (allPuts : ∀ i ∈ puts, IsPut i) (sticky : ∀ s : State, s.phase = .err → exec last s = .next s)
    (later : List HostMove) {s u t : State} (first : exec opening s = .next u) (start : InCall u ∨ u.phase = .err)
    (ends : runCommands (opening :: (puts ++ [last])) s = .next t) (out : ¬ InCall t) :
    runResult { s with inbox := (opening :: (puts ++ [last])).map issueOf ++ later } = resultIn t := by
  rw [runCommands_cons _ _ _ _ (decode_encode opening) first (exec_keeps_inbox first)] at ends
  have run := runOf_opens _ _ _ _ rfl opens (step_issued opening (issueThen (puts ++ [last]) later) first)
  exact (runResult_of_runOf _ _ run).trans (resultOf_followRun_call sticky later allPuts start ends out)

end Sys2Proof.Machine
end

section
/-! PROOF. The runs of the two pseudo-operations (00_scope R5, 42_encoder section 4, 43_decoder section 5). -/

namespace Sys2Proof.Proofs

open Sys2Proof.Machine

/-- Settles O56: the run of a call has the result of the state in which its commands end, and that is the closed
form's. -/
theorem callsEndInTheirClosedFormResult : Obligations.CallsEndInTheirClosedFormResult := by
  refine fun s later inv idle => ⟨fun p short => ?encode, fun cap tokCap text => ?decode⟩
  case encode =>
    have puts : ∀ i ∈ p.map Instr.encp, IsPut i := fun i hi => by
      obtain ⟨b, -, rfl⟩ := List.mem_map.mp hi
      exact .inl ⟨b, rfl⟩
    have opens : opensRun (issueOf (.encb (BitVec.ofNat 32 p.length))) = true := (opensRun_iff _).mpr (.inl ⟨_, rfl⟩)
    have sticky : ∀ s : State, s.phase = .err → exec .ence s = .next s :=
      fun s err => exec_discards (.inl err) nofun nofun
    have declared := toNat_declaredLength short
    have call : encodeCall p s = runCommands (encodeCommands p) s := if_pos short
    cases room : fits (4 + p.length) s.cfg.cap with
    | false =>
      have ends := call.symm.trans (encodeCall_of_not_fits idle short room)
      exact runResult_call opens puts sticky later (exec_encb_beyond idle (declared.symm ▸ room)) (.inr rfl) ends
        (not_inCall_of_end (.inr (.inl rfl)))
    | true =>
      have first := exec_encb_opens idle (inv.idle idle) (declared.symm ▸ room)
      obtain ⟨ends, raises⟩ := encodeCallIsItsClosedForm p s inv idle short room
      cases valid : utf8Ok s.cfg p with
      | true =>
        exact runResult_call opens puts sticky later first (.inl (.inl rfl)) (call.symm.trans (ends valid))
          (not_inCall_of_end (.inl rfl))
      | false =>
        exact runResult_call opens puts sticky later first (.inl (.inl rfl)) (call.symm.trans (raises valid))
          (not_inCall_of_end (.inr (.inl rfl)))
  case decode =>
    have puts : ∀ i ∈ text.map Instr.decp, IsPut i := fun i hi => by
      obtain ⟨b, -, rfl⟩ := List.mem_map.mp hi
      exact .inr ⟨b, rfl⟩
    have opens : opensRun (issueOf .decb) = true := (opensRun_iff _).mpr (.inr rfl)
    have sticky : ∀ s : State, s.phase = .err → exec .dece s = .next s :=
      fun s err => exec_discards (.inl err) nofun nofun
    have first := exec_decb_opens idle (inv.idle idle)
    have ends := decodeCall_eq idle (inv.idle idle) (decodeRoom_of_infinite cap tokCap 0 text)
    have out : ¬ InCall (decodeEnd s (decodeClosed s.cfg text)) := by
      cases decodeClosed s.cfg text with
      | error e => exact not_inCall_of_end (.inr (.inl rfl))
      | ok r => exact not_inCall_of_end (.inl rfl)
    refine (runResult_call opens puts sticky later first (.inl (.inr rfl)) ends out).trans ?_
    cases decodeClosed s.cfg text <;> rfl

end Sys2Proof.Proofs
end
